-- ==== Sys2Proof/Word.lean ====
section
/-! DEFINITION. The word types of RFSEQ and the source's fixed sizes. -/

namespace Sys2Proof

/-- A byte (R7): bit 7 is the most significant. -/
abbrev Byte := BitVec 8

/-- A transceiver register address or a buffer index, five bits (R71, R76). -/
abbrev Addr := BitVec 5

/-- A command word of the host's command channel, 24 bits (R71). -/
abbrev CmdWord := BitVec 24

/-- Bytes in a DeviceAddress (R5, ADDR_LEN). -/
abbrev addrLen : Nat := 5

/-- Bytes in a Payload (R5, PAYLOAD_LEN). -/
abbrev payloadLen : Nat := 8

/-- Width of RXCNT in bits (R5, CNT_W). -/
abbrev cntW : Nat := 8

/-- The received-byte counter's type (R20). -/
abbrev Counter := BitVec cntW

/-- A DeviceAddress, byte 0 first (R9, R42). -/
abbrev DeviceAddress := Vector Byte addrLen

/-- A Payload, byte 0 first (R9, R42). -/
abbrev Payload := Vector Byte payloadLen

end Sys2Proof
end

