-- ==== Sys2Proof/Config.lean ====
section
/-! DEFINITION. What an implementation of RFSEQ fixes (the parameters of R5), and the free values. -/

namespace Sys2Proof

/-- The k-th byte that nothing in the spec determines: what the peer drives when neither the answers script nor the
reference peer says, and RXBUF and TMP after reset (R101, R19, R16, U4, U7, U10). It has no body, so no proof can know it.
DESIGN CHOICE, safe (log entries 4 and 6). -/
opaque Config.freeByte : Nat → Byte

/-- Byte k of the node's own receive address, which no source gives (R5, R25, N8). Open, safe (log entry 3). -/
opaque Config.ownAddr : Nat → Byte

/-- Byte k of the base station's transmit address, which no source gives (R5, R25, N8). Open, safe (log entry 3). -/
opaque Config.peerAddr : Nat → Byte

/-- Byte k of the outbound buffer's build-time content, which no source gives (R5, R18, N9). Open, safe (log entry 3). -/
opaque Config.txInit : Nat → Byte

/-- The parameters of R5. ADDR_LEN, PAYLOAD_LEN and CNT_W are the constants addrLen,
payloadLen and cntW of Word.lean; SENTINEL is a constant below.
Every state carries one (State.cfg), which no step changes, so a claim over all states is a claim for every
parameter set, as R5, D9 to D12, D20, D23 and D27 ask (log entry 1). R5 states no set of values for a time; here a time is a whole
number of microseconds. DESIGN CHOICE, unsafe for a claim that every time is a whole number (log entry 34). -/
structure Params where
  /-- T_SETTLE, the settle delay around every bus phase, in microseconds. -/
  tSettle : Nat
  /-- The platform's documented minimum that may replace T_SETTLE's 10 (R5, R105, R261). -/
  tSettleMin : Nat
  /-- T_CFG, the settle delay at the end of a mode transition. -/
  tCfg : Nat
  /-- T_PRE_PULSE, the wait between payload frame and enable pulse. -/
  tPrePulse : Nat
  /-- T_CE_PULSE, the chip-enable high time of the send pulse. -/
  tCePulse : Nat
  /-- MAX_POLL, the bound on Node Loop polls; none is unbounded. -/
  maxPoll : Option Nat
  /-- IRQ_LATCH: a falling edge while IRQ_EN = 0 is remembered. -/
  irqLatch : Bool
  opcRRegister : Byte
  opcWRegister : Byte
  opcRRxPayload : Byte
  opcWTxPayload : Byte
  opcFlushTx : Byte
  opcFlushRx : Byte
  opcNop : Byte
  regConfig : Addr
  regEnRxaddr : Addr
  regSetupAw : Addr
  regSetupRetr : Addr
  regRfCh : Addr
  regRfSetup : Addr
  regStatus : Addr
  regRxAddrP0 : Addr
  regTxAddr : Addr
  regRxPwP0 : Addr
  mPrimRx : Byte
  mPwrUp : Byte
  mMaskMaxRt : Byte
  mMaskTxDs : Byte
  mRxDr : Byte
  mTxDs : Byte
  mMaxRt : Byte
  valEnRxaddr : Byte
  valSetupAw : Byte
  valRfCh : Byte
  valRfSetup : Byte
  valSetupRetr : Byte
  valRxPwP0 : Byte
  ownAddr : DeviceAddress
  peerAddr : DeviceAddress
  txInit : Payload
  deriving DecidableEq, Repr

/-- SENTINEL, the byte value RXCNT counts (R5). -/
def Config.sentinel : Byte := 0xAA

/-- The defaults of R5's table. The source's rows carry its values; the GK rows carry the spec's own
general-knowledge defaults (G1 to G4). PRESUMED, unsafe for a claim that rests on one number (log entry 2). -/
def Params.default : Params where
  tSettle := 10
  tSettleMin := 10
  tCfg := 150
  tPrePulse := 10
  tCePulse := 15
  maxPoll := none
  irqLatch := true
  opcRRegister := 0x00
  opcWRegister := 0x20
  opcRRxPayload := 0x61
  opcWTxPayload := 0xA0
  opcFlushTx := 0xE1
  opcFlushRx := 0xE2
  opcNop := 0xFF
  regConfig := 0x00
  regEnRxaddr := 0x02
  regSetupAw := 0x03
  regSetupRetr := 0x04
  regRfCh := 0x05
  regRfSetup := 0x06
  regStatus := 0x07
  regRxAddrP0 := 0x0A
  regTxAddr := 0x10
  regRxPwP0 := 0x11
  mPrimRx := 0x01
  mPwrUp := 0x02
  mMaskMaxRt := 0x10
  mMaskTxDs := 0x20
  mRxDr := 0x40
  mTxDs := 0x20
  mMaxRt := 0x10
  valEnRxaddr := 0x01
  valSetupAw := 0x03
  valRfCh := 0x69
  valRfSetup := 0x26
  valSetupRetr := 0x2F
  valRxPwP0 := 0x08
  ownAddr := #v[Config.ownAddr 0, Config.ownAddr 1, Config.ownAddr 2, Config.ownAddr 3, Config.ownAddr 4]
  peerAddr := #v[Config.peerAddr 0, Config.peerAddr 1, Config.peerAddr 2, Config.peerAddr 3, Config.peerAddr 4]
  txInit := #v[Config.txInit 0, Config.txInit 1, Config.txInit 2, Config.txInit 3,
    Config.txInit 4, Config.txInit 5, Config.txInit 6, Config.txInit 7]

end Sys2Proof
end

