-- ==== Sys2Proof/Syntax.lean ====
section
/-! DEFINITION. The instructions: the twenty operations of the command word (R70) and the seven wire command bytes (R76). -/

namespace Sys2Proof

/-- What a command byte says to the peer (R76, R78). -/
inductive WireCmd where
  | readReg (a : Addr)
  | writeReg (a : Addr)
  | readRxPayload
  | writeTxPayload
  | flushTx
  | flushRx
  | nop
  deriving DecidableEq, Repr

/-- One constructor per row of spec/opcode_table.json. A command carries its `addr` and `val` fields even where its
operation ignores them, because acceptance copies both into ARG_ADDR and ARG_VAL (R71, R72, R75); bits 15:13 are stored
nowhere. -/
inductive Instr where
  | rdreg (addr : Addr) (val : Byte)
  | wrreg (addr : Addr) (val : Byte)
  | wraddr (addr : Addr) (val : Byte)
  | getStatus (addr : Addr) (val : Byte)
  | flushTx (addr : Addr) (val : Byte)
  | flushRx (addr : Addr) (val : Byte)
  | resetStatus (addr : Addr) (val : Byte)
  | enterTx (addr : Addr) (val : Byte)
  | enterRx (addr : Addr) (val : Byte)
  | send (addr : Addr) (val : Byte)
  | isSending (addr : Addr) (val : Byte)
  | configure (addr : Addr) (val : Byte)
  | ceSet (addr : Addr) (val : Byte)
  | ceClr (addr : Addr) (val : Byte)
  | irqOn (addr : Addr) (val : Byte)
  | irqOff (addr : Addr) (val : Byte)
  | cntClr (addr : Addr) (val : Byte)
  | abufWr (addr : Addr) (val : Byte)
  | txbufWr (addr : Addr) (val : Byte)
  | run (addr : Addr) (val : Byte)
  | wRRegister (a : Addr)
  | wWRegister (a : Addr)
  | wRRxPayload
  | wWTxPayload
  | wFlushTx
  | wFlushRx
  | wNop
  deriving DecidableEq, Repr

end Sys2Proof
end

