-- ==== Sys2Proof/WellFormed.lean ====
section
/-! DEFINITION. What makes an instruction and a configuration well formed. -/

namespace Sys2Proof

/-- An instruction is well formed unless it is one of R74's illegal encodings of a listed code: ABUF_WR with an index
outside ABUF, TXBUF_WR with an index outside TXBUF. An ill-formed one still has a meaning (it raises BAD_OP). -/
def Instr.wellFormed : Instr → Bool
  | .abufWr addr _ => addr.toNat < addrLen
  | .txbufWr addr _ => addr.toNat < payloadLen
  | .rdreg _ _ => true
  | .wrreg _ _ => true
  | .wraddr _ _ => true
  | .getStatus _ _ => true
  | .flushTx _ _ => true
  | .flushRx _ _ => true
  | .resetStatus _ _ => true
  | .enterTx _ _ => true
  | .enterRx _ _ => true
  | .send _ _ => true
  | .isSending _ _ => true
  | .configure _ _ => true
  | .ceSet _ _ => true
  | .ceClr _ _ => true
  | .irqOn _ _ => true
  | .irqOff _ _ => true
  | .cntClr _ _ => true
  | .run _ _ => true
  | .wRRegister _ => true
  | .wWRegister _ => true
  | .wRRxPayload => true
  | .wWTxPayload => true
  | .wFlushTx => true
  | .wFlushRx => true
  | .wNop => true

/-- The five fixed-form wire opcodes (R76). -/
def Params.fixedOpcodes (p : Params) : List Byte :=
  [p.opcRRxPayload, p.opcWTxPayload, p.opcFlushTx, p.opcFlushRx, p.opcNop]

/-- The seven wire opcodes are pairwise distinct (R6). With the low bits of the register opcodes zero this is
distinctness "as decoded" by R78. -/
def Params.opcodesDistinct (p : Params) : Bool :=
  decide (p.opcRRegister :: p.opcWRegister :: p.fixedOpcodes).Nodup

/-- OPC_R_REGISTER and OPC_W_REGISTER have their low five bits zero (R6). -/
def Params.registerOpcodesClear (p : Params) : Bool :=
  p.opcRRegister &&& 0x1F == 0 && p.opcWRegister &&& 0x1F == 0

/-- The ten register addresses are pairwise distinct (R6). -/
def Params.addressesDistinct (p : Params) : Bool :=
  decide [p.regConfig, p.regEnRxaddr, p.regSetupAw, p.regSetupRetr, p.regRfCh, p.regRfSetup, p.regStatus, p.regRxAddrP0,
    p.regTxAddr, p.regRxPwP0].Nodup

/-- The bytes with exactly one bit set. -/
def Params.oneBit (m : Byte) : Bool :=
  [0x01, 0x02, 0x04, 0x08, 0x10, 0x20, 0x40, 0x80].contains m

/-- Each mask has exactly one bit set (R6). -/
def Params.masksOneBit (p : Params) : Bool :=
  [p.mPrimRx, p.mPwrUp, p.mMaskMaxRt, p.mMaskTxDs, p.mRxDr, p.mTxDs, p.mMaxRt].all Params.oneBit

/-- The times lie in the bounds the spec gives: 10 ≤ T_CE_PULSE ≤ 4000 (R6), T_PRE_PULSE at least 10 (R5), T_SETTLE not
below the platform's documented minimum (R261, U11; log entry 16). T_CFG has no bound here: R261 calls its wait mandatory,
and neither R6 nor U11 bounds its length. DESIGN CHOICE, safe (log entry 30). -/
def Params.timesInBounds (p : Params) : Bool :=
  decide (10 ≤ p.tCePulse) && decide (p.tCePulse ≤ 4000) && decide (10 ≤ p.tPrePulse) && decide (p.tSettleMin ≤ p.tSettle)

/-- A configuration is well formed (R6, U11). -/
def Params.wellFormed (p : Params) : Bool :=
  p.opcodesDistinct && p.registerOpcodesClear && p.addressesDistinct && p.masksOneBit && p.timesInBounds

end Sys2Proof
end

