-- ==== Sys2Proof/Decode.lean ====
section
/-! DEFINITION. Decoding and encoding of the command word (R70, R71) and of the wire command byte (R76, R78). -/

namespace Sys2Proof

/-! ## Operation codes (R70) -/

def codeRdreg : Byte := 0x01
def codeWrreg : Byte := 0x02
def codeWraddr : Byte := 0x03
def codeGetStatus : Byte := 0x04
def codeFlushTx : Byte := 0x05
def codeFlushRx : Byte := 0x06
def codeResetStatus : Byte := 0x07
def codeEnterTx : Byte := 0x08
def codeEnterRx : Byte := 0x09
def codeSend : Byte := 0x0A
def codeIsSending : Byte := 0x0B
def codeConfigure : Byte := 0x0C
def codeCeSet : Byte := 0x10
def codeCeClr : Byte := 0x11
def codeIrqOn : Byte := 0x12
def codeIrqOff : Byte := 0x13
def codeCntClr : Byte := 0x14
def codeAbufWr : Byte := 0x15
def codeTxbufWr : Byte := 0x16
def codeRun : Byte := 0x20

/-! ## The command word -/

/-- Bits 23:16 of a command word (R71). -/
def CmdWord.op (w : CmdWord) : Byte := w.extractLsb' 16 8

/-- Bits 12:8 of a command word (R71). -/
def CmdWord.addr (w : CmdWord) : Addr := w.extractLsb' 8 5

/-- Bits 7:0 of a command word (R71). -/
def CmdWord.val (w : CmdWord) : Byte := w.extractLsb' 0 8

/-- Why a word or byte decodes to no instruction. -/
inductive DecodeError where
  /-- A reserved operation code (R74). -/
  | reservedOp (op : Byte)
  /-- A byte that is no wire command (R78). -/
  | unknownWire (b : Byte)
  deriving DecidableEq, Repr

/-- The twenty operations by code (R70). -/
def operations : List (Byte × (Addr → Byte → Instr)) :=
  [(codeRdreg, .rdreg), (codeWrreg, .wrreg), (codeWraddr, .wraddr), (codeGetStatus, .getStatus),
    (codeFlushTx, .flushTx), (codeFlushRx, .flushRx), (codeResetStatus, .resetStatus), (codeEnterTx, .enterTx),
    (codeEnterRx, .enterRx), (codeSend, .send), (codeIsSending, .isSending), (codeConfigure, .configure),
    (codeCeSet, .ceSet), (codeCeClr, .ceClr), (codeIrqOn, .irqOn), (codeIrqOff, .irqOff),
    (codeCntClr, .cntClr), (codeAbufWr, .abufWr), (codeTxbufWr, .txbufWr), (codeRun, .run)]

/-- The operation a code selects, with its two fields (R70); every other code is reserved (R74). -/
def decodeFields (op : Byte) (addr : Addr) (val : Byte) : Except DecodeError Instr :=
  match operations.lookup op with
  | some operation => .ok (operation addr val)
  | none => .error (.reservedOp op)

/-- Decoding a command word (R71): bits 15:13 are ignored. -/
def decodeCommand (w : CmdWord) : Except DecodeError Instr :=
  decodeFields w.op w.addr w.val

/-! ## The wire command byte -/

/-- The low five bits of a byte, the register address of a register-form command byte (R76). -/
def wireAddr (b : Byte) : Addr := b.extractLsb' 0 5

/-- R78's decoding of a command byte, in its order: the five fixed bytes, then the two register forms. -/
def decodeWireCmd (p : Params) (b : Byte) : Option WireCmd :=
  if b = p.opcRRxPayload then some .readRxPayload
  else if b = p.opcWTxPayload then some .writeTxPayload
  else if b = p.opcFlushTx then some .flushTx
  else if b = p.opcFlushRx then some .flushRx
  else if b = p.opcNop then some .nop
  else if b &&& 0xE0 = p.opcRRegister then some (.readReg (wireAddr b))
  else if b &&& 0xE0 = p.opcWRegister then some (.writeReg (wireAddr b))
  else none

/-- The instruction of a wire command. -/
def WireCmd.toInstr : WireCmd → Instr
  | .readReg a => .wRRegister a
  | .writeReg a => .wWRegister a
  | .readRxPayload => .wRRxPayload
  | .writeTxPayload => .wWTxPayload
  | .flushTx => .wFlushTx
  | .flushRx => .wFlushRx
  | .nop => .wNop

/-- Decoding a wire command byte (R78). -/
def decodeWire (p : Params) (b : Byte) : Except DecodeError Instr :=
  match decodeWireCmd p b with
  | some c => .ok c.toInstr
  | none => .error (.unknownWire b)

/-! ## The host's reading of the opcode table -/

/-- The instruction decoded from a row's bits: 24 bits are a command word, 8 bits a wire command byte read with the
default opcode table (G1). -/
def decodeTableWord (nbits w : Nat) : Option Instr :=
  if nbits = 24 then (decodeCommand (BitVec.ofNat 24 w)).toOption
  else if nbits = 8 then (decodeWire Params.default (BitVec.ofNat 8 w)).toOption
  else none

/-! ## The encoder -/

/-- The two encodings of an instruction. -/
inductive Encoded where
  | command (w : CmdWord)
  | wire (b : Byte)
  deriving DecidableEq, Repr

/-- A command word from its fields, bits 15:13 zero (R71, R81). -/
def commandWord (op : Byte) (addr : Addr) (val : Byte) : CmdWord :=
  (op.setWidth 24 <<< 16) ||| (addr.setWidth 24 <<< 8) ||| val.setWidth 24

/-- A register-form command byte: the opcode OR the address in bits 4:0 (R76). -/
def registerByte (opc : Byte) (a : Addr) : Byte :=
  opc ||| a.setWidth 8

/-- The encoding of an instruction (R71, R76), under the opcode table p. -/
def encode (p : Params) : Instr → Encoded
  | .rdreg addr val => .command (commandWord codeRdreg addr val)
  | .wrreg addr val => .command (commandWord codeWrreg addr val)
  | .wraddr addr val => .command (commandWord codeWraddr addr val)
  | .getStatus addr val => .command (commandWord codeGetStatus addr val)
  | .flushTx addr val => .command (commandWord codeFlushTx addr val)
  | .flushRx addr val => .command (commandWord codeFlushRx addr val)
  | .resetStatus addr val => .command (commandWord codeResetStatus addr val)
  | .enterTx addr val => .command (commandWord codeEnterTx addr val)
  | .enterRx addr val => .command (commandWord codeEnterRx addr val)
  | .send addr val => .command (commandWord codeSend addr val)
  | .isSending addr val => .command (commandWord codeIsSending addr val)
  | .configure addr val => .command (commandWord codeConfigure addr val)
  | .ceSet addr val => .command (commandWord codeCeSet addr val)
  | .ceClr addr val => .command (commandWord codeCeClr addr val)
  | .irqOn addr val => .command (commandWord codeIrqOn addr val)
  | .irqOff addr val => .command (commandWord codeIrqOff addr val)
  | .cntClr addr val => .command (commandWord codeCntClr addr val)
  | .abufWr addr val => .command (commandWord codeAbufWr addr val)
  | .txbufWr addr val => .command (commandWord codeTxbufWr addr val)
  | .run addr val => .command (commandWord codeRun addr val)
  | .wRRegister a => .wire (registerByte p.opcRRegister a)
  | .wWRegister a => .wire (registerByte p.opcWRegister a)
  | .wRRxPayload => .wire p.opcRRxPayload
  | .wWTxPayload => .wire p.opcWTxPayload
  | .wFlushTx => .wire p.opcFlushTx
  | .wFlushRx => .wire p.opcFlushRx
  | .wNop => .wire p.opcNop

/-- Decoding of either encoding, under the opcode table p. -/
def decode (p : Params) : Encoded → Except DecodeError Instr
  | .command w => decodeCommand w
  | .wire b => decodeWire p b

end Sys2Proof
end

