-- ==== Sys2Proof/Machine/State.lean ====
section
/-! DEFINITION. The state of RFSEQ (R10), the peer, the outside world's coming moves, and the state after reset (R33). -/

namespace Sys2Proof.Machine

/-- SEQ: who owns the bus master (R11). -/
inductive Seq where
  | idle
  | op
  | handler
  deriving DecidableEq, Repr

/-- nlpc: the Node Loop's position (R13). -/
inductive Nlpc where
  | check
  | poll
  deriving DecidableEq, Repr

/-- MODE: the radio-mode value (R21). -/
inductive Mode where
  | standby
  | transmitting
  | listening
  deriving DecidableEq, Repr

/-- One event of the wire trace (R8). Levels are true for 1. -/
inductive Event where
  | csn (level : Bool)
  | ce (level : Bool)
  | x (out inp : Byte)
  | w (t : Nat)
  | d (b : Byte)
  deriving DecidableEq, Repr

/-! ## The peer -/

/-- How the peer answers: anything (R31, R55), or as the reference peer of R56 to R63. -/
inductive PeerKind where
  | oracle
  | reference
  deriving DecidableEq, Repr

/-- The peer's register bytes: cells (5 * a + k, PR[a][k]) in canonical form. -/
abbrev Memory := List Host.Cell

/-- The reference peer's state (R56). Under kind = oracle nothing reads it. -/
structure Peer where
  kind : PeerKind
  /-- PR, the register file. -/
  mem : Memory
  /-- ST, the three status flags. -/
  st : Byte
  /-- ST_LOW, the status bits the block never uses. -/
  stLow : Byte
  /-- TXF, oldest payload first, at most three. -/
  txf : List Payload
  /-- RXF, oldest payload first, at most three. -/
  rxf : List Payload
  /-- cmd, the wire command of the open frame; none before the command byte and for a byte that is no command. -/
  cmd : Option WireCmd
  /-- idx, the transfers since the frame opened. -/
  idx : Nat
  /-- The bytes of a payload write collected so far (R60). -/
  collected : List Byte
  /-- pulse, a send has been triggered and has not completed. -/
  pulse : Bool
  deriving DecidableEq, Repr

/-! ## The outside world's coming moves (log entry 6) -/

/-- A move of the host (R72, R250, R274). -/
inductive HostMove where
  /-- Present a command word and hold it until it is accepted. -/
  | command (w : CmdWord)
  /-- The repeated command of R82 and R196: read RESULT when the block is not busy (R73) and, while it is not 0x00, present the word.
  The move tests BUSY and RESULT itself, so with RESULT 0x00 from the start it presents nothing. DESIGN CHOICE (log entry 6). -/
  | again (w : CmdWord)
  /-- Present nothing for one step. -/
  | pause
  /-- Assert and release RST. -/
  | rst
  /-- Assert and release RST n steps from now, 0 being this step, whatever becomes of the moves behind this one, which go on
  meanwhile: so RST also comes while a presented word waits (R72, R274). -/
  | rstAfter (n : Nat)
  deriving DecidableEq, Repr

/-- A move of the environment between two of the block's own acts (R61, R212). -/
inductive EnvMove where
  | quiet
  /-- The oracle peer drives IRQ_N to a level. -/
  | irq (level : Bool)
  /-- The reference peer receives a payload over the air. -/
  | deliver (p : Payload)
  /-- The reference peer's pending send completes, well or not. -/
  | sendDone (ok : Bool)
  deriving DecidableEq, Repr

/-- How a transfer ends (R101, R103). -/
inductive Answer where
  /-- It completes; the byte is what the peer drives wherever the reference peer does not determine it. -/
  | byte (b : Byte)
  /-- It has not completed when this step ends. -/
  | late
  /-- It never completes. -/
  | never
  deriving DecidableEq, Repr

/-- How a handshake of the debug channel ends (R222). -/
inductive Ready where
  | ready
  | late
  | never
  deriving DecidableEq, Repr

/-! ## Reasons -/

/-- The four fault flags of R230, in bit order. They are set in FAULT and the machine goes on as R230 says, so no step
answers Outcome.fault with one of them; Safety.lean calls a state with any of them set faulted (log entry 10). -/
inductive Fault where
  /-- Bit 0. Raised by a reserved operation code and by ABUF_WR, TXBUF_WR with an index outside the buffer (R74, R186,
  R187). Safe: the operation has no other effect. -/
  | badOp
  /-- Bit 1. Raised by SEND while MODE is not Transmitting (R152). Safe: no bus activity. -/
  | badMode
  /-- Bit 2. Raised by the handler for a sentinel byte while RXCNT = PAYLOAD_LEN (R224). Safe: the capture goes on. -/
  | cntOverrun
  /-- Bit 3. Raised by the Node Loop when MAX_POLL is finite and reached (R194). Safe: the Node Loop stops. -/
  | pollTimeout
  deriving DecidableEq, Repr

/-- Why a step has no meaning. -/
inductive Refusal where
  /-- Raised by an arm of exec whose instruction has no meaning yet; no arm does. Safe. -/
  | notModelled (mnemonic : String)
  /-- Raised by step when the configuration is not well formed (R6; U11 says refuse). Safe. -/
  | illFormedConfig
  deriving DecidableEq, Repr

/-! ## Micro-operations -/

/-- One step of a micro-sequence (R8, R12): a trace event or a state write of an operation's pseudocode, or a label or test of
the Node Loop's poll, which is neither. -/
inductive Micro where
  /-- Wait(t) (R104). -/
  | wait (t : Nat)
  /-- CSN <- level (R22). -/
  | csn (level : Bool)
  /-- CE <- level (R22). -/
  | ce (level : Bool)
  /-- Xfer(b) (R101). -/
  | send (b : Byte)
  /-- Xfer((TMP & keep) | set) (R144). -/
  | sendRmw (keep set : Byte)
  /-- TMP <- the value the transfer, the frame or the read has returned (R16, R122, R141, R144, R154, R214). -/
  | storeTmp
  /-- RESULT <- TMP (R122, R141). -/
  | resultTmp
  /-- RESULT <- 0x01 or 0x00 by the status byte in TMP (R154). -/
  | resultSending
  /-- MODE <- m (R146, R149). -/
  | setMode (m : Mode)
  /-- IRQ_EN <- v (R183, R184, R193). -/
  | setIrqEn (v : Bool)
  /-- RXCNT <- 0 (R185, R191). -/
  | clearCount
  /-- ABUF[i] <- v (R186). -/
  | setAbuf (i : Fin addrLen) (v : Byte)
  /-- TXBUF[i] <- v (R187). -/
  | setTxbuf (i : Fin payloadLen) (v : Byte)
  /-- raise Fault(k) (R230). -/
  | raise (k : Fault)
  /-- RXBUF[i] <- TMP (R216). -/
  | storeRx (i : Fin payloadLen)
  /-- DbgOut(TMP) (R222). -/
  | echo
  /-- if TMP == SENTINEL: CountUp() (R216, R224). -/
  | count
  /-- RUNNING <- v (R188, R194). -/
  | setRunning (v : Bool)
  /-- nlpc <- n (R188, R191, R193, R194). -/
  | setNlpc (n : Nlpc)
  /-- POLLCNT <- 0 (R188, R191, R193, R194). -/
  | clearPolls
  /-- The label `poll:`, reached (R192; log entry 9). -/
  | poll
  /-- The test after a poll's status frame, with POLLCNT <- POLLCNT + 1 and the jump it makes while the send goes on (R192;
  log entry 9). -/
  | pollTest
  deriving DecidableEq, Repr

/-! ## The state -/

/-- The state of RFSEQ (R10), its configuration, its peer, and the model's own fields. -/
structure State where
  /-- The configuration (R5); no step changes it. -/
  cfg : Params
  /-- SEQ (R11). -/
  seq : Seq
  /-- upc (R12). -/
  upc : Nat
  /-- RUNNING (R13). -/
  running : Bool
  /-- nlpc (R13). -/
  nlpc : Nlpc
  /-- POLLCNT (R13). -/
  pollcnt : Nat
  /-- OP (R14). -/
  op : Byte
  /-- ARG_ADDR (R14). -/
  argAddr : Addr
  /-- ARG_VAL (R14). -/
  argVal : Byte
  /-- RESULT (R15). -/
  result : Byte
  /-- TMP (R16). -/
  tmp : Byte
  /-- ABUF (R17). -/
  abuf : DeviceAddress
  /-- TXBUF (R18). -/
  txbuf : Payload
  /-- RXBUF (R19). -/
  rxbuf : Payload
  /-- RXCNT (R20). -/
  rxcnt : Counter
  /-- MODE (R21). -/
  mode : Mode
  /-- CSN, the chip-select pin, true for 1 (R22). -/
  csn : Bool
  /-- CE, the chip-enable pin, true for 1 (R22). -/
  ce : Bool
  /-- IRQ_EN (R23). -/
  irqEn : Bool
  /-- IRQ_PEND (R23). -/
  irqPend : Bool
  /-- IRQ_PREV (R23). -/
  irqPrev : Bool
  /-- FAULT, four sticky bits (R24). -/
  fault : BitVec 4
  /-- The peer (R55, R56). -/
  peer : Peer
  /-- The wire trace since reset, oldest first (R8): the model's own, what an observer at the pins has seen. -/
  trace : List Event
  /-- The rest of the micro-sequence in progress, the next micro-operation first; empty when SEQ = Idle (R12): the model's own. -/
  todo : List Micro
  /-- The byte the last transfer returned, the `r` of R8's Xfer, before a rule stores it (R101): the model's own. -/
  rx : Byte
  /-- The byte of an exchange in progress (R101, R103): the model's own. -/
  busOut : Option Byte
  /-- The level of the IRQ_N pin under the oracle peer (R210, R252): the model's own input. -/
  irqN : Bool
  /-- The host's coming moves, next first; empty: it does nothing. -/
  host : List HostMove
  /-- The environment's coming moves, next first; empty: nothing changes. -/
  env : List EnvMove
  /-- How the coming transfers end, next first; empty: each completes with a free byte. -/
  answers : List Answer
  /-- How the coming debug handshakes end, next first; empty: the channel is ready. -/
  dbg : List Ready
  /-- When the host stops to look inside a micro-sequence: how many micro-operations to each look from the one before it;
  empty: at its end only (R27, R250, R274; log entry 7). -/
  looks : List Nat
  /-- How many free bytes have been drawn. -/
  free : Nat
  deriving DecidableEq, Repr

/-- The peer of State.reset: the oracle. The reference peer's fields hold R56's default ST_LOW and the empty contents of the
worked programs P1 and P4; the block's reset does not touch the peer (R33, R251).
DESIGN CHOICE, unsafe for a claim about the reference peer that rests on them (log entry 13). -/
def Peer.initial : Peer where
  kind := .oracle
  mem := []
  st := 0
  stLow := 0x0E
  txf := []
  rxf := []
  cmd := none
  idx := 0
  collected := []
  pulse := false

/-- The machine right after reset (R33, R250), with the default parameters, an oracle peer, IRQ_N high and nothing coming
from outside. TMP, RXBUF and rx are free values (log entry 4); the level of IRQ_N is log entry 5. -/
def State.reset : State where
  cfg := Params.default
  seq := .idle
  upc := 0
  running := false
  nlpc := .check
  pollcnt := 0
  op := 0
  argAddr := 0
  argVal := 0
  result := 0
  tmp := Config.freeByte 0
  abuf := #v[0, 0, 0, 0, 0]
  txbuf := Params.default.txInit
  rxbuf := #v[Config.freeByte 1, Config.freeByte 2, Config.freeByte 3, Config.freeByte 4,
    Config.freeByte 5, Config.freeByte 6, Config.freeByte 7, Config.freeByte 8]
  rxcnt := 0
  mode := .standby
  csn := true
  ce := false
  irqEn := false
  irqPend := false
  irqPrev := true
  fault := 0
  peer := Peer.initial
  trace := []
  todo := []
  rx := Config.freeByte 9
  busOut := none
  irqN := true
  host := []
  env := []
  answers := []
  dbg := []
  looks := []
  free := 10

end Sys2Proof.Machine
end

