-- ==== Sys2Proof/Machine/Flags.lean ====
section
/-! DEFINITION. Every flag computation: the FAULT bits (R24, R230), the status tests (R6, R26, R154), the falling edge (R212),
the received-byte counter (R20, R224). -/

namespace Sys2Proof.Machine

/-- M_ST_ALL (R6). -/
def mStAll (p : Params) : Byte := p.mRxDr ||| p.mTxDs ||| p.mMaxRt

/-- M_ST_DONE (R6). -/
def mStDone (p : Params) : Byte := p.mTxDs ||| p.mMaxRt

/-- M_MASK_TXIRQ (R6). -/
def mMaskTxIrq (p : Params) : Byte := p.mMaskTxDs ||| p.mMaskMaxRt

/-- The bit of FAULT a fault sets (R24, R230). -/
def faultBit : Fault → BitVec 4
  | .badOp => 0b0001
  | .badMode => 0b0010
  | .cntOverrun => 0b0100
  | .pollTimeout => 0b1000

/-- The answer of IsSendingCore for a status byte (R154): neither data-sent nor max-retries is set. -/
def stillSending (p : Params) (status : Byte) : Bool := status &&& mStDone p == 0

/-- The RESULT byte of IS_SENDING for a status byte (R154). -/
def sendingResult (p : Params) (status : Byte) : Byte := if stillSending p status then 0x01 else 0x00

/-- IRQ_PEND after a new sample of IRQ_N (R212): a falling edge sets it when the interrupt is enabled or edges are latched. -/
def pendAfterSample (pend prev level en latch : Bool) : Bool :=
  pend || (prev && !level && (en || latch))

/-- RXCNT can still be raised (R224). -/
def countHasRoom (rxcnt : Counter) : Bool := decide (rxcnt.toNat < payloadLen)

/-- The Node Loop's poll has reached MAX_POLL (R192, R194); never when it is unbounded. -/
def pollLimitReached (p : Params) (polls : Nat) : Bool :=
  match p.maxPoll with
  | none => false
  | some n => decide (n ≤ polls)

end Sys2Proof.Machine
end

