-- ==== Sys2Proof/Machine/Operands.lean ====
section
/-! DEFINITION. Every operand form: command bytes (R76, R77), read-modify-write data (R144), buffer indices (R77, R186, R187). -/

namespace Sys2Proof.Machine

/-- The command byte of a register read (R76, R109). -/
def readCommand (p : Params) (a : Addr) : Byte := registerByte p.opcRRegister a

/-- The command byte of a register write (R76, R109). -/
def writeCommand (p : Params) (a : Addr) : Byte := registerByte p.opcWRegister a

/-- The byte a read-modify-write sends: the bits of `keep` as read, then `set` (R144). -/
def rmwByte (tmp keep set : Byte) : Byte := (tmp &&& keep) ||| set

/-- A buffer index of ABUF, taken from ARG_ADDR as an unsigned number (R77); none outside the buffer (R74, R186). -/
def abufIndex (a : Addr) : Option (Fin addrLen) :=
  if h : a.toNat < addrLen then some ⟨a.toNat, h⟩ else none

/-- A buffer index of TXBUF, taken from ARG_ADDR as an unsigned number (R77); none outside the buffer (R74, R187). -/
def txbufIndex (a : Addr) : Option (Fin payloadLen) :=
  if h : a.toNat < payloadLen then some ⟨a.toNat, h⟩ else none

end Sys2Proof.Machine
end

