-- ==== Sys2Proof/Machine/Memory.lean ====
section
/-! DEFINITION. The peer's register bytes as memory in one canonical form (R40, R56): reading, writing, the canonical form. -/

namespace Sys2Proof.Machine

/-- What an unlisted cell reads as. No source gives the peer's reset contents (R28, R251); 0x00 is the content the worked
programs P1 and P4 start from. DESIGN CHOICE, unsafe for a claim about the reference peer (log entry 15). -/
def memBackground : Byte := 0

/-- Cells of the register file: 32 addresses of five bytes (R56). -/
def memSize : Nat := 160

/-- The cell of PR[a][k] (R56). -/
def regCell (a : Addr) (k : Nat) : Nat := 5 * a.toNat + k

/-- Reading one byte. -/
def Memory.read : Memory → Nat → Byte
  | [], _ => memBackground
  | (k, v) :: rest, a => if k = a then v else Memory.read rest a

/-- Writing one byte, keeping the canonical form: writing what an unlisted cell reads as removes the entry. -/
def Memory.write : Memory → Nat → Byte → Memory
  | [], a, v => if v = memBackground then [] else [(a, v)]
  | (k, w) :: rest, a, v =>
    if a < k then (if v = memBackground then (k, w) :: rest else (a, v) :: (k, w) :: rest)
    else if a = k then (if v = memBackground then rest else (a, v) :: rest)
    else (k, w) :: Memory.write rest a v

/-- Cells strictly rising from `lo`, inside the register file, none equal to the background. -/
def Memory.wfFrom (lo : Nat) : Memory → Bool
  | [] => true
  | (k, v) :: rest => decide (lo ≤ k) && decide (k < memSize) && !(v == memBackground) && Memory.wfFrom (k + 1) rest

/-- The canonical form. -/
def Memory.wf (m : Memory) : Bool := Memory.wfFrom 0 m

end Sys2Proof.Machine
end

