-- ==== Sys2Proof/Machine/Peer.lean ====
section
/-! DEFINITION. The peer's side of the bus and of the radio: the reference peer of R56 to R63, and the oracle (R31, R55), which
determines nothing. -/

namespace Sys2Proof.Machine

/-- The status byte of the reference peer (R56). -/
def Peer.status (q : Peer) : Byte := q.st ||| q.stLow

/-- The reference peer's configuration register (R28, R61). -/
def Peer.config (p : Params) (q : Peer) : Byte := Memory.read q.mem (regCell p.regConfig 0)

/-- The payloads a FIFO of the reference peer can hold (R56). -/
def fifoDepth : Nat := 3

/-- M_MASK_RX_DR, the configuration bit that masks receive-data-ready in the reference peer (R62, G7). -/
def mMaskRxDr : Byte := 0x40

/-- A flag that is set and not masked pulls the line (R62). -/
def pullsLine (st flag config mask : Byte) : Bool := !(st &&& flag == 0) && config &&& mask == 0

/-- The level of IRQ_N the reference peer drives (R62). -/
def Peer.line (p : Params) (q : Peer) : Bool :=
  !(pullsLine q.st p.mRxDr (q.config p) mMaskRxDr
    || pullsLine q.st p.mTxDs (q.config p) p.mMaskTxDs
    || pullsLine q.st p.mMaxRt (q.config p) p.mMaskMaxRt)

/-- A payload from exactly eight bytes (R60). -/
def payloadOfBytes : List Byte → Option Payload
  | [b0, b1, b2, b3, b4, b5, b6, b7] => some #v[b0, b1, b2, b3, b4, b5, b6, b7]
  | _ => none

/-- From here on the peer is unconstrained: where the reference peer's outcome is unspecified (R60, U5, U12).
DESIGN CHOICE, safe (log entry 14). -/
def Peer.unconstrained (q : Peer) : Peer := { q with kind := .oracle }

/-! ## Frames (R57 to R60) -/

/-- The command byte of a frame: the reply is the status byte; a flush acts at once (R57, R60). -/
def Peer.command (p : Params) (b : Byte) (q : Peer) : Peer :=
  let q := { q with cmd := decodeWireCmd p b, idx := 1 }
  match decodeWireCmd p b with
  | some .flushTx => { q with txf := [] }
  | some .flushRx => { q with rxf := [] }
  | _ => q

/-- The reply to the k-th transfer after the command byte (R58, R59, R60); none where it is unspecified. -/
def Peer.dataReply (p : Params) (q : Peer) (k : Nat) : Option Byte :=
  match q.cmd with
  | some (.readReg a) =>
    if a = p.regStatus then some q.status
    else if k ≤ 5 then some (Memory.read q.mem (regCell a (k - 1)))
    else none
  | some .readRxPayload => q.rxf.head?.bind fun pl => pl.toList[k - 1]?
  | some (.writeReg _) => none
  | some .writeTxPayload => none
  | some .flushTx => none
  | some .flushRx => none
  | some .nop => none
  | none => none

/-- What the k-th transfer after the command byte changes (R58 to R60). -/
def Peer.dataEffect (p : Params) (b : Byte) (q : Peer) (k : Nat) : Peer :=
  match q.cmd with
  | some (.writeReg a) =>
    if a = p.regStatus ∧ k = 1 then { q with st := q.st &&& ~~~(b &&& mStAll p) }
    else if k ≤ 5 then { q with mem := Memory.write q.mem (regCell a (k - 1)) b }
    else q
  | some .writeTxPayload => { q with collected := q.collected ++ [b] }
  | some (.readReg _) => q
  | some .readRxPayload => q
  | some .flushTx => q
  | some .flushRx => q
  | some .nop => q
  | none => q

/-- One transfer as the peer takes it: its reply (none: nothing in the spec determines it) and its state after.
With no frame open it is ignored (R57). -/
def Peer.transfer (p : Params) (csn : Bool) (b : Byte) (q : Peer) : Option Byte × Peer :=
  match q.kind with
  | .oracle => (none, q)
  | .reference =>
    if csn then (none, q)
    else if q.idx = 0 then (some q.status, q.command p b)
    else (q.dataReply p q.idx, { q.dataEffect p b q.idx with idx := q.idx + 1 })

/-- The frame is closed. -/
def Peer.closed (q : Peer) : Peer := { q with cmd := none, idx := 0, collected := [] }

/-- CSN(0): a frame opens (R57). CSN(1): the end-of-frame effects, then the frame is closed (R57, R60). -/
def Peer.onCsn (level : Bool) (q : Peer) : Peer :=
  match q.kind with
  | .oracle => q
  | .reference =>
    if level = false then q.closed
    else
      match q.cmd with
      | some .writeTxPayload =>
        match payloadOfBytes q.collected with
        | some pl => if q.txf.length < fifoDepth then { q with txf := q.txf ++ [pl] }.closed else q.closed.unconstrained
        | none => q.closed.unconstrained
      | some .readRxPayload => { q with rxf := q.rxf.tail }.closed
      | some (.readReg _) => q.closed
      | some (.writeReg _) => q.closed
      | some .flushTx => q.closed
      | some .flushRx => q.closed
      | some .nop => q.closed
      | none => q.closed

/-! ## Radio events (R61) -/

/-- The radio is powered up and in transmit configuration (R28, R61). -/
def Peer.transmits (p : Params) (q : Peer) : Bool := !(q.config p &&& p.mPwrUp == 0) && q.config p &&& p.mPrimRx == 0

/-- Trigger: at a CE(1) event with the radio powered up, in transmit, and a payload waiting (R61). -/
def Peer.onCe (p : Params) (level : Bool) (q : Peer) : Peer :=
  match q.kind with
  | .oracle => q
  | .reference => if level && q.transmits p && !q.txf.isEmpty then { q with pulse := true } else q

/-- CE left as it is at the end of an operation, of a cycle or of the handler: left high over a radio in transmit configuration,
nothing bounds how long it stays high, so the peer is unconstrained (R263, U12; log entry 28). -/
def Peer.leftWithCe (p : Params) (ce : Bool) (q : Peer) : Peer := if ce && q.transmits p then q.unconstrained else q

/-- Deliver(pl): enabled when CE = 1, the radio is powered up and in receive, and RXF is not full (R61). -/
def Peer.deliver (p : Params) (ce : Bool) (pl : Payload) (q : Peer) : Peer :=
  match q.kind with
  | .oracle => q
  | .reference =>
    if ce && !(q.config p &&& p.mPrimRx == 0) && !(q.config p &&& p.mPwrUp == 0) && decide (q.rxf.length < fifoDepth)
    then { q with rxf := q.rxf ++ [pl], st := q.st ||| p.mRxDr } else q

/-- SendDone(ok): enabled when pulse = 1 (R61). Where a flush has emptied TXF since the trigger there is no head to remove: the
spec does not say what SendDone(true) then does; here it removes nothing, ends the pulse and sets data-sent all the same.
DESIGN CHOICE, unsafe for a claim about that case (log entry 29). -/
def Peer.sendDone (p : Params) (ok : Bool) (q : Peer) : Peer :=
  match q.kind with
  | .oracle => q
  | .reference =>
    if q.pulse then
      if ok then { q with pulse := false, txf := q.txf.tail, st := q.st ||| p.mTxDs }
      else { q with pulse := false, st := q.st ||| p.mMaxRt }
    else q

end Sys2Proof.Machine
end

