-- ==== Sys2Proof/Machine/Ops.lean ====
section
/-! DEFINITION. The named operations over the state: pins and trace (R8), sampling IRQ_N (R212), the transfer (R101), the debug
handshake (R222), faults (R230), acceptance of a command (R72), handler entry (R215), the end of a sequence, which is also the
handler's return (R72, R218), reset (R250). -/

namespace Sys2Proof.Machine

/-! ## Derived bits -/

/-- IN_HANDLER (R11). -/
def State.inHandler (s : State) : Bool := s.seq == .handler

/-- BUSY (R11). -/
def State.busy (s : State) : Bool := !(s.seq == .idle) || s.running

/-- An enabled interrupt is pending (R72, R213). -/
def State.irqDue (s : State) : Bool := s.irqEn && s.irqPend

/-- cmd_ready (R72). -/
def State.ready (s : State) : Bool := s.seq == .idle && !s.running && !s.irqDue

/-! ## The trace and the pins -/

/-- Append an event to the wire trace (R8). -/
def emit (e : Event) (s : State) : State := { s with trace := s.trace ++ [e] }

/-- The level of IRQ_N now: under the reference peer R62's, under the oracle the input pin's. -/
def irqLine (s : State) : Bool :=
  match s.peer.kind with
  | .oracle => s.irqN
  | .reference => s.peer.line s.cfg

/-- One new sample of IRQ_N (R212). -/
def sample (s : State) : State :=
  { s with
    irqPend := pendAfterSample s.irqPend s.irqPrev (irqLine s) s.irqEn s.cfg.irqLatch
    irqPrev := irqLine s }

/-- The peer changes, and where it stops being the reference peer the IRQ_N pin keeps its level (log entry 14). -/
def setPeer (q : Peer) (s : State) : State := { s with peer := q, irqN := irqLine s }

/-- One move of the environment (R61, R212). -/
def applyEnv (m : EnvMove) (s : State) : State :=
  match m with
  | .quiet => s
  | .irq level => { s with irqN := level }
  | .deliver pl => { s with peer := s.peer.deliver s.cfg s.ce pl }
  | .sendDone ok => { s with peer := s.peer.sendDone s.cfg ok }

/-- Time passes: the environment makes its next move, if it has one, and IRQ_N is sampled (R212; log entry 19). -/
def elapse (s : State) : State :=
  match s.env with
  | [] => sample s
  | m :: rest => sample (applyEnv m { s with env := rest })

/-- Drive CSN and append the event (R8, R22). -/
def driveCsn (level : Bool) (s : State) : State :=
  emit (.csn level) (setPeer (s.peer.onCsn level) { s with csn := level })

/-- Drive CE and append the event (R8, R22). -/
def driveCe (level : Bool) (s : State) : State :=
  emit (.ce level) { s with ce := level, peer := s.peer.onCe s.cfg level }

/-! ## The transfer -/

/-- A transfer has completed with the byte received, or is still in progress. -/
inductive Transfer where
  | done (r : Byte) (s : State)
  | held (s : State)

/-- A completed exchange: the byte received is the peer's reply where there is one, else `drawn`; it stands in rx (R101). -/
def exchange (b drawn : Byte) (s : State) : Transfer :=
  let out := s.peer.transfer s.cfg s.csn b
  let r := out.1.getD drawn
  .done r (emit (.x b r) { s with busOut := none, rx := r, peer := out.2 })

/-- Xfer(b) (R101, R103): the answers script says whether it completes; with nothing scripted it completes. -/
def xfer (b : Byte) (s : State) : Transfer :=
  match s.answers with
  | .byte d :: rest => exchange b d { s with answers := rest }
  | .late :: rest => .held { s with busOut := some b, answers := rest }
  | .never :: _ => .held { s with busOut := some b }
  | [] => exchange b (Config.freeByte s.free) { s with free := s.free + 1 }

/-! ## Faults and the counter -/

/-- raise Fault(k) (R230): the bit is set and nothing else happens. -/
def raise (k : Fault) (s : State) : State := { s with fault := s.fault ||| faultBit k }

/-- CountUp() (R224). -/
def countUp (s : State) : State :=
  if countHasRoom s.rxcnt then { s with rxcnt := s.rxcnt + 1 } else raise .cntOverrun s

/-! ## Commands -/

/-- Acceptance of a command (R72). -/
def accept (op : Byte) (addr : Addr) (val : Byte) (s : State) : State :=
  { s with op := op, argAddr := addr, argVal := val, seq := .op, upc := 0 }

/-! ## The interrupt -/

/-- Handler entry with the handler's step 1 (R214, R215): nothing is saved, the handler starts at its one fixed place, and IRQ_EN
goes to 0 before anything else happens, so both are one instant and upc has counted the one write (log entry 23). -/
def enterHandler (s : State) : State := { s with seq := .handler, irqPend := false, irqEn := false, upc := 1 }

/-! ## The end of a sequence -/

/-- SEQ <- Idle ; upc <- 0: the last step of an operation (R72), of a Node Loop cycle (R193, R194) and of the handler, whose
return restores nothing (R218). -/
def toIdle (s : State) : State :=
  setPeer (s.peer.leftWithCe s.cfg s.ce) { s with seq := .idle, upc := 0, todo := [] }

/-! ## Reset -/

/-- RST (R33, R250, R251): the block's state takes its reset values, TMP, RXBUF and rx fresh free values; the peer, the
configuration and the outside world stay. A frame cut short leaves the peer unconstrained (U5; log entry 14). The scripts of the
waits stay as they are, so after RST out of a wait that never ends the next transfer or debug handshake, the same entry at its head,
never ends either; the spec does not say. DESIGN CHOICE, unsafe (log entry 33). -/
def resetBlock (s : State) : State :=
  let line := irqLine s
  { s with
    seq := .idle, upc := 0, running := false, nlpc := .check, pollcnt := 0
    op := 0, argAddr := 0, argVal := 0, result := 0
    tmp := Config.freeByte s.free
    abuf := #v[0, 0, 0, 0, 0]
    txbuf := s.cfg.txInit
    rxbuf := #v[Config.freeByte (s.free + 1), Config.freeByte (s.free + 2), Config.freeByte (s.free + 3),
      Config.freeByte (s.free + 4), Config.freeByte (s.free + 5), Config.freeByte (s.free + 6),
      Config.freeByte (s.free + 7), Config.freeByte (s.free + 8)]
    rxcnt := 0, mode := .standby, csn := true, ce := false
    irqEn := false, irqPend := false, irqPrev := line, fault := 0
    peer := if s.csn then s.peer else s.peer.unconstrained
    trace := [], todo := [], rx := Config.freeByte (s.free + 9), busOut := none, irqN := line, free := s.free + 10 }

end Sys2Proof.Machine
end

