-- ==== Sys2Proof/Machine/Frames.lean ====
section
/-! DEFINITION. The frame primitives (R106 to R108), the frames (R79, R109) and the helpers of Transceiver Control (R144, R145,
R150), as micro-sequences. -/

namespace Sys2Proof.Machine

/-- FrameBegin() (R106). -/
def frameBegin (p : Params) : List Micro := [.wait p.tSettle, .csn false, .wait p.tSettle]

/-- FrameByte(b); the byte it returns is the last one received until the next transfer (R107). -/
def frameByte (p : Params) (b : Byte) : List Micro := [.send b, .wait p.tSettle]

/-- FrameByte((TMP & keep) | set), the received byte discarded (R107, R144). -/
def frameRmw (p : Params) (keep set : Byte) : List Micro := [.sendRmw keep set, .wait p.tSettle]

/-- FrameEnd() (R108). -/
def frameEnd : List Micro := [.csn true]

/-- The bytes of a multi-byte field, byte 0 first (R42, R107). -/
def frameBytes (p : Params) (bs : List Byte) : List Micro := (bs.map (frameByte p)).flatten

/-- RegRead(a); it returns the byte of its second transfer (R109). -/
def regRead (p : Params) (a : Addr) : List Micro :=
  frameBegin p ++ frameByte p (readCommand p a) ++ frameByte p p.opcNop ++ frameEnd

/-- RegWrite(a, v) (R109). -/
def regWrite (p : Params) (a : Addr) (v : Byte) : List Micro :=
  frameBegin p ++ frameByte p (writeCommand p a) ++ frameByte p v ++ frameEnd

/-- RegWrite(a, (TMP & keep) | set) (R109, R144). -/
def regWriteRmw (p : Params) (a : Addr) (keep set : Byte) : List Micro :=
  frameBegin p ++ frameByte p (writeCommand p a) ++ frameRmw p keep set ++ frameEnd

/-- AddrWrite(a, b) (R109). -/
def addrWrite (p : Params) (a : Addr) (b : DeviceAddress) : List Micro :=
  frameBegin p ++ frameByte p (writeCommand p a) ++ frameBytes p b.toList ++ frameEnd

/-- StatusFrame(); it returns the byte of its one transfer (R109). -/
def statusFrame (p : Params) : List Micro := frameBegin p ++ frameByte p p.opcNop ++ frameEnd

/-- FlushFrame(opc) (R109). -/
def flushFrame (p : Params) (opc : Byte) : List Micro := frameBegin p ++ frameByte p opc ++ frameEnd

/-- TxPayloadFrame(pl) (R109). -/
def txPayloadFrame (p : Params) (pl : Payload) : List Micro :=
  frameBegin p ++ frameByte p p.opcWTxPayload ++ frameBytes p pl.toList ++ frameEnd

/-- The handler's work on the i-th byte: transfer, settle wait, TMP, store, echo, count (R214, R216). -/
def captureByte (p : Params) (i : Fin payloadLen) : List Micro :=
  frameByte p p.opcNop ++ [.storeTmp, .storeRx i, .echo, .count]

/-- The handler's frame, RxPayload (R79, R216). -/
def rxPayloadFrame (p : Params) : List Micro :=
  frameBegin p ++ frameByte p p.opcRRxPayload
    ++ captureByte p 0 ++ captureByte p 1 ++ captureByte p 2 ++ captureByte p 3
    ++ captureByte p 4 ++ captureByte p 5 ++ captureByte p 6 ++ captureByte p 7
    ++ frameEnd

/-- CfgRmw(keep, set) (R144). -/
def cfgRmw (p : Params) (keep set : Byte) : List Micro :=
  regRead p p.regConfig ++ [.storeTmp] ++ regWriteRmw p p.regConfig keep set

/-- ClearFlags(m) (R145). -/
def clearFlags (p : Params) (m : Byte) : List Micro := regWrite p p.regStatus m

/-- MaskTxIrq() (R150). -/
def maskTxIrqOn (p : Params) : List Micro := cfgRmw p 0xFF (mMaskTxIrq p)

end Sys2Proof.Machine
end

