-- ==== Sys2Proof/Machine/Sequences.lean ====
section
/-! DEFINITION. The micro-sequences that others include by `call` or jump to (R8), and the handler's. -/

namespace Sys2Proof.Machine

/-! ## Transceiver Control -/

/-- ENTER_TX up to and including MODE <- Transmitting (R146, R147, R151). -/
def enterTxBody (p : Params) : List Micro :=
  [.ce false]
    ++ cfgRmw p (~~~p.mPrimRx) 0x00
    ++ cfgRmw p 0xFF p.mPwrUp
    ++ flushFrame p p.opcFlushTx
    ++ clearFlags p (mStAll p)
    ++ maskTxIrqOn p
    ++ [.wait p.tCfg, .setMode .transmitting]

/-- ENTER_RX up to and including MODE <- Listening (R149, R151). -/
def enterRxBody (p : Params) : List Micro :=
  [.ce false]
    ++ cfgRmw p 0xFF (p.mPwrUp ||| p.mPrimRx)
    ++ flushFrame p p.opcFlushRx
    ++ clearFlags p (mStAll p)
    ++ maskTxIrqOn p
    ++ [.ce true, .wait p.tCfg, .setMode .listening]

/-- SEND once its mode test has passed (R152, R153). -/
def sendBody (p : Params) (pl : Payload) : List Micro :=
  flushFrame p p.opcFlushTx ++ txPayloadFrame p pl
    ++ [.wait p.tPrePulse, .ce true, .wait p.tCePulse, .ce false]

/-- RESET_STATUS (R155). -/
def resetStatusBody (p : Params) : List Micro := clearFlags p (mStAll p)

/-! ## The Node Loop's transmit cycle -/

/-- The cycle's first part, up to the label `poll:` (R191). SEND is included after MODE <- Transmitting, so its mode test has
passed. -/
def cycleProgram (p : Params) (pl : Payload) : List Micro :=
  [.clearCount] ++ enterTxBody p ++ sendBody p pl ++ [.clearPolls, .setNlpc .poll, .poll]

/-- From the label `poll:`: one poll, its test, and the cycle's third part, which follows when the poll has found the send
finished (R192, R193). -/
def pollProgram (p : Params) : List Micro :=
  statusFrame p ++ [.storeTmp, .pollTest]
    ++ resetStatusBody p ++ enterRxBody p ++ [.ce true, .setIrqEn true, .setNlpc .check, .clearPolls]

/-- From the label `timeout:` (R194). -/
def timeoutProgram : List Micro := [.raise .pollTimeout, .setRunning false, .setNlpc .check, .clearPolls]

/-! ## The handler -/

/-- The handler's steps 2 to 5, after entry and step 1 (R214). -/
def captureProgram (p : Params) : List Micro := [.ce false] ++ rxPayloadFrame p ++ clearFlags p p.mRxDr

end Sys2Proof.Machine
end

