-- ==== Sys2Proof/Machine/Micro.lean ====
section
/-! DEFINITION. What a micro-operation does (R8, R12), and running a sequence of them. -/

namespace Sys2Proof.Machine

/-- After one micro-operation the sequence goes on; or the micro-operation has not ended (R103, R222); or the sequence goes on
at a label. -/
inductive Flow where
  | more (s : State)
  | hold (s : State)
  | jump (s : State) (target : List Micro)

/-- DbgOut(b) (R222): b is presented when the channel is ready; with nothing scripted it is. -/
def dbgOut (b : Byte) (s : State) : Flow :=
  match s.dbg with
  | .ready :: rest => .more (emit (.d b) { s with dbg := rest })
  | .late :: rest => .hold { s with dbg := rest }
  | .never :: _ => .hold s
  | [] => .more (emit (.d b) s)

/-- Xfer(b) inside a sequence (R101, R103). -/
def transfer (b : Byte) (s : State) : Flow :=
  match xfer b s with
  | .done _ t => .more t
  | .held t => .hold t

/-- The test after a poll: finished, the cycle goes on; still sending, POLLCNT counts the poll and the sequence goes to
`timeout:` when MAX_POLL is reached, else to `poll:` (R192, R194). -/
def pollTest (s : State) : Flow :=
  if stillSending s.cfg s.tmp then
    .jump { s with pollcnt := s.pollcnt + 1 }
      (if pollLimitReached s.cfg (s.pollcnt + 1) then timeoutProgram else pollProgram s.cfg)
  else .more s

/-- What a micro-operation does. -/
def effect : Micro → State → Flow
  | .wait t, s => .more (emit (.w t) s)
  | .csn level, s => .more (driveCsn level s)
  | .ce level, s => .more (driveCe level s)
  | .send b, s => transfer b s
  | .sendRmw keep set, s => transfer (rmwByte s.tmp keep set) s
  | .storeTmp, s => .more { s with tmp := s.rx }
  | .resultTmp, s => .more { s with result := s.tmp }
  | .resultSending, s => .more { s with result := sendingResult s.cfg s.tmp }
  | .setMode m, s => .more { s with mode := m }
  | .setIrqEn v, s => .more { s with irqEn := v }
  | .clearCount, s => .more { s with rxcnt := 0 }
  | .setAbuf i v, s => .more { s with abuf := s.abuf.set i v }
  | .setTxbuf i v, s => .more { s with txbuf := s.txbuf.set i v }
  | .raise k, s => .more (raise k s)
  | .storeRx i, s => .more { s with rxbuf := s.rxbuf.set i s.tmp }
  | .echo, s => dbgOut s.tmp s
  | .count, s => .more (if s.tmp = Config.sentinel then countUp s else s)
  | .setRunning v, s => .more { s with running := v }
  | .setNlpc n, s => .more { s with nlpc := n }
  | .clearPolls, s => .more { s with pollcnt := 0 }
  | .poll, s => .jump s (pollProgram s.cfg)
  | .pollTest, s => pollTest s

/-- How many trace events and state writes a micro-operation is, which is what upc counts (R12): one, but for a label, a test
that finds the send finished, and a captured byte that is not counted, which are none. -/
def microSteps (p : Params) (tmp : Byte) : Micro → Nat
  | .poll => 0
  | .pollTest => if stillSending p tmp then 1 else 0
  | .count => if tmp = Config.sentinel then 1 else 0
  | .wait _ => 1
  | .csn _ => 1
  | .ce _ => 1
  | .send _ => 1
  | .sendRmw _ _ => 1
  | .storeTmp => 1
  | .resultTmp => 1
  | .resultSending => 1
  | .setMode _ => 1
  | .setIrqEn _ => 1
  | .clearCount => 1
  | .setAbuf _ _ => 1
  | .setTxbuf _ _ => 1
  | .raise _ => 1
  | .storeRx _ => 1
  | .echo => 1
  | .setRunning _ => 1
  | .setNlpc _ => 1
  | .clearPolls => 1

/-- After a micro-operation: upc has moved on over its n events and writes unless it has not ended, and IRQ_N is sampled
(R12, R212). -/
def afterMicro (n : Nat) : Flow → Flow
  | .more s => .more (sample { s with upc := s.upc + n })
  | .hold s => .hold (sample s)
  | .jump s target => .jump (sample { s with upc := s.upc + n }) target

/-- One micro-operation: time passes, then its effect. -/
def micro (m : Micro) (s : State) : Flow := afterMicro (microSteps s.cfg s.tmp m) (effect m (elapse s))

/-- The host stops to look before the next micro-operation (R27, R274). -/
def lookDue (s : State) : Bool := s.looks.head? == some 0

/-- The host's look has been. -/
def lookDone (s : State) : State := { s with looks := s.looks.tail }

/-- One micro-operation nearer to the host's next look. -/
def towardsLook (s : State) : State :=
  { s with looks := match s.looks with
      | [] => []
      | n :: rest => (n - 1) :: rest }

/-- A run of micro-operations has done them all, or the step ends inside the sequence. -/
inductive Run where
  | finished (s : State)
  | paused (s : State)

/-- The micro-operations of a list in order, until a wait has not ended, the host looks, or the sequence goes on at a label; the
rest stands in todo for the next step (R12, R103; log entries 7 and 9). A look falls before a micro-operation, never after the last
one: that one and the end of the sequence are one instant (log entry 32). -/
def runList : List Micro → State → Run
  | [], s => .finished s
  | m :: ms, s =>
    if lookDue s then .paused { lookDone s with todo := m :: ms }
    else
      match micro m (towardsLook s) with
      | .more t => runList ms t
      | .hold t => .paused { t with todo := m :: ms }
      | .jump t target => .paused { t with todo := target }

/-- Run a micro-sequence to its end, whose last step is SEQ <- Idle ; upc <- 0, or to where the step ends inside it
(R12, R72, R103). No look of the host and no RST falls between the last event or write and SEQ <- Idle. DESIGN CHOICE, unsafe
(log entry 32). -/
def runMicros (ms : List Micro) (s : State) : State :=
  match runList ms s with
  | .finished t => toIdle t
  | .paused t => t

/-- Go on with the micro-sequence in progress (R12). -/
def resume (s : State) : State := runMicros s.todo s

/-- A command (R72): when the block is ready it is accepted and its micro-sequence runs; when it is not, the command waits
and nothing changes (log entry 11). -/
def command (op : Byte) (addr : Addr) (val : Byte) (prog : State → List Micro) (s : State) :
    Host.Outcome State Fault Refusal :=
  if s.ready then .next (runMicros (prog (accept op addr val s)) (accept op addr val s)) else .next s

end Sys2Proof.Machine
end

