-- ==== Sys2Proof/Machine/Capture.lean ====
section
/-! DEFINITION. CAPTURE, the Interrupt Capture Path (R214 to R221). No operation code starts it. -/

namespace Sys2Proof.Machine

/-- The handler, from entry to return or to where the step ends inside it (R214, R215, R218). -/
def capture (s : State) : State := runMicros (captureProgram s.cfg) (enterHandler s)

end Sys2Proof.Machine
end

