-- ==== Sys2Proof/Machine/HostControl.lean ====
section
/-! DEFINITION. The host control operations (R180 to R188) and the reserved codes (R74). -/

namespace Sys2Proof.Machine

/-- CE_SET's micro-sequence (R181). -/
def ceSetProgram (_ : State) : List Micro := [.ce true]

/-- CE_CLR's micro-sequence (R182). -/
def ceClrProgram (_ : State) : List Micro := [.ce false]

/-- IRQ_ON's micro-sequence (R183). -/
def irqOnProgram (_ : State) : List Micro := [.setIrqEn true]

/-- IRQ_OFF's micro-sequence (R184). -/
def irqOffProgram (_ : State) : List Micro := [.setIrqEn false]

/-- CNT_CLR's micro-sequence (R185). -/
def cntClrProgram (_ : State) : List Micro := [.clearCount]

/-- ABUF_WR's micro-sequence (R186): an index outside ABUF only raises BAD_OP. -/
def abufWrProgram (s : State) : List Micro :=
  match abufIndex s.argAddr with
  | some i => [.setAbuf i s.argVal]
  | none => [.raise .badOp]

/-- TXBUF_WR's micro-sequence (R187): an index outside TXBUF only raises BAD_OP. -/
def txbufWrProgram (s : State) : List Micro :=
  match txbufIndex s.argAddr with
  | some i => [.setTxbuf i s.argVal]
  | none => [.raise .badOp]

/-- RUN's micro-sequence (R188). -/
def runProgram (_ : State) : List Micro := [.setRunning true, .setNlpc .check, .clearPolls]

/-- The micro-sequence of a reserved code (R74). -/
def reservedProgram (_ : State) : List Micro := [.raise .badOp]

/-- CE_SET (R181). -/
def execCeSet (addr : Addr) (val : Byte) (s : State) : Host.Outcome State Fault Refusal :=
  command codeCeSet addr val ceSetProgram s

/-- CE_CLR (R182). -/
def execCeClr (addr : Addr) (val : Byte) (s : State) : Host.Outcome State Fault Refusal :=
  command codeCeClr addr val ceClrProgram s

/-- IRQ_ON (R183). -/
def execIrqOn (addr : Addr) (val : Byte) (s : State) : Host.Outcome State Fault Refusal :=
  command codeIrqOn addr val irqOnProgram s

/-- IRQ_OFF (R184). -/
def execIrqOff (addr : Addr) (val : Byte) (s : State) : Host.Outcome State Fault Refusal :=
  command codeIrqOff addr val irqOffProgram s

/-- CNT_CLR (R185). -/
def execCntClr (addr : Addr) (val : Byte) (s : State) : Host.Outcome State Fault Refusal :=
  command codeCntClr addr val cntClrProgram s

/-- ABUF_WR (R186). -/
def execAbufWr (addr : Addr) (val : Byte) (s : State) : Host.Outcome State Fault Refusal :=
  command codeAbufWr addr val abufWrProgram s

/-- TXBUF_WR (R187). -/
def execTxbufWr (addr : Addr) (val : Byte) (s : State) : Host.Outcome State Fault Refusal :=
  command codeTxbufWr addr val txbufWrProgram s

/-- RUN (R188). -/
def execRun (addr : Addr) (val : Byte) (s : State) : Host.Outcome State Fault Refusal :=
  command codeRun addr val runProgram s

/-- A command with a reserved code (R74). -/
def execReserved (op : Byte) (addr : Addr) (val : Byte) (s : State) : Host.Outcome State Fault Refusal :=
  command op addr val reservedProgram s

end Sys2Proof.Machine
end

