-- ==== Sys2Proof/Machine/RegisterAccess.lean ====
section
/-! DEFINITION. The Register Access Layer: RDREG, WRREG, WRADDR (R120 to R126). -/

namespace Sys2Proof.Machine

/-- RDREG's micro-sequence (R122). -/
def rdregProgram (s : State) : List Micro := regRead s.cfg s.argAddr ++ [.storeTmp, .resultTmp]

/-- WRREG's micro-sequence (R123). -/
def wrregProgram (s : State) : List Micro := regWrite s.cfg s.argAddr s.argVal

/-- WRADDR's micro-sequence (R124). -/
def wraddrProgram (s : State) : List Micro := addrWrite s.cfg s.argAddr s.abuf

/-- RDREG (R122). -/
def execRdreg (addr : Addr) (val : Byte) (s : State) : Host.Outcome State Fault Refusal :=
  command codeRdreg addr val rdregProgram s

/-- WRREG (R123). -/
def execWrreg (addr : Addr) (val : Byte) (s : State) : Host.Outcome State Fault Refusal :=
  command codeWrreg addr val wrregProgram s

/-- WRADDR (R124). -/
def execWraddr (addr : Addr) (val : Byte) (s : State) : Host.Outcome State Fault Refusal :=
  command codeWraddr addr val wraddrProgram s

end Sys2Proof.Machine
end

