-- ==== Sys2Proof/Machine/TransceiverControl.lean ====
section
/-! DEFINITION. Transceiver Control: status, flushes, mode transitions, SEND, IS_SENDING, RESET_STATUS, CONFIGURE (R140 to R157). -/

namespace Sys2Proof.Machine

/-! ## The micro-sequences -/

/-- GET_STATUS's micro-sequence (R141). -/
def getStatusProgram (s : State) : List Micro := statusFrame s.cfg ++ [.storeTmp, .resultTmp]

/-- FLUSH_TX's micro-sequence (R142). -/
def flushTxProgram (s : State) : List Micro := flushFrame s.cfg s.cfg.opcFlushTx

/-- FLUSH_RX's micro-sequence (R143). -/
def flushRxProgram (s : State) : List Micro := flushFrame s.cfg s.cfg.opcFlushRx

/-- RESET_STATUS's micro-sequence (R155). -/
def resetStatusProgram (s : State) : List Micro := resetStatusBody s.cfg

/-- ENTER_TX's micro-sequence (R146). -/
def enterTxProgram (s : State) : List Micro := enterTxBody s.cfg

/-- ENTER_RX's micro-sequence (R149). -/
def enterRxProgram (s : State) : List Micro := enterRxBody s.cfg

/-- SEND's micro-sequence (R152): outside Transmitting it only raises BAD_MODE. -/
def sendProgram (s : State) : List Micro :=
  if s.mode = .transmitting then sendBody s.cfg s.txbuf else [.raise .badMode]

/-- IS_SENDING's micro-sequence (R154). -/
def isSendingProgram (s : State) : List Micro := statusFrame s.cfg ++ [.storeTmp, .resultSending]

/-- CONFIGURE's micro-sequence (R156). -/
def configureProgram (s : State) : List Micro :=
  regWrite s.cfg s.cfg.regEnRxaddr s.cfg.valEnRxaddr
    ++ regWrite s.cfg s.cfg.regSetupAw s.cfg.valSetupAw
    ++ regWrite s.cfg s.cfg.regRfCh s.cfg.valRfCh
    ++ regWrite s.cfg s.cfg.regRfSetup s.cfg.valRfSetup
    ++ addrWrite s.cfg s.cfg.regRxAddrP0 s.cfg.ownAddr
    ++ addrWrite s.cfg s.cfg.regTxAddr s.cfg.peerAddr
    ++ regWrite s.cfg s.cfg.regRxPwP0 s.cfg.valRxPwP0
    ++ regWrite s.cfg s.cfg.regSetupRetr s.cfg.valSetupRetr
    ++ enterRxBody s.cfg

/-! ## The meanings -/

/-- GET_STATUS (R141). -/
def execGetStatus (addr : Addr) (val : Byte) (s : State) : Host.Outcome State Fault Refusal :=
  command codeGetStatus addr val getStatusProgram s

/-- FLUSH_TX (R142). -/
def execFlushTx (addr : Addr) (val : Byte) (s : State) : Host.Outcome State Fault Refusal :=
  command codeFlushTx addr val flushTxProgram s

/-- FLUSH_RX (R143). -/
def execFlushRx (addr : Addr) (val : Byte) (s : State) : Host.Outcome State Fault Refusal :=
  command codeFlushRx addr val flushRxProgram s

/-- RESET_STATUS (R155). -/
def execResetStatus (addr : Addr) (val : Byte) (s : State) : Host.Outcome State Fault Refusal :=
  command codeResetStatus addr val resetStatusProgram s

/-- ENTER_TX (R146). -/
def execEnterTx (addr : Addr) (val : Byte) (s : State) : Host.Outcome State Fault Refusal :=
  command codeEnterTx addr val enterTxProgram s

/-- ENTER_RX (R149). -/
def execEnterRx (addr : Addr) (val : Byte) (s : State) : Host.Outcome State Fault Refusal :=
  command codeEnterRx addr val enterRxProgram s

/-- SEND (R152). -/
def execSend (addr : Addr) (val : Byte) (s : State) : Host.Outcome State Fault Refusal :=
  command codeSend addr val sendProgram s

/-- IS_SENDING (R154). -/
def execIsSending (addr : Addr) (val : Byte) (s : State) : Host.Outcome State Fault Refusal :=
  command codeIsSending addr val isSendingProgram s

/-- CONFIGURE (R156). -/
def execConfigure (addr : Addr) (val : Byte) (s : State) : Host.Outcome State Fault Refusal :=
  command codeConfigure addr val configureProgram s

end Sys2Proof.Machine
end

