-- ==== Sys2Proof/Machine/Wire.lean ====
section
/-! DEFINITION. The wire command bytes (R76, R78) as the bus and the peer execute them: one exchange of that byte (R101), with
what the peer does at a frame's first byte (R57, R60). -/

namespace Sys2Proof.Machine

/-- One exchange of a byte on the bus, the received byte discarded: time passes, the byte goes out, IRQ_N is sampled. An
exchange that does not complete stays in progress (R101, R103). The sequencer's own position does not move. -/
def exchangeByte (b : Byte) (s : State) : Host.Outcome State Fault Refusal :=
  match xfer b (elapse s) with
  | .done _ t => .next (sample t)
  | .held t => .next (sample t)

/-- W.R_REGISTER: the register form with OPC_R_REGISTER (R76, R58). -/
def execWRRegister (a : Addr) (s : State) : Host.Outcome State Fault Refusal :=
  exchangeByte (readCommand s.cfg a) s

/-- W.W_REGISTER: the register form with OPC_W_REGISTER (R76, R59). -/
def execWWRegister (a : Addr) (s : State) : Host.Outcome State Fault Refusal :=
  exchangeByte (writeCommand s.cfg a) s

/-- W.R_RX_PAYLOAD (R76, R60). -/
def execWRRxPayload (s : State) : Host.Outcome State Fault Refusal :=
  exchangeByte s.cfg.opcRRxPayload s

/-- W.W_TX_PAYLOAD (R76, R60). -/
def execWWTxPayload (s : State) : Host.Outcome State Fault Refusal :=
  exchangeByte s.cfg.opcWTxPayload s

/-- W.FLUSH_TX (R76, R60). -/
def execWFlushTx (s : State) : Host.Outcome State Fault Refusal :=
  exchangeByte s.cfg.opcFlushTx s

/-- W.FLUSH_RX (R76, R60). -/
def execWFlushRx (s : State) : Host.Outcome State Fault Refusal :=
  exchangeByte s.cfg.opcFlushRx s

/-- W.NOP (R76, R60). -/
def execWNop (s : State) : Host.Outcome State Fault Refusal :=
  exchangeByte s.cfg.opcNop s

end Sys2Proof.Machine
end

