-- ==== Sys2Proof/Machine/Dispatch.lean ====
section
/-! DEFINITION. One arm per instruction. -/

namespace Sys2Proof.Machine

def exec (i : Instr) (s : State) : Host.Outcome State Fault Refusal :=
  match i with
  | .rdreg addr val => Sys2Proof.Machine.execRdreg addr val s
  | .wrreg addr val => Sys2Proof.Machine.execWrreg addr val s
  | .wraddr addr val => Sys2Proof.Machine.execWraddr addr val s
  | .getStatus addr val => Sys2Proof.Machine.execGetStatus addr val s
  | .flushTx addr val => Sys2Proof.Machine.execFlushTx addr val s
  | .flushRx addr val => Sys2Proof.Machine.execFlushRx addr val s
  | .resetStatus addr val => Sys2Proof.Machine.execResetStatus addr val s
  | .enterTx addr val => Sys2Proof.Machine.execEnterTx addr val s
  | .enterRx addr val => Sys2Proof.Machine.execEnterRx addr val s
  | .send addr val => Sys2Proof.Machine.execSend addr val s
  | .isSending addr val => Sys2Proof.Machine.execIsSending addr val s
  | .configure addr val => Sys2Proof.Machine.execConfigure addr val s
  | .ceSet addr val => Sys2Proof.Machine.execCeSet addr val s
  | .ceClr addr val => Sys2Proof.Machine.execCeClr addr val s
  | .irqOn addr val => Sys2Proof.Machine.execIrqOn addr val s
  | .irqOff addr val => Sys2Proof.Machine.execIrqOff addr val s
  | .cntClr addr val => Sys2Proof.Machine.execCntClr addr val s
  | .abufWr addr val => Sys2Proof.Machine.execAbufWr addr val s
  | .txbufWr addr val => Sys2Proof.Machine.execTxbufWr addr val s
  | .run addr val => Sys2Proof.Machine.execRun addr val s
  | .wRRegister a => Sys2Proof.Machine.execWRRegister a s
  | .wWRegister a => Sys2Proof.Machine.execWWRegister a s
  | .wRRxPayload => Sys2Proof.Machine.execWRRxPayload s
  | .wWTxPayload => Sys2Proof.Machine.execWWTxPayload s
  | .wFlushTx => Sys2Proof.Machine.execWFlushTx s
  | .wFlushRx => Sys2Proof.Machine.execWFlushRx s
  | .wNop => Sys2Proof.Machine.execWNop s

end Sys2Proof.Machine
end

