-- ==== Sys2Proof/Machine/NodeLoop.lean ====
section
/-! DEFINITION. The Node Loop (R189 to R197). -/

namespace Sys2Proof.Machine

/-- The Node Loop owns the bus (R190). -/
def startCycle (s : State) : State := { s with seq := .op, upc := 0 }

/-- A Node Loop step with SEQ = Idle (R190): at NL_CHECK it starts a cycle when RXCNT = PAYLOAD_LEN, and otherwise idles,
which only lets time pass; at NL_POLL, where no run leaves SEQ = Idle, it polls. R190 and D30 bound nothing of how long after its
condition holds the cycle starts; here it starts at once, with no idle moment before it. DESIGN CHOICE, unsafe (log entry 31). -/
def nodeLoopStep (s : State) : State :=
  match s.nlpc with
  | .check =>
    if s.rxcnt.toNat = payloadLen then runMicros (cycleProgram s.cfg s.txbuf) (startCycle s) else elapse s
  | .poll => runMicros (pollProgram s.cfg) (startCycle s)

end Sys2Proof.Machine
end

