-- ==== Sys2Proof/Machine/Fetch.lean ====
section
/-! DEFINITION. Where the next instruction comes from: the host's command channel (R72), an exchange in progress on an otherwise
idle bus (log entry 12); what a step does in each state of the sequencer; placing an instruction to be fetched. -/

namespace Sys2Proof.Machine

/-- The host finds BUSY = 0 and RESULT = 0x00 (R73), which ends its repeating of a command (R82, R196). -/
def pollsDone (s : State) : Bool := !s.busy && s.result == 0

/-- The word that a list of moves presents, `busy` and `done` being what the host reads of BUSY and of BUSY with RESULT. -/
def presentedBy (busy done : Bool) : List HostMove → Option CmdWord
  | .command w :: _ => some w
  | .again w :: _ => if busy || done then none else some w
  | .pause :: _ => none
  | .rst :: _ => none
  | .rstAfter _ :: rest => presentedBy busy done rest
  | [] => none

/-- The moves of a list left when no word is accepted in this step: a pause lasts one step, a word stays presented, a coming RST
is one step nearer. -/
def movesAfterWait (done : Bool) : List HostMove → List HostMove
  | .command w :: rest => .command w :: rest
  | .again w :: rest => if done then rest else .again w :: rest
  | .pause :: rest => rest
  | .rst :: rest => rest
  | .rstAfter n :: rest => .rstAfter (n - 1) :: movesAfterWait done rest
  | [] => []

/-- The moves of a list left once its word is accepted: a repeated word stays, until RESULT says otherwise (R82). -/
def movesAfterAccept : List HostMove → List HostMove
  | .command _ :: rest => rest
  | .again w :: rest => .again w :: rest
  | .pause :: rest => rest
  | .rst :: rest => rest
  | .rstAfter n :: rest => .rstAfter n :: movesAfterAccept rest
  | [] => []

/-- RST is among the moves of a list for this step (R250). -/
def movesRst : List HostMove → Bool
  | .rst :: _ => true
  | .rstAfter 0 :: _ => true
  | .rstAfter (_ + 1) :: rest => movesRst rest
  | .command _ :: _ => false
  | .again _ :: _ => false
  | .pause :: _ => false
  | [] => false

/-- The moves of a list left after RST: a word that waits stays presented (R72), a later RST is one step nearer. -/
def movesAfterRst : List HostMove → List HostMove
  | .rst :: rest => rest
  | .rstAfter 0 :: rest => rest
  | .rstAfter (n + 1) :: rest => .rstAfter n :: movesAfterRst rest
  | .command w :: rest => .command w :: rest
  | .again w :: rest => .again w :: rest
  | .pause :: rest => .pause :: rest
  | [] => []

/-- The word the host presents in this step, if any: cmd_valid and cmd_word (R72). -/
def presented (s : State) : Option CmdWord := presentedBy s.busy (pollsDone s) s.host

/-- The host's moves left when no word is accepted in this step. -/
def hostAfterWait (s : State) : List HostMove := movesAfterWait (pollsDone s) s.host

/-- The host's moves left once its word is accepted. -/
def hostAfterAccept (s : State) : List HostMove := movesAfterAccept s.host

/-- The host asserts RST in this step (R250). -/
def rstDue (s : State) : Bool := movesRst s.host

/-- The host's moves left after RST. -/
def hostAfterRst (s : State) : List HostMove := movesAfterRst s.host

/-- A presented word is accepted (R72): the instruction it decodes to runs; a reserved code raises BAD_OP (R74). -/
def acceptWord (w : CmdWord) (s : State) : Host.Outcome State Fault Refusal :=
  match decodeCommand w with
  | .ok i => exec i s
  | .error _ => execReserved w.op w.addr w.val s

/-- An exchange in progress while the sequencer is idle: the wire command byte runs; a byte that is no wire command is only
exchanged (R57, R78; log entry 12). -/
def acceptWire (b : Byte) (s : State) : Host.Outcome State Fault Refusal :=
  match decodeWire s.cfg b with
  | .ok i => exec i s
  | .error _ => exchangeByte b s

/-- A step with SEQ = Idle, `w` being the word presented (R72, R190, R213): a due interrupt first, then the Node Loop when
RUNNING = 1, then a waiting command, else time passes. -/
def idleStep (w : Option CmdWord) (s : State) : Host.Outcome State Fault Refusal :=
  match s.busOut with
  | some b => acceptWire b s
  | none =>
    if s.irqDue then .next (capture s)
    else if s.running then .next (nodeLoopStep s)
    else
      match w with
      | some cw => acceptWord cw { s with host := hostAfterAccept s }
      | none => .next (elapse s)

/-- A step without reset: the sequence in progress goes on, else an idle step. -/
def stepBlock (w : Option CmdWord) (s : State) : Host.Outcome State Fault Refusal :=
  match s.seq with
  | .op => .next (resume s)
  | .handler => .next (resume s)
  | .idle => idleStep w s

/-- One step of the whole machine. A configuration that is not well formed is refused (R6, U11). RST comes before everything
else (R250; log entry 17). -/
def stepMachine (s : State) : Host.Outcome State Fault Refusal :=
  if s.cfg.wellFormed then
    if rstDue s then .next (resetBlock { s with host := hostAfterRst s })
    else stepBlock (presented s) { s with host := hostAfterWait s }
  else .refused .illFormedConfig

/-- Nothing stands before the next command: the sequencer is idle, the Node Loop does not run, no interrupt is pending. -/
def clearTheWay (s : State) : State :=
  { s with seq := .idle, upc := 0, running := false, nlpc := .check, irqPend := false, todo := []
           busOut := none }

/-- A command word presented to the command channel so that the very next step accepts it (log entry 18). -/
def placeCommand (w : CmdWord) (s : State) : State :=
  { clearTheWay s with host := .command w :: s.host }

/-- A wire command byte in exchange as the first byte of an open frame, so that the very next step exchanges it (log entry 18).
The host pauses for that step. -/
def placeWire (b : Byte) (s : State) : State :=
  { clearTheWay s with
    host := .pause :: s.host
    csn := false
    busOut := some b
    peer := { s.peer with cmd := none, idx := 0, collected := [] } }

/-- An instruction of nbits bits placed where the next step fetches it. -/
def placeWord (s : State) (nbits w : Nat) : State :=
  if nbits = 8 then placeWire (BitVec.ofNat 8 w) s else placeCommand (BitVec.ofNat 24 w) s

end Sys2Proof.Machine
end

