-- ==== Sys2Proof/Machine/Step.lean ====
section
/-! DEFINITION. The step of the machine, and placing an instruction where the next step fetches it. -/

namespace Sys2Proof.Machine

/-- One step (R11, R72, R190, R213, R250). -/
def step (s : State) : Host.Outcome State Fault Refusal := stepMachine s

/-- The state with an instruction of `nbits` bits `w` stored where the next step fetches it (log entry 18). -/
def State.withFetchWord (s : State) (nbits w : Nat) : State := placeWord s nbits w

end Sys2Proof.Machine
end

