-- ==== Sys2Proof/Machine/Observe.lean ====
section
/-! DEFINITION. The read-only observation map (R27). -/

namespace Sys2Proof.Machine

/-- MODE's two bits in STAT (R21, R27). -/
def modeBits : Mode → BitVec 2
  | .standby => 0b00
  | .transmitting => 0b01
  | .listening => 0b10

/-- A bit of the map at its place. -/
def obsBit (place : Nat) (b : Bool) : Byte := if b then 1 <<< place else 0

/-- The layout of STAT (R27). -/
def statByte (busy inHandler running irqEn irqPend : Bool) (mode : Mode) : Byte :=
  obsBit 0 busy ||| obsBit 1 inHandler ||| obsBit 2 running ||| obsBit 3 irqEn ||| obsBit 4 irqPend
    ||| (modeBits mode).setWidth 8 <<< 5

/-- The layout of PINS (R27). -/
def pinsByte (csn ce irqPrev : Bool) : Byte := obsBit 0 csn ||| obsBit 1 ce ||| obsBit 2 irqPrev

/-- STAT (R27). -/
def obsStat (s : State) : Byte := statByte s.busy s.inHandler s.running s.irqEn s.irqPend s.mode

/-- PINS (R27). -/
def obsPins (s : State) : Byte := pinsByte s.csn s.ce s.irqPrev

/-- The byte at an offset of the map; an unlisted offset reads 0 (R27). Reading changes nothing. -/
def obs (offset : Nat) (s : State) : Byte :=
  if offset = 0x00 then obsStat s
  else if offset = 0x01 then obsPins s
  else if offset = 0x02 then s.fault.setWidth 8
  else if offset = 0x03 then s.rxcnt
  else if offset = 0x04 then s.result
  else if offset = 0x05 then s.op
  else if offset = 0x06 then s.argAddr.setWidth 8
  else if offset = 0x07 then s.argVal
  else if 0x08 ≤ offset ∧ offset < 0x08 + addrLen then s.abuf.toList.getD (offset - 0x08) 0
  else if 0x10 ≤ offset ∧ offset < 0x10 + payloadLen then s.txbuf.toList.getD (offset - 0x10) 0
  else if 0x18 ≤ offset ∧ offset < 0x18 + payloadLen then s.rxbuf.toList.getD (offset - 0x18) 0
  else 0

end Sys2Proof.Machine
end

