-- ==== Sys2Proof/Safety.lean ====
section
/-! DEFINITION. What counts as a good state and a good run, in the terms the claims use: faulted and good final states (R230,
R273), the frame discipline of a wire trace (R110), transfers that complete (R266), the invariants of the block. -/

namespace Sys2Proof

open Sys2Proof.Machine

/-- A state with a fault flag set is faulted (R24, R230). -/
def Faulted (s : State) : Prop := s.fault ≠ 0

/-- A run of the host's list of commands has ended: every command accepted, SEQ = Idle, RUNNING = 0, no enabled interrupt
pending (R273). -/
def RunEnded (s : State) : Prop := s.host = [] ∧ s.seq = .idle ∧ s.running = false ∧ s.irqDue = false

/-- A good final state (R273). -/
def GoodEnd (s : State) : Prop := RunEnded s ∧ ¬ Faulted s ∧ s.csn = true

/-- A scripted answer that lets its transfer complete. -/
def completing : Answer → Bool
  | .byte _ => true
  | .late => false
  | .never => false

/-- A scripted handshake that lets the debug byte go out. -/
def accepting : Ready → Bool
  | .ready => true
  | .late => false
  | .never => false

/-- The premise "the next n transfers complete" (R266, R274). -/
def TransfersComplete (n : Nat) (s : State) : Prop := ((s.answers.take n).all completing) = true

/-- The premise "the next n debug handshakes complete" (R266, R274). -/
def EchoesComplete (n : Nat) (s : State) : Prop := ((s.dbg.take n).all accepting) = true

/-! ## Reading a micro-sequence -/

/-- A micro-operation that makes a transfer, and so can wait for ever (R266 (a)). -/
def transfersByte : Micro → Bool
  | .send _ => true
  | .sendRmw _ _ => true
  | .wait _ => false
  | .csn _ => false
  | .ce _ => false
  | .storeTmp => false
  | .resultTmp => false
  | .resultSending => false
  | .setMode _ => false
  | .setIrqEn _ => false
  | .clearCount => false
  | .setAbuf _ _ => false
  | .setTxbuf _ _ => false
  | .raise _ => false
  | .storeRx _ => false
  | .echo => false
  | .count => false
  | .setRunning _ => false
  | .setNlpc _ => false
  | .clearPolls => false
  | .poll => false
  | .pollTest => false

/-- A micro-operation that hands a byte to the debug channel, and so can wait for ever (R266 (b)). -/
def echoesByte (m : Micro) : Bool := m = .echo

/-! ## What an instruction leaves unchanged -/

/-- The block's architectural state (R10) with its configuration and the byte last received, but for IRQ_PEND and IRQ_PREV, which
the edge detector writes at any time (R212). A claim `t.block = { s.block with ... }` says what changed and that nothing else did. -/
structure BlockView where
  cfg : Params
  seq : Seq
  upc : Nat
  running : Bool
  nlpc : Nlpc
  pollcnt : Nat
  op : Byte
  argAddr : Addr
  argVal : Byte
  result : Byte
  tmp : Byte
  rx : Byte
  abuf : DeviceAddress
  txbuf : Payload
  rxbuf : Payload
  rxcnt : Counter
  mode : Mode
  csn : Bool
  ce : Bool
  irqEn : Bool
  fault : BitVec 4
  deriving DecidableEq, Repr

/-- The block's part of a state. -/
def Machine.State.block (s : State) : BlockView where
  cfg := s.cfg
  seq := s.seq
  upc := s.upc
  running := s.running
  nlpc := s.nlpc
  pollcnt := s.pollcnt
  op := s.op
  argAddr := s.argAddr
  argVal := s.argVal
  result := s.result
  tmp := s.tmp
  rx := s.rx
  abuf := s.abuf
  txbuf := s.txbuf
  rxbuf := s.rxbuf
  rxcnt := s.rxcnt
  mode := s.mode
  csn := s.csn
  ce := s.ce
  irqEn := s.irqEn
  fault := s.fault

/-- The block's view after a command whose only effect so far is its acceptance and its end: OP, ARG_ADDR and ARG_VAL hold the
command's fields, SEQ is Idle and upc is 0 (R72). -/
def afterCommand (op : Byte) (addr : Addr) (val : Byte) (v : BlockView) : BlockView :=
  { v with op := op, argAddr := addr, argVal := val, seq := .idle, upc := 0 }

/-- What n completed transfers and k completed debug handshakes leave of the outside world's moves: the host's untouched, the
scripts used up to there; and a pending interrupt stays pending (R211). -/
def OutsideAfter (n k : Nat) (s t : State) : Prop :=
  t.host = s.host ∧ t.answers = s.answers.drop n ∧ t.dbg = s.dbg.drop k ∧ (s.irqPend = true → t.irqPend = true)
    ∧ t.looks = s.looks

/-- The host looks only between sequences, so that one step runs a whole one (R12, R274). -/
abbrev Unwatched (s : State) : Prop := s.looks = []

/-- A move of the environment that lowers IRQ_N under neither kind of peer (R61, R62, R212). -/
def neverLowers : EnvMove → Bool
  | .quiet => true
  | .irq level => level
  | .deliver _ => false
  | .sendDone _ => false

/-- No falling edge comes from the environment, and none waits to be sampled (R212). -/
def NoFallComing (s : State) : Prop := s.env.all neverLowers = true ∧ (s.irqPrev = true → irqLine s = true)

/-- Every byte of the peer's registers outside the given cells reads as before. -/
def MemoryKeptOutside (cells : List Nat) (s t : State) : Prop :=
  ∀ a, a ∉ cells → Memory.read t.peer.mem a = Memory.read s.peer.mem a

/-! ## Writing a wire trace -/

/-- A whole frame from its transfers, each a pair of the byte sent and the byte received: the spec's "frame summary"
(95_test_vectors.md) with its waits and chip-select edges put back (R105, R109). -/
def frameEvents (settle : Nat) (transfers : List (Byte × Byte)) : List Event :=
  [.w settle, .csn false, .w settle] ++ transfers.flatMap (fun x => [Event.x x.1 x.2, Event.w settle]) ++ [.csn true]

/-- RegRead(a) as the pins show it, receiving r0 and then the register's value v (R109, R111). -/
def readFrame (p : Params) (a : Addr) (r0 v : Byte) : List Event :=
  frameEvents p.tSettle [(readCommand p a, r0), (p.opcNop, v)]

/-- RegWrite(a, v) as the pins show it, receiving r0 and r1 (R109, R111). -/
def writeFrame (p : Params) (a : Addr) (v r0 r1 : Byte) : List Event :=
  frameEvents p.tSettle [(writeCommand p a, r0), (v, r1)]

/-- AddrWrite(a, b) as the pins show it, receiving d n to d (n + 5) (R109, S1). -/
def addrFrame (p : Params) (a : Addr) (b : DeviceAddress) (d : Nat → Byte) (n : Nat) : List Event :=
  frameEvents p.tSettle
    [(writeCommand p a, d n), (b[0], d (n + 1)), (b[1], d (n + 2)), (b[2], d (n + 3)), (b[3], d (n + 4)), (b[4], d (n + 5))]

/-- A frame of one transfer as the pins show it: the status frame and the flushes (R109). -/
def shortFrame (p : Params) (b r : Byte) : List Event := frameEvents p.tSettle [(b, r)]

/-- TxPayloadFrame(pl) as the pins show it, receiving d n to d (n + 8) (R109). -/
def payloadFrame (p : Params) (pl : Payload) (d : Nat → Byte) (n : Nat) : List Event :=
  frameEvents p.tSettle
    [(p.opcWTxPayload, d n), (pl[0], d (n + 1)), (pl[1], d (n + 2)), (pl[2], d (n + 3)), (pl[3], d (n + 4)),
      (pl[4], d (n + 5)), (pl[5], d (n + 6)), (pl[6], d (n + 7)), (pl[7], d (n + 8))]

/-- ENTER_TX as the pins show it, receiving d n to d (n + 14) (R146, R147, T20): each round trip writes back what its own
read returned. -/
def enterTxEvents (p : Params) (d : Nat → Byte) (n : Nat) : List Event :=
  [.ce false]
    ++ readFrame p p.regConfig (d n) (d (n + 1))
    ++ writeFrame p p.regConfig (d (n + 1) &&& ~~~p.mPrimRx) (d (n + 2)) (d (n + 3))
    ++ readFrame p p.regConfig (d (n + 4)) (d (n + 5))
    ++ writeFrame p p.regConfig (d (n + 5) ||| p.mPwrUp) (d (n + 6)) (d (n + 7))
    ++ shortFrame p p.opcFlushTx (d (n + 8))
    ++ writeFrame p p.regStatus (mStAll p) (d (n + 9)) (d (n + 10))
    ++ readFrame p p.regConfig (d (n + 11)) (d (n + 12))
    ++ writeFrame p p.regConfig (d (n + 12) ||| mMaskTxIrq p) (d (n + 13)) (d (n + 14))
    ++ [.w p.tCfg]

/-- ENTER_RX as the pins show it, receiving d n to d (n + 10) (R149, T21). -/
def enterRxEvents (p : Params) (d : Nat → Byte) (n : Nat) : List Event :=
  [.ce false]
    ++ readFrame p p.regConfig (d n) (d (n + 1))
    ++ writeFrame p p.regConfig (d (n + 1) ||| (p.mPwrUp ||| p.mPrimRx)) (d (n + 2)) (d (n + 3))
    ++ shortFrame p p.opcFlushRx (d (n + 4))
    ++ writeFrame p p.regStatus (mStAll p) (d (n + 5)) (d (n + 6))
    ++ readFrame p p.regConfig (d (n + 7)) (d (n + 8))
    ++ writeFrame p p.regConfig (d (n + 8) ||| mMaskTxIrq p) (d (n + 9)) (d (n + 10))
    ++ [.ce true, .w p.tCfg]

/-- SEND, accepted, as the pins show it, receiving d n to d (n + 9) (R152, T22). -/
def sendEvents (p : Params) (pl : Payload) (d : Nat → Byte) (n : Nat) : List Event :=
  shortFrame p p.opcFlushTx (d n) ++ payloadFrame p pl d (n + 1)
    ++ [.w p.tPrePulse, .ce true, .w p.tCePulse, .ce false]

/-- CONFIGURE as the pins show it, receiving d 0 to d 34 (R156, P2). -/
def configureEvents (p : Params) (d : Nat → Byte) : List Event :=
  writeFrame p p.regEnRxaddr p.valEnRxaddr (d 0) (d 1)
    ++ writeFrame p p.regSetupAw p.valSetupAw (d 2) (d 3)
    ++ writeFrame p p.regRfCh p.valRfCh (d 4) (d 5)
    ++ writeFrame p p.regRfSetup p.valRfSetup (d 6) (d 7)
    ++ addrFrame p p.regRxAddrP0 p.ownAddr d 8
    ++ addrFrame p p.regTxAddr p.peerAddr d 14
    ++ writeFrame p p.regRxPwP0 p.valRxPwP0 (d 20) (d 21)
    ++ writeFrame p p.regSetupRetr p.valSetupRetr (d 22) (d 23)
    ++ enterRxEvents p d 24

/-- The handler as the pins show it, receiving d 0 to d 10, of which d 1 to d 8 are the captured bytes, each echoed (R214,
R216, T30). -/
def captureEvents (p : Params) (d : Nat → Byte) : List Event :=
  [.ce false, .w p.tSettle, .csn false, .w p.tSettle, .x p.opcRRxPayload (d 0), .w p.tSettle,
    .x p.opcNop (d 1), .w p.tSettle, .d (d 1), .x p.opcNop (d 2), .w p.tSettle, .d (d 2),
    .x p.opcNop (d 3), .w p.tSettle, .d (d 3), .x p.opcNop (d 4), .w p.tSettle, .d (d 4),
    .x p.opcNop (d 5), .w p.tSettle, .d (d 5), .x p.opcNop (d 6), .w p.tSettle, .d (d 6),
    .x p.opcNop (d 7), .w p.tSettle, .d (d 7), .x p.opcNop (d 8), .w p.tSettle, .d (d 8), .csn true]
    ++ writeFrame p p.regStatus p.mRxDr (d 9) (d 10)

/-- The sentinels among the captured bytes d 1 to d 8 (R224, S4). -/
def sentinels (d : Nat → Byte) : Nat :=
  [d 1, d 2, d 3, d 4, d 5, d 6, d 7, d 8].countP (fun b => b = Config.sentinel)

/-- No register-form command byte is one of the five fixed wire opcodes, so that R78 reads it as the register access it is
(R76). It holds of the default opcode table. -/
def NoCollision (p : Params) : Prop :=
  ∀ a : Addr, readCommand p a ∉ p.fixedOpcodes ∧ writeCommand p a ∉ p.fixedOpcodes

/-- The host does not assert RST in the coming step (R250). -/
def NoRst (s : State) : Prop := rstDue s = false

/-! ## Reading a wire trace -/

/-- The minimum duration of a trace: the sum of its waits (R272). -/
def minMicros : List Event → Nat
  | [] => 0
  | .w t :: rest => t + minMicros rest
  | .csn _ :: rest => minMicros rest
  | .ce _ :: rest => minMicros rest
  | .x _ _ :: rest => minMicros rest
  | .d _ :: rest => minMicros rest

/-- An event is a byte transfer. -/
def isTransfer : Event → Bool
  | .x _ _ => true
  | .w _ => false
  | .csn _ => false
  | .ce _ => false
  | .d _ => false

/-- The transfers of a trace. -/
def transferCount (tr : List Event) : Nat := tr.countP isTransfer

/-- The rows of R272 for one operation each: the operation, its frames, transfers, trace events and minimum microseconds. SEND
has its row in Transmitting mode. -/
def operationCounts (mode : Mode) (addr : Addr) (val : Byte) : List (Instr × Nat × Nat × Nat × Nat) :=
  [(.rdreg addr val, 1, 2, 8, 40), (.wrreg addr val, 1, 2, 8, 40), (.resetStatus addr val, 1, 2, 8, 40),
    (.wraddr addr val, 1, 6, 16, 80), (.getStatus addr val, 1, 1, 6, 30), (.isSending addr val, 1, 1, 6, 30),
    (.flushTx addr val, 1, 1, 6, 30), (.flushRx addr val, 1, 1, 6, 30), (.enterTx addr val, 8, 15, 64, 460),
    (.enterRx addr val, 6, 11, 49, 380), (.configure addr val, 14, 35, 129, 780), (.ceSet addr val, 0, 0, 1, 0),
    (.ceClr addr val, 0, 0, 1, 0), (.irqOn addr val, 0, 0, 0, 0), (.irqOff addr val, 0, 0, 0, 0),
    (.cntClr addr val, 0, 0, 0, 0), (.abufWr addr val, 0, 0, 0, 0), (.txbufWr addr val, 0, 0, 0, 0),
    (.run addr val, 0, 0, 0, 0)]
    ++ (if mode = .transmitting then [(.send addr val, 2, 10, 32, 165)] else [])

/-- Where a trace stands with respect to frames (R110). -/
inductive FramePhase where
  /-- No frame is open; `settled`: the last event was W(T_SETTLE). -/
  | closed (settled : Bool)
  /-- CSN(0) was the last event. -/
  | opening
  /-- A frame is open; `moved`: it holds a transfer. -/
  | opened (moved : Bool)
  /-- A transfer was the last event. -/
  | moving
  deriving DecidableEq, Repr

/-- One event, under R110 (b), (c) and (d); none where it breaks them. -/
def framePhase (settle : Nat) : FramePhase → Event → Option FramePhase
  | .closed _, .w t => some (.closed (t == settle))
  | .closed true, .csn false => some .opening
  | .closed false, .csn false => none
  | .closed _, .csn true => none
  | .closed _, .ce _ => some (.closed false)
  | .closed _, .x _ _ => none
  | .closed _, .d _ => none
  | .opening, .w t => if t = settle then some (.opened false) else none
  | .opening, .csn _ => none
  | .opening, .ce _ => none
  | .opening, .x _ _ => none
  | .opening, .d _ => none
  | .opened m, .w _ => some (.opened m)
  | .opened _, .x _ _ => some .moving
  | .opened m, .d _ => some (.opened m)
  | .opened true, .csn true => some (.closed false)
  | .opened false, .csn true => none
  | .opened _, .csn false => none
  | .opened _, .ce _ => none
  | .moving, .w t => if t = settle then some (.opened true) else none
  | .moving, .csn _ => none
  | .moving, .ce _ => none
  | .moving, .x _ _ => none
  | .moving, .d _ => none

/-- A whole trace; none where it breaks R110 somewhere. -/
def tracePhase (settle : Nat) : FramePhase → List Event → Option FramePhase
  | ph, [] => some ph
  | ph, e :: rest => (framePhase settle ph e).bind fun ph => tracePhase settle ph rest

/-- The trace so far keeps the frame discipline of R110 (b), (c), (d). -/
def FramesKept (s : State) : Prop := (tracePhase s.cfg.tSettle (.closed false) s.trace).isSome = true

/-! ## Invariants -/

/-- A phase with no frame open. -/
def FramePhase.isClosed : FramePhase → Bool
  | .closed _ => true
  | .opening => false
  | .opened _ => false
  | .moving => false

/-- What a micro-operation's trace event does to the frame phase, whatever byte it moves (R110). A label and its test stand
between frames. -/
def microPhase (settle : Nat) (ph : FramePhase) : Micro → Option FramePhase
  | .wait t => framePhase settle ph (.w t)
  | .csn level => framePhase settle ph (.csn level)
  | .ce level => framePhase settle ph (.ce level)
  | .send _ => framePhase settle ph (.x 0 0)
  | .sendRmw _ _ => framePhase settle ph (.x 0 0)
  | .echo => framePhase settle ph (.d 0)
  | .storeTmp => some ph
  | .resultTmp => some ph
  | .resultSending => some ph
  | .setMode _ => some ph
  | .setIrqEn _ => some ph
  | .clearCount => some ph
  | .setAbuf _ _ => some ph
  | .setTxbuf _ _ => some ph
  | .raise _ => some ph
  | .storeRx _ => some ph
  | .count => some ph
  | .setRunning _ => some ph
  | .setNlpc _ => some ph
  | .clearPolls => some ph
  | .poll => if ph.isClosed then some ph else none
  | .pollTest => if ph.isClosed then some ph else none

/-- The frame phase after a list of micro-operations; none where it breaks R110. -/
def programPhase (settle : Nat) : FramePhase → List Micro → Option FramePhase
  | ph, [] => some ph
  | ph, m :: ms => (microPhase settle ph m).bind fun ph => programPhase settle ph ms

/-- nlpc at the end of a list of micro-operations (R13). From the label `poll:` every way leads to NL_CHECK (R193, R194). -/
def nlpcAtEnd : Nlpc → List Micro → Nlpc
  | n, [] => n
  | n, m :: ms =>
    match m with
    | .setNlpc k => nlpcAtEnd k ms
    | .poll => .check
    | .pollTest => nlpcAtEnd n ms
    | .wait _ => nlpcAtEnd n ms
    | .csn _ => nlpcAtEnd n ms
    | .ce _ => nlpcAtEnd n ms
    | .send _ => nlpcAtEnd n ms
    | .sendRmw _ _ => nlpcAtEnd n ms
    | .storeTmp => nlpcAtEnd n ms
    | .resultTmp => nlpcAtEnd n ms
    | .resultSending => nlpcAtEnd n ms
    | .setMode _ => nlpcAtEnd n ms
    | .setIrqEn _ => nlpcAtEnd n ms
    | .clearCount => nlpcAtEnd n ms
    | .setAbuf _ _ => nlpcAtEnd n ms
    | .setTxbuf _ _ => nlpcAtEnd n ms
    | .raise _ => nlpcAtEnd n ms
    | .storeRx _ => nlpcAtEnd n ms
    | .echo => nlpcAtEnd n ms
    | .count => nlpcAtEnd n ms
    | .setRunning _ => nlpcAtEnd n ms
    | .clearPolls => nlpcAtEnd n ms

/-- The sequencer's invariant. The trace keeps the frame discipline (R110 b to d), what is left of the micro-sequence in progress
keeps it too and ends between frames, and CSN is low exactly while a frame is open, so that with SEQ = Idle none is
(R110 a); with SEQ = Idle nothing is left, upc is 0 (R12) and no exchange is in progress; otherwise something is left; nlpc is
NL_CHECK when the sequence ends (R13); and an exchange in progress is the coming transfer (R103). -/
def SequencerInv (s : State) : Prop :=
  (∃ ph, tracePhase s.cfg.tSettle (.closed false) s.trace = some ph ∧ s.csn = ph.isClosed
      ∧ ∃ b, programPhase s.cfg.tSettle ph s.todo = some (.closed b))
    ∧ (s.seq = .idle → s.todo = [] ∧ s.upc = 0 ∧ s.busOut = none)
    ∧ (s.seq ≠ .idle → s.todo ≠ [])
    ∧ nlpcAtEnd s.nlpc s.todo = .check
    ∧ (∀ b, s.busOut = some b → ∃ m, s.todo.head? = some m ∧ transfersByte m = true)

/-- The reference peer's state stays what R56 says it is: canonical register bytes, ST within M_ST_ALL, ST_LOW outside it, at
most three payloads in each FIFO. -/
def PeerInv (s : State) : Prop :=
  Memory.wf s.peer.mem = true ∧ s.peer.st &&& ~~~mStAll s.cfg = 0 ∧ s.peer.stLow &&& mStAll s.cfg = 0
    ∧ s.peer.txf.length ≤ fifoDepth ∧ s.peer.rxf.length ≤ fifoDepth

/-- The Node Loop's dead end (R197): running, idle, RXCNT neither 8 nor able to change, the interrupt disabled. -/
def DeadEnd (s : State) : Prop :=
  s.running = true ∧ s.seq = .idle ∧ s.nlpc = .check ∧ s.busOut = none ∧ s.irqEn = false
    ∧ s.rxcnt.toNat ≠ payloadLen

end Sys2Proof
end

