-- ==== Sys2Proof/Certificates/Slice0/Obligations.lean ====
section
/-! DEFINITION. The statements about RFSEQ for the provers. In each, `d k` is the k-th byte the operation receives: nothing
constrains it (R101), and the trace says which transfer brought it. -/

open Sys2Proof Sys2Proof.Machine

/-! ## Encoding -/

/-- The worked command words of R81 and T10 to T45 and the seven wire bytes of R76 decode to what they stand for. -/
def Obligations.DecodeReadsSpecWords : Prop :=
  decodeCommand 0x020569 = .ok (.wrreg 0x05 0x69)
    ∧ decodeCommand 0x010700 = .ok (.rdreg 0x07 0x00)
    ∧ decodeCommand 0x031000 = .ok (.wraddr 0x10 0x00)
    ∧ decodeCommand 0x0A0000 = .ok (.send 0 0)
    ∧ decodeCommand 0x1504E7 = .ok (.abufWr 4 0xE7)
    ∧ decodeCommand 0x160708 = .ok (.txbufWr 7 0x08)
    ∧ decodeCommand 0x200000 = .ok (.run 0 0)
    ∧ decodeCommand 0x0D0000 = .error (.reservedOp 0x0D)
    ∧ decodeWire Params.default 0x07 = .ok (.wRRegister 0x07)
    ∧ decodeWire Params.default 0x25 = .ok (.wWRegister 0x05)
    ∧ decodeWire Params.default 0x61 = .ok .wRRxPayload
    ∧ decodeWire Params.default 0xA0 = .ok .wWTxPayload
    ∧ decodeWire Params.default 0xE1 = .ok .wFlushTx
    ∧ decodeWire Params.default 0xE2 = .ok .wFlushRx
    ∧ decodeWire Params.default 0xFF = .ok .wNop

/-- R71, R76, R78: decoding an encoded instruction gives it back, for every instruction with every operand and every
well-formed opcode table in which no register-form byte is a fixed opcode. -/
def Obligations.DecodeOfEncodeIsTheInstruction : Prop :=
  ∀ (p : Params) (i : Instr), p.wellFormed = true → NoCollision p → decode p (encode p i) = .ok i

/-- R71, R75: a command word that decodes is, but for its ignored bits 15:13, the word its instruction encodes to. -/
def Obligations.CommandWordsEncodeBack : Prop :=
  ∀ (p : Params) (w : CmdWord) (i : Instr), decodeCommand w = .ok i → encode p i = .command (w &&& 0xFF1FFF)

/-- R74: the reserved codes are exactly 0x00, 0x0D to 0x0F, 0x17 to 0x1F and 0x21 to 0xFF. R71, R75: bits 15:13 have no effect on
what a command word decodes to. -/
def Obligations.ReservedCodesAreExactlyThose : Prop :=
  (∀ w : CmdWord,
      decodeCommand w = .error (.reservedOp w.op) ↔
        (w.op = 0x00 ∨ (0x0D ≤ w.op.toNat ∧ w.op.toNat ≤ 0x0F) ∨ (0x17 ≤ w.op.toNat ∧ w.op.toNat ≤ 0x1F)
          ∨ 0x21 ≤ w.op.toNat))
    ∧ ∀ (w : CmdWord) (k : BitVec 3), decodeCommand (w ^^^ (k.setWidth 24 <<< 13)) = decodeCommand w

/-! ## Reset -/

/-- R33: the reset state. TX_INIT is the configuration's; TMP and RXBUF are unspecified, so nothing is said of them.
The level of IRQ_N in State.reset is the model's choice (log entry 5). -/
def Obligations.ResetStateHoldsSpecValues : Prop :=
  State.reset.block =
      { cfg := Params.default, seq := .idle, upc := 0, running := false, nlpc := .check, pollcnt := 0, op := 0,
        argAddr := 0, argVal := 0, result := 0, tmp := State.reset.tmp, rx := State.reset.rx, abuf := #v[0, 0, 0, 0, 0],
        txbuf := Params.default.txInit, rxbuf := State.reset.rxbuf, rxcnt := 0, mode := .standby, csn := true,
        ce := false, irqEn := false, fault := 0 }
    ∧ State.reset.irqPend = false ∧ State.reset.irqPrev = irqLine State.reset ∧ State.reset.trace = []
    ∧ State.reset.busy = false ∧ State.reset.inHandler = false ∧ State.reset.todo = []

/-- R33, R250: asserting RST in any state, between two steps of an operation, mid-frame or stuck, gives the reset values, an empty
trace and IRQ_PREV at the level of the line. R72: RST lifts the wait of a presented word: the block is ready, and a word that the host
holds meanwhile is presented still (that the host goes on holding it, log entry 6). With no frame open the peer's registers, flags and
FIFOs, and the level of the line, are as they were; nothing is said of the peer whose frame is cut short (R251, U5; log entry 14). -/
def Obligations.RstGivesTheResetValues : Prop :=
  ∀ s : State, s.cfg.wellFormed = true → rstDue s = true →
    ∃ t, step s = .next t
      ∧ t.block =
        { cfg := s.cfg, seq := .idle, upc := 0, running := false, nlpc := .check, pollcnt := 0, op := 0,
          argAddr := 0, argVal := 0, result := 0, tmp := t.tmp, rx := t.rx, abuf := #v[0, 0, 0, 0, 0], txbuf := s.cfg.txInit,
          rxbuf := t.rxbuf, rxcnt := 0, mode := .standby, csn := true, ce := false, irqEn := false, fault := 0 }
      ∧ t.irqPend = false ∧ t.irqPrev = irqLine t ∧ t.trace = [] ∧ t.todo = [] ∧ t.busOut = none
      ∧ t.busy = false ∧ t.inHandler = false ∧ t.ready = true ∧ t.host = hostAfterRst s
      ∧ (∀ rest, s.host = .rst :: rest → t.host = rest)
      ∧ (∀ w rest, s.host = .rstAfter 0 :: .command w :: rest → t.host = .command w :: rest ∧ presented t = some w)
      ∧ (s.csn = true → t.peer.mem = s.peer.mem ∧ t.peer.st = s.peer.st ∧ t.peer.txf = s.peer.txf ∧ t.peer.rxf = s.peer.rxf
        ∧ irqLine t = irqLine s)

/-! ## The step -/

/-- R72: in a state that is ready, a presented command word that decodes to i makes the step exec i, the host's move used up. The
second clause is the model's own choice, no rule of the spec, about a state that no run from reset reaches: an exchange of a wire
command byte that stands on the bus of an idle sequencer makes the step exec of that wire instruction, a pause of the host used up
(log entries 12 and 18, DESIGN CHOICE). -/
def Obligations.StepRunsTheDecodedInstruction : Prop :=
  (∀ (s : State) (w : CmdWord) (rest : List HostMove) (i : Instr), s.cfg.wellFormed = true →
      s.host = .command w :: rest → s.ready = true → s.busOut = none → decodeCommand w = .ok i →
      step s = exec i { s with host := rest })
    ∧ (∀ (s : State) (b : Byte) (i : Instr), s.cfg.wellFormed = true → NoRst s → s.seq = .idle → s.busOut = some b →
      decodeWire s.cfg b = .ok i → step s = exec i { s with host := hostAfterWait s })

/-- R72: a presented word is accepted exactly when the block is ready: then OP, ARG_ADDR and ARG_VAL take its fields and the
host's move is used up; when it is not ready, held in a transfer or not, the word waits and the three registers keep their values.
The second and third clauses are the model's own choice, no rule of the spec (log entry 6, DESIGN CHOICE). The second says what the
host's move HostMove.again does, which stands for the repeated command of R82 and R196: it presents its word whenever the block is not
busy and RESULT is not 0x00, and is given up where the block is not busy and RESULT is 0x00, also before it has presented its word
once. The third says that a word presented while RST is still to come (HostMove.rstAfter) is accepted or waits just so, and that RST
comes one step nearer. -/
def Obligations.CommandAcceptedExactlyWhenReady : Prop :=
  (∀ (s : State) (w : CmdWord) (rest : List HostMove), s.cfg.wellFormed = true → s.host = .command w :: rest →
      (s.seq = .idle → s.busOut = none) →
      ∃ t, step s = .next t
        ∧ (s.ready = true → t.host = rest ∧ t.op = w.op ∧ t.argAddr = w.addr ∧ t.argVal = w.val)
        ∧ (s.ready = false → t.host = s.host ∧ t.op = s.op ∧ t.argAddr = s.argAddr ∧ t.argVal = s.argVal))
    ∧ (∀ (s : State) (w : CmdWord) (rest : List HostMove), s.cfg.wellFormed = true → s.host = .again w :: rest →
      (s.seq = .idle → s.busOut = none) →
      ∃ t, step s = .next t
        ∧ (s.ready = true → s.result ≠ 0 → t.host = s.host ∧ t.op = w.op ∧ t.argAddr = w.addr ∧ t.argVal = w.val)
        ∧ (s.busy = true → t.host = s.host ∧ t.op = s.op)
        ∧ (s.busy = false → s.result = 0 → t.host = rest ∧ t.op = s.op))
    ∧ (∀ (s : State) (n : Nat) (w : CmdWord) (rest : List HostMove), s.cfg.wellFormed = true →
      s.host = .rstAfter (n + 1) :: .command w :: rest → (s.seq = .idle → s.busOut = none) →
      ∃ t, step s = .next t
        ∧ (s.ready = true → t.host = .rstAfter n :: rest ∧ t.op = w.op ∧ t.argAddr = w.addr ∧ t.argVal = w.val)
        ∧ (s.ready = false →
          t.host = .rstAfter n :: .command w :: rest ∧ t.op = s.op ∧ t.argAddr = s.argAddr ∧ t.argVal = s.argVal))

/-- R74: accepting a word with a reserved code sets FAULT bit 0, writes OP, ARG_ADDR and ARG_VAL, makes no trace event and
ends, with no other effect. -/
def Obligations.ReservedCodeRaisesBadOp : Prop :=
  ∀ (s : State) (w : CmdWord) (rest : List HostMove) (e : DecodeError), s.cfg.wellFormed = true →
    s.host = .command w :: rest → s.ready = true → Unwatched s → s.busOut = none → decodeCommand w = .error e →
    ∃ t, step s = .next t
      ∧ t.block = { afterCommand w.op w.addr w.val s.block with fault := s.fault ||| 0b0001 }
      ∧ t.trace = s.trace ∧ t.host = rest ∧ t.answers = s.answers ∧ MemoryKeptOutside [] s t

/-- A step of a well-formed configuration always gives a next state, never a fault or a refusal; a step of one that is not well
formed is refused. Three of the model's own readings stand behind it, none of them a rule of the spec: that a fault flag ends no run
(R230 has the machine go on; log entry 10, DEDUCED), that a wait which never ends is a step to a state that waits (log entry 25), and
that a configuration outside R6 or the source's bounds is refused (U11; log entry 16, DEDUCED). -/
def Obligations.StepAlwaysGoesOn : Prop :=
  ∀ s : State,
    (s.cfg.wellFormed = true → ∃ t, step s = .next t)
      ∧ (s.cfg.wellFormed = false → step s = .refused .illFormedConfig)

/-! ## The Register Access Layer -/

/-- R122: RDREG is one read frame; RESULT and TMP take the byte received in its second transfer, and nothing else of the block
changes. -/
def Obligations.RdregReturnsTheRegister : Prop :=
  ∀ (s : State) (addr : Addr) (val : Byte), s.ready = true → Unwatched s → TransfersComplete 2 s →
    ∃ (t : State) (d : Nat → Byte), exec (.rdreg addr val) s = .next t
      ∧ t.block = { afterCommand 0x01 addr val s.block with tmp := d 1, rx := d 1, result := d 1, csn := true }
      ∧ t.trace = s.trace ++ readFrame s.cfg addr (d 0) (d 1) ∧ OutsideAfter 2 0 s t

/-- R123: WRREG is one write frame carrying val; RESULT is unchanged. -/
def Obligations.WrregSendsTheValue : Prop :=
  ∀ (s : State) (addr : Addr) (val : Byte), s.ready = true → Unwatched s → TransfersComplete 2 s →
    ∃ (t : State) (d : Nat → Byte), exec (.wrreg addr val) s = .next t
      ∧ t.block = { afterCommand 0x02 addr val s.block with rx := d 1, csn := true }
      ∧ t.trace = s.trace ++ writeFrame s.cfg addr val (d 0) (d 1) ∧ OutsideAfter 2 0 s t

/-- R124, S1: WRADDR, command word {0x03, 0b000, addr, val}, streams ABUF[0] to ABUF[4] in order in one frame; ABUF and RESULT
are unchanged. -/
def Obligations.WraddrStreamsTheFiveBytes : Prop :=
  ∀ (s : State) (addr : Addr) (val : Byte), s.ready = true → Unwatched s → TransfersComplete 6 s →
    decodeCommand (0x03#8 ++ 0b000#3 ++ addr ++ val) = .ok (.wraddr addr val)
      ∧ ∃ (t : State) (d : Nat → Byte), exec (.wraddr addr val) s = .next t
        ∧ t.block = { afterCommand 0x03 addr val s.block with rx := d 5, csn := true }
        ∧ t.trace = s.trace ++ addrFrame s.cfg addr s.abuf d 0 ∧ OutsideAfter 6 0 s t

/-- R101, R31: under the oracle peer the scripted bytes are the bytes received, here through RDREG. -/
def Obligations.RdregReceivesWhatTheOracleAnswers : Prop :=
  ∀ (s : State) (addr : Addr) (val r0 r1 : Byte) (rest : List Answer), s.ready = true → Unwatched s → s.peer.kind = .oracle →
    s.answers = .byte r0 :: .byte r1 :: rest →
    ∃ t, exec (.rdreg addr val) s = .next t ∧ t.result = r1 ∧ t.trace = s.trace ++ readFrame s.cfg addr r0 r1
      ∧ t.answers = rest

/-! ## Transceiver Control -/

/-- R141: GET_STATUS is one no-op transfer in a frame; RESULT is the byte received in it. -/
def Obligations.GetStatusReturnsTheStatusByte : Prop :=
  ∀ (s : State) (addr : Addr) (val : Byte), s.ready = true → Unwatched s → TransfersComplete 1 s →
    ∃ (t : State) (d : Nat → Byte), exec (.getStatus addr val) s = .next t
      ∧ t.block = { afterCommand 0x04 addr val s.block with tmp := d 0, rx := d 0, result := d 0, csn := true }
      ∧ t.trace = s.trace ++ shortFrame s.cfg s.cfg.opcNop (d 0) ∧ OutsideAfter 1 0 s t

/-- R142, R143: each flush is one frame with its opcode; RESULT is unchanged. -/
def Obligations.FlushesSendTheirOpcode : Prop :=
  ∀ (s : State) (addr : Addr) (val : Byte), s.ready = true → Unwatched s → TransfersComplete 1 s →
    (∃ (t : State) (d : Nat → Byte), exec (.flushTx addr val) s = .next t
        ∧ t.block = { afterCommand 0x05 addr val s.block with rx := d 0, csn := true }
        ∧ t.trace = s.trace ++ shortFrame s.cfg s.cfg.opcFlushTx (d 0) ∧ OutsideAfter 1 0 s t)
      ∧ (∃ (t : State) (d : Nat → Byte), exec (.flushRx addr val) s = .next t
        ∧ t.block = { afterCommand 0x06 addr val s.block with rx := d 0, csn := true }
        ∧ t.trace = s.trace ++ shortFrame s.cfg s.cfg.opcFlushRx (d 0) ∧ OutsideAfter 1 0 s t)

/-- R155, R145: RESET_STATUS writes M_ST_ALL to the status register in one frame; RESULT is unchanged. -/
def Obligations.ResetStatusWritesAllFlags : Prop :=
  ∀ (s : State) (addr : Addr) (val : Byte), s.ready = true → Unwatched s → TransfersComplete 2 s →
    ∃ (t : State) (d : Nat → Byte), exec (.resetStatus addr val) s = .next t
      ∧ t.block = { afterCommand 0x07 addr val s.block with rx := d 1, csn := true }
      ∧ t.trace = s.trace ++ writeFrame s.cfg s.cfg.regStatus (mStAll s.cfg) (d 0) (d 1) ∧ OutsideAfter 2 0 s t

/-- R146, R147, R148: ENTER_TX, its exact order, each round trip writing back what its own read returned; it leaves CE = 0 and
MODE = Transmitting, and RESULT, RXCNT, the buffers and IRQ_EN as they were. -/
def Obligations.EnterTxFollowsItsSequence : Prop :=
  ∀ (s : State) (addr : Addr) (val : Byte), s.ready = true → Unwatched s → TransfersComplete 15 s →
    ∃ (t : State) (d : Nat → Byte), exec (.enterTx addr val) s = .next t
      ∧ t.block =
        { afterCommand 0x08 addr val s.block with tmp := d 12, rx := d 14, csn := true, ce := false, mode := .transmitting }
      ∧ t.trace = s.trace ++ enterTxEvents s.cfg d 0 ∧ OutsideAfter 15 0 s t

/-- R149, R148: ENTER_RX, its exact order; it leaves CE = 1 and MODE = Listening, and RESULT, RXCNT, the buffers and IRQ_EN as
they were. -/
def Obligations.EnterRxFollowsItsSequence : Prop :=
  ∀ (s : State) (addr : Addr) (val : Byte), s.ready = true → Unwatched s → TransfersComplete 11 s →
    ∃ (t : State) (d : Nat → Byte), exec (.enterRx addr val) s = .next t
      ∧ t.block =
        { afterCommand 0x09 addr val s.block with tmp := d 8, rx := d 10, csn := true, ce := true, mode := .listening }
      ∧ t.trace = s.trace ++ enterRxEvents s.cfg d 0 ∧ OutsideAfter 11 0 s t

/-- R152: SEND in Transmitting flushes, streams TXBUF[0] to TXBUF[7] in one frame, waits, and pulses CE; MODE, TXBUF and RESULT
are unchanged. -/
def Obligations.SendStreamsThePayload : Prop :=
  ∀ (s : State) (addr : Addr) (val : Byte), s.ready = true → Unwatched s → s.mode = .transmitting → TransfersComplete 10 s →
    ∃ (t : State) (d : Nat → Byte), exec (.send addr val) s = .next t
      ∧ t.block = { afterCommand 0x0A addr val s.block with rx := d 9, csn := true, ce := false }
      ∧ t.trace = s.trace ++ sendEvents s.cfg s.txbuf d 0 ∧ OutsideAfter 10 0 s t

/-- R152, R230: SEND outside Transmitting sets FAULT bit 1, makes no trace event and changes nothing else. -/
def Obligations.SendOutsideTransmittingRaisesBadMode : Prop :=
  ∀ (s : State) (addr : Addr) (val : Byte), s.ready = true → Unwatched s → s.mode ≠ .transmitting →
    ∃ t, exec (.send addr val) s = .next t
      ∧ t.block = { afterCommand 0x0A addr val s.block with fault := s.fault ||| 0b0010 }
      ∧ t.trace = s.trace ∧ OutsideAfter 0 0 s t

/-- R154: IS_SENDING is one status frame; RESULT is 0x01 when neither data-sent nor max-retries is set in the byte received,
0x00 when either is. -/
def Obligations.IsSendingTestsTheTwoFlags : Prop :=
  ∀ (s : State) (addr : Addr) (val : Byte), s.ready = true → Unwatched s → TransfersComplete 1 s →
    ∃ (t : State) (d : Nat → Byte), exec (.isSending addr val) s = .next t
      ∧ t.block =
        { afterCommand 0x0B addr val s.block with
          tmp := d 0
          rx := d 0
          result := if d 0 &&& s.cfg.mTxDs = 0 ∧ d 0 &&& s.cfg.mMaxRt = 0 then 0x01 else 0x00
          csn := true }
      ∧ t.trace = s.trace ++ shortFrame s.cfg s.cfg.opcNop (d 0) ∧ OutsideAfter 1 0 s t

/-- R156: CONFIGURE writes the eight registers in the sentence's order and then enters Listening; ABUF, RESULT, RXCNT and
IRQ_EN are unchanged. -/
def Obligations.ConfigureWritesTheEightRegisters : Prop :=
  ∀ (s : State) (addr : Addr) (val : Byte), s.ready = true → Unwatched s → TransfersComplete 35 s →
    ∃ (t : State) (d : Nat → Byte), exec (.configure addr val) s = .next t
      ∧ t.block =
        { afterCommand 0x0C addr val s.block with
          tmp := d 32, rx := d 34, csn := true, ce := true, mode := .listening }
      ∧ t.trace = s.trace ++ configureEvents s.cfg d ∧ OutsideAfter 35 0 s t

/-! ## Host control -/

/-- R181, R182: CE_SET and CE_CLR, codes 0x10 and 0x11, drive CE, whatever its level and MODE, with its event; MODE is
unchanged. -/
def Obligations.ChipEnableOperationsDriveCe : Prop :=
  ∀ (s : State) (addr : Addr) (val : Byte), s.ready = true → Unwatched s →
    decodeCommand (0x10#8 ++ 0b000#3 ++ addr ++ val) = .ok (.ceSet addr val)
      ∧ decodeCommand (0x11#8 ++ 0b000#3 ++ addr ++ val) = .ok (.ceClr addr val)
      ∧ (∃ t, exec (.ceSet addr val) s = .next t ∧ t.block = { afterCommand 0x10 addr val s.block with ce := true }
        ∧ t.trace = s.trace ++ [.ce true] ∧ OutsideAfter 0 0 s t)
      ∧ (∃ t, exec (.ceClr addr val) s = .next t ∧ t.block = { afterCommand 0x11 addr val s.block with ce := false }
        ∧ t.trace = s.trace ++ [.ce false] ∧ OutsideAfter 0 0 s t)

/-- R183, R184: IRQ_ON and IRQ_OFF, codes 0x12 and 0x13, write IRQ_EN with no trace event; a pending interrupt stays pending. R213:
after IRQ_ON it is due, so that no command is accepted before the handler, and the step after IRQ_ON, with no RST in it, is the
capture. A command is accepted only with no interrupt due. -/
def Obligations.InterruptOperationsWriteTheEnable : Prop :=
  ∀ (s : State) (addr : Addr) (val : Byte), s.ready = true → Unwatched s →
    decodeCommand (0x12#8 ++ 0b000#3 ++ addr ++ val) = .ok (.irqOn addr val)
      ∧ decodeCommand (0x13#8 ++ 0b000#3 ++ addr ++ val) = .ok (.irqOff addr val)
      ∧ s.irqDue = false
      ∧ (∃ t, exec (.irqOn addr val) s = .next t ∧ t.block = { afterCommand 0x12 addr val s.block with irqEn := true }
        ∧ t.trace = s.trace ∧ OutsideAfter 0 0 s t
        ∧ (s.irqPend = true → t.seq = .idle ∧ t.irqEn = true ∧ t.irqPend = true ∧ t.ready = false
          ∧ (s.cfg.wellFormed = true → NoRst s → s.busOut = none →
            step t = .next (capture { t with host := hostAfterWait t }))))
      ∧ (∃ t, exec (.irqOff addr val) s = .next t ∧ t.block = { afterCommand 0x13 addr val s.block with irqEn := false }
        ∧ t.trace = s.trace ∧ OutsideAfter 0 0 s t)

/-- R185: CNT_CLR, code 0x14, sets RXCNT to zero with no trace event; RXBUF and FAULT are unchanged. -/
def Obligations.CntClrZeroesTheCounter : Prop :=
  ∀ (s : State) (addr : Addr) (val : Byte), s.ready = true → Unwatched s →
    decodeCommand (0x14#8 ++ 0b000#3 ++ addr ++ val) = .ok (.cntClr addr val)
      ∧ ∃ t, exec (.cntClr addr val) s = .next t
        ∧ t.block = { afterCommand 0x14 addr val s.block with rxcnt := 0 }
        ∧ t.trace = s.trace ∧ OutsideAfter 0 0 s t

/-- R186: ABUF_WR, command word {0x15, 0b000, i, val}, writes one byte of ABUF; an index of 5 to 31 only sets FAULT bit 0. -/
def Obligations.AbufWrWritesOneByte : Prop :=
  ∀ (s : State) (addr : Addr) (val : Byte), s.ready = true → Unwatched s →
    decodeCommand (0x15#8 ++ 0b000#3 ++ addr ++ val) = .ok (.abufWr addr val)
      ∧ ∃ t, exec (.abufWr addr val) s = .next t ∧ t.trace = s.trace ∧ OutsideAfter 0 0 s t
        ∧ (if h : addr.toNat < 5 then
            t.block = { afterCommand 0x15 addr val s.block with abuf := s.abuf.set addr.toNat val }
          else t.block = { afterCommand 0x15 addr val s.block with fault := s.fault ||| 0b0001 })

/-- R187: TXBUF_WR, command word {0x16, 0b000, i, val}, writes one byte of TXBUF; an index of 8 to 31 only sets FAULT bit 0. It
is not accepted while RUNNING = 1. -/
def Obligations.TxbufWrWritesOneByte : Prop :=
  ∀ (s : State) (addr : Addr) (val : Byte), s.ready = true → Unwatched s →
    decodeCommand (0x16#8 ++ 0b000#3 ++ addr ++ val) = .ok (.txbufWr addr val) ∧ s.running = false
      ∧ ∃ t, exec (.txbufWr addr val) s = .next t ∧ t.trace = s.trace ∧ OutsideAfter 0 0 s t
        ∧ (if h : addr.toNat < 8 then
            t.block = { afterCommand 0x16 addr val s.block with txbuf := s.txbuf.set addr.toNat val }
          else t.block = { afterCommand 0x16 addr val s.block with fault := s.fault ||| 0b0001 })

/-- R188: RUN sets RUNNING, nlpc = NL_CHECK and POLLCNT = 0 with no trace event; from then on the block is busy. -/
def Obligations.RunStartsTheNodeLoop : Prop :=
  ∀ (s : State) (addr : Addr) (val : Byte), s.ready = true → Unwatched s →
    ∃ t, exec (.run addr val) s = .next t
      ∧ t.block = { afterCommand 0x20 addr val s.block with running := true, nlpc := .check, pollcnt := 0 }
      ∧ t.trace = s.trace ∧ OutsideAfter 0 0 s t ∧ t.busy = true ∧ t.ready = false

/-! ## The wire command bytes -/

/-- R76, R101: each wire command exchanges its own command byte, and nothing else of the block changes. That a wire row of the opcode
table runs by itself, as one exchange of its byte in any state, with a frame open or not, is the model's own choice (log entry 12,
DESIGN CHOICE): by R102 the block transfers only inside its frames, and the host cannot call Xfer. -/
def Obligations.WireCommandsExchangeTheirByte : Prop :=
  ∀ (s : State) (a : Addr), TransfersComplete 1 s →
    (∃ t r, exec (.wRRegister a) s = .next t ∧ t.block = { s.block with rx := r }
        ∧ t.trace = s.trace ++ [.x (s.cfg.opcRRegister ||| a.setWidth 8) r] ∧ t.busOut = none ∧ OutsideAfter 1 0 s t)
      ∧ (∃ t r, exec (.wWRegister a) s = .next t ∧ t.block = { s.block with rx := r }
        ∧ t.trace = s.trace ++ [.x (s.cfg.opcWRegister ||| a.setWidth 8) r] ∧ t.busOut = none ∧ OutsideAfter 1 0 s t)
      ∧ (∃ t r, exec .wRRxPayload s = .next t ∧ t.block = { s.block with rx := r }
        ∧ t.trace = s.trace ++ [.x s.cfg.opcRRxPayload r] ∧ t.busOut = none ∧ OutsideAfter 1 0 s t)
      ∧ (∃ t r, exec .wWTxPayload s = .next t ∧ t.block = { s.block with rx := r }
        ∧ t.trace = s.trace ++ [.x s.cfg.opcWTxPayload r] ∧ t.busOut = none ∧ OutsideAfter 1 0 s t)
      ∧ (∃ t r, exec .wFlushTx s = .next t ∧ t.block = { s.block with rx := r }
        ∧ t.trace = s.trace ++ [.x s.cfg.opcFlushTx r] ∧ t.busOut = none ∧ OutsideAfter 1 0 s t)
      ∧ (∃ t r, exec .wFlushRx s = .next t ∧ t.block = { s.block with rx := r }
        ∧ t.trace = s.trace ++ [.x s.cfg.opcFlushRx r] ∧ t.busOut = none ∧ OutsideAfter 1 0 s t)
      ∧ (∃ t r, exec .wNop s = .next t ∧ t.block = { s.block with rx := r }
        ∧ t.trace = s.trace ++ [.x s.cfg.opcNop r] ∧ t.busOut = none ∧ OutsideAfter 1 0 s t)

/-- R57, R60: at the reference peer the command byte of an open frame is answered with the status byte, takes the frame's
command, and a flush empties its FIFO at once; the register bytes and the status flags do not change. The status is that
of the peer after the environment's move, `elapse s`. That the byte runs by itself, as its row of the opcode table, is the model's
own choice (log entry 12, DESIGN CHOICE). -/
def Obligations.CommandByteAtTheReferencePeer : Prop :=
  ∀ (s : State) (i : Instr) (b : Byte) (c : WireCmd), s.cfg.wellFormed = true → NoCollision s.cfg →
    encode s.cfg i = .wire b → decodeWireCmd s.cfg b = some c → s.peer.kind = .reference → s.csn = false → s.peer.idx = 0 →
    TransfersComplete 1 s →
    ∃ t, exec i s = .next t ∧ t.trace = s.trace ++ [.x b ((elapse s).peer.status)]
      ∧ t.peer.cmd = some c ∧ t.peer.idx = 1 ∧ t.peer.kind = .reference
      ∧ t.peer.txf = (if c = .flushTx then [] else (elapse s).peer.txf)
      ∧ t.peer.rxf = (if c = .flushRx then [] else (elapse s).peer.rxf)
      ∧ t.peer.st = (elapse s).peer.st ∧ MemoryKeptOutside [] s t

/-! ## The interrupt -/

/-- R212: IRQ_N is sampled in every value of SEQ. With a new level, a falling edge sets IRQ_PEND when IRQ_EN = 1 or IRQ_LATCH, and
nothing else does; IRQ_PREV takes the level: in an idle step, the Node Loop's listening among them, and in the middle of an operation, of
the handler or of a cycle, whatever its next micro-operation is and whether or not a wait holds it. There the host's look after that
micro-operation, a field of the model's own, ends the step (log entry 7). R211: over every step, IRQ_PEND falls only at handler entry
and at reset, and it does not rise when no falling edge comes: the environment drives no level down, and the line is at the level last
sampled or above it, which at the reference peer asks that no flag pulls it (R62). -/
def Obligations.FallingEdgeSetsPending : Prop :=
  (∀ (s : State) (level : Bool) (rest : List EnvMove), s.cfg.wellFormed = true → NoRst s → s.seq = .idle → s.busOut = none →
      s.irqDue = false → (s.running = true → s.nlpc = .check ∧ s.rxcnt.toNat ≠ 8) → (s.running = false → presented s = none) →
      s.peer.kind = .oracle → s.env = .irq level :: rest →
      ∃ t, step s = .next t ∧ t.block = s.block ∧ t.trace = s.trace ∧ t.irqPrev = level
        ∧ (t.irqPend = true ↔
          s.irqPend = true ∨ (s.irqPrev = true ∧ level = false ∧ (s.irqEn = true ∨ s.cfg.irqLatch = true))))
    ∧ (∀ (s : State) (m : Micro) (ms : List Micro) (looks : List Nat) (level : Bool) (rest : List EnvMove),
      s.cfg.wellFormed = true → NoRst s → s.seq ≠ .idle → s.todo = m :: ms → s.looks = 1 :: looks → s.peer.kind = .oracle →
      s.env = .irq level :: rest →
      ∃ t, step s = .next t ∧ t.irqPrev = level ∧ t.env = rest
        ∧ (t.irqPend = true ↔
          s.irqPend = true ∨ (s.irqPrev = true ∧ level = false ∧ (s.irqEn = true ∨ s.cfg.irqLatch = true))))
    ∧ (∀ s t : State, step s = .next t → s.irqPend = true → t.irqPend = false →
      rstDue s = true ∨ (s.seq = .idle ∧ s.busOut = none ∧ s.irqEn = true))
    ∧ (∀ s t : State, NoFallComing s → (s.peer.kind = .reference → s.peer.st = 0) → step s = .next t → s.irqPend = false →
      t.irqPend = false)

/-- R213: with SEQ = Idle and an enabled interrupt pending the step enters the handler, whatever command waits and whether or
not the Node Loop runs. -/
def Obligations.DueInterruptGoesFirst : Prop :=
  ∀ s : State, s.cfg.wellFormed = true → NoRst s → s.seq = .idle → s.busOut = none → s.irqEn = true → s.irqPend = true →
    step s = .next (capture { s with host := hostAfterWait s })

/-- R214 to R218, R222: the whole capture. IRQ_EN and CE end at 0, CSN at 1, RXBUF holds the eight bytes in order, each was
echoed, RXCNT is raised by the number of sentinels up to PAYLOAD_LEN, CNT_OVERRUN is set exactly when that would pass it,
the receive flag is cleared; MODE, RESULT, OP, the argument registers, ABUF, TXBUF and the Node Loop's state are unchanged.
IRQ_PEND, which entry clears (R215), is 0 at the end when no falling edge comes meanwhile (R211). -/
def Obligations.CaptureReadsEightBytes : Prop :=
  ∀ s : State, s.seq = .idle → Unwatched s → s.rxcnt.toNat ≤ 8 → TransfersComplete 11 s → EchoesComplete 8 s →
    (∃ d : Nat → Byte,
        (capture s).block =
            { s.block with
              upc := 0, irqEn := false, ce := false, csn := true, tmp := d 8, rx := d 10
              rxbuf := #v[d 1, d 2, d 3, d 4, d 5, d 6, d 7, d 8]
              rxcnt := BitVec.ofNat cntW (min 8 (s.rxcnt.toNat + sentinels d))
              fault := if 8 < s.rxcnt.toNat + sentinels d then s.fault ||| 0b0100 else s.fault }
          ∧ (capture s).trace = s.trace ++ captureEvents s.cfg d
          ∧ (capture s).host = s.host ∧ (capture s).answers = s.answers.drop 11 ∧ (capture s).dbg = s.dbg.drop 8)
      ∧ (s.cfg.wellFormed = true → NoFallComing s → (capture s).irqPend = false)

/-- R20: RXCNT stays in [0, PAYLOAD_LEN] over every step. -/
def Obligations.CounterStaysWithinPayloadLength : Prop :=
  ∀ s t : State, s.rxcnt.toNat ≤ 8 → step s = .next t → t.rxcnt.toNat ≤ 8

/-! ## The Node Loop -/

/-- R190, R191: at NL_CHECK with RXCNT = 8 the step clears RXCNT, enters transmit mode and sends TXBUF; it is then inside the
cycle, about to poll, with the sequencer not idle. Two choices of the model stand in this (DESIGN CHOICE): the cycle starts in the
first step that finds its condition, where R190 and D30 bound nothing (log entry 31), and the step ends at the label `poll:` (log
entry 9). upc counts the 103 events and writes up to there (R12). -/
def Obligations.CycleTransmitsThePayload : Prop :=
  ∀ s : State, s.cfg.wellFormed = true → NoRst s → s.seq = .idle → s.busOut = none → s.running = true → s.nlpc = .check →
    s.irqDue = false → s.rxcnt = 8 → Unwatched s → TransfersComplete 25 s →
    ∃ (t : State) (d : Nat → Byte), step s = .next t
      ∧ t.block =
        { s.block with
          seq := .op, upc := 103, rxcnt := 0, nlpc := .poll, pollcnt := 0, tmp := d 12, rx := d 24, csn := true, ce := false
          mode := .transmitting }
      ∧ t.todo = pollProgram s.cfg
      ∧ t.trace = s.trace ++ enterTxEvents s.cfg d 0 ++ sendEvents s.cfg s.txbuf d 15

/-- R192, R194: a poll that finds the send still going on is one status frame and counts; the n-th with MAX_POLL = n goes to
`timeout:`, which raises POLL_TIMEOUT and stops the Node Loop, with CE, MODE, IRQ_EN and RXCNT as they were. `d0` is whatever byte
either kind of peer answers. That a step starts at the label `poll:` and ends at the next label is the model's choice of where its
steps end (log entry 9, DESIGN CHOICE); upc goes on by the poll's eight events and writes (R12). -/
def Obligations.PollStillSendingCountsOrTimesOut : Prop :=
  (∀ s : State, s.cfg.wellFormed = true → NoRst s → s.seq = .op → s.todo = pollProgram s.cfg → Unwatched s →
      TransfersComplete 1 s →
      ∃ (t : State) (d0 : Byte), step s = .next t ∧ s.trace ++ shortFrame s.cfg s.cfg.opcNop d0 <+: t.trace
        ∧ (d0 &&& (s.cfg.mTxDs ||| s.cfg.mMaxRt) = 0 →
          t.trace = s.trace ++ shortFrame s.cfg s.cfg.opcNop d0
            ∧ t.block = { s.block with upc := s.upc + 8, pollcnt := s.pollcnt + 1, tmp := d0, rx := d0, csn := true }
            ∧ t.todo =
              if ∃ n, s.cfg.maxPoll = some n ∧ n ≤ s.pollcnt + 1 then timeoutProgram else pollProgram s.cfg))
    ∧ (∀ s : State, s.cfg.wellFormed = true → NoRst s → s.seq = .op → s.todo = timeoutProgram → Unwatched s →
      ∃ t, step s = .next t ∧ t.trace = s.trace
        ∧ t.block =
          { s.block with
            seq := .idle, upc := 0, running := false, nlpc := .check, pollcnt := 0, fault := s.fault ||| 0b1000 })

/-- R192, R193: a poll that finds the send finished, well or by max-retries, is followed by RESET_STATUS, ENTER_RX, CE = 1 once
more and IRQ_EN = 1, and the cycle ends. `d 0` is whatever status byte either kind of peer answers. That the step starts at the
label `poll:` is the model's choice of where its steps end (log entry 9, DESIGN CHOICE). -/
def Obligations.PollFinishedReturnsToListening : Prop :=
  ∀ s : State, s.cfg.wellFormed = true → NoRst s → s.seq = .op → s.todo = pollProgram s.cfg → Unwatched s →
    TransfersComplete 14 s →
    ∃ (t : State) (d : Nat → Byte), step s = .next t ∧ s.trace ++ shortFrame s.cfg s.cfg.opcNop (d 0) <+: t.trace
      ∧ (d 0 &&& (s.cfg.mTxDs ||| s.cfg.mMaxRt) ≠ 0 →
        t.block =
            { s.block with
              seq := .idle, upc := 0, nlpc := .check, pollcnt := 0, tmp := d 11, rx := d 13, csn := true, ce := true
              irqEn := true, mode := .listening }
          ∧ t.trace =
            s.trace ++ shortFrame s.cfg s.cfg.opcNop (d 0)
              ++ writeFrame s.cfg s.cfg.regStatus (mStAll s.cfg) (d 1) (d 2)
              ++ enterRxEvents s.cfg d 3 ++ [.ce true])

/-- R190, R189: at NL_CHECK with the bus free, no interrupt due and RXCNT not 8, the step is the Node Loop's idle iteration: nothing of
the block changes and no trace event is made, so a waiting word waits on. R197, P5: the dead end, where that iteration is the last, is
kept by every step without RST, whatever the environment does: no command accepted, RXCNT, IRQ_EN and CE unchanged. -/
def Obligations.NodeLoopIdlesAndDeadEndIsForEver : Prop :=
  (∀ s : State, s.cfg.wellFormed = true → NoRst s → s.running = true → s.seq = .idle → s.busOut = none → s.nlpc = .check →
      s.irqDue = false → s.rxcnt.toNat ≠ 8 →
      ∃ t, step s = .next t ∧ t.block = s.block ∧ t.trace = s.trace ∧ t.host = hostAfterWait s)
    ∧ ∀ s : State, s.cfg.wellFormed = true → NoRst s → DeadEnd s →
      ∃ t, step s = .next t ∧ DeadEnd t ∧ t.block = s.block ∧ t.trace = s.trace ∧ t.host = hostAfterWait s

/-! ## Waits that never end -/

/-- R103, R222, R266: while the coming transfer, or the coming handshake of the debug channel, never completes, every step leaves the
block, the trace, what is left to do and the script as they are. -/
def Obligations.WaitsThatNeverEndHoldTheSequencer : Prop :=
  (∀ (s : State) (m : Micro) (ms : List Micro) (rest : List Answer), s.cfg.wellFormed = true → NoRst s → s.seq ≠ .idle →
      s.todo = m :: ms → transfersByte m = true → s.answers = .never :: rest →
      ∃ t, step s = .next t ∧ t.block = s.block ∧ t.trace = s.trace ∧ t.todo = s.todo ∧ t.answers = s.answers
        ∧ (Unwatched s → t.busOut.isSome = true))
    ∧ (∀ (s : State) (ms : List Micro) (rest : List Ready), s.cfg.wellFormed = true → NoRst s → s.seq ≠ .idle →
      s.todo = .echo :: ms → s.dbg = .never :: rest →
      ∃ t, step s = .next t ∧ t.block = s.block ∧ t.trace = s.trace ∧ t.todo = s.todo ∧ t.dbg = s.dbg)

/-- R12, R101, R222, R250, R274: an operation or the handler that the host looks at, or that a late transfer or a late debug
handshake holds, goes on where it stopped. Looked at after n micro-operations, the operation has upc = n and has made a part of its
trace, and the step after the look ends where the operation unwatched ends; so does the handler. The step after a transfer that was
late ends where the operation, or the handler, ends without the lateness, while the environment is quiet; and so does the step after a
byte that the debug channel took late, that byte among its events. Where the host looks is a field of the model's own (log entry 7). -/
def Obligations.HeldSequencesGoOnWhereTheyStopped : Prop :=
  (∀ (i : Instr) (s t u : State) (n : Nat), s.cfg.wellFormed = true → s.ready = true → s.host = [] → Unwatched s →
      s.answers.all completing = true → exec i s = .next u → exec i { s with looks := [n] } = .next t → t.seq = .op →
      t.upc = n ∧ t.trace <+: u.trace ∧ step t = .next u)
    ∧ (∀ (i : Instr) (s t u : State) (before after : List Answer), s.cfg.wellFormed = true → s.ready = true → s.host = [] →
      Unwatched s → s.env = [] → before.all completing = true →
      exec i { s with answers := before ++ after } = .next u →
      exec i { s with answers := before ++ .late :: after } = .next t → t.seq = .op →
      t.trace <+: u.trace ∧ t.busOut.isSome = true ∧ step t = .next u)
    ∧ (∀ (s t : State) (n : Nat), s.cfg.wellFormed = true → s.host = [] → Unwatched s → s.answers.all completing = true →
      s.dbg.all accepting = true → capture { s with looks := [n] } = t → t.seq = .handler →
      t.trace <+: (capture s).trace ∧ step t = .next (capture s))
    ∧ (∀ (s t u : State) (before after : List Answer), s.cfg.wellFormed = true → s.host = [] → Unwatched s → s.env = [] →
      before.all completing = true → s.dbg.all accepting = true → capture { s with answers := before ++ after } = u →
      capture { s with answers := before ++ .late :: after } = t → t.seq = .handler →
      t.trace <+: u.trace ∧ t.busOut.isSome = true ∧ step t = .next u)
    ∧ (∀ (s t u : State) (before after : List Ready), s.cfg.wellFormed = true → s.host = [] → Unwatched s → s.env = [] →
      before.all accepting = true → s.answers.all completing = true → capture { s with dbg := before ++ after } = u →
      capture { s with dbg := before ++ .late :: after } = t → t.seq = .handler →
      t.trace <+: u.trace ∧ t.todo.head? = some .echo ∧ step t = .next u)

/-! ## Invariants and whole-machine rules -/

/-- R110, R12, R103: every step keeps the sequencer's invariant; what is left of the micro-sequence is the model's own field (log
entry 18). -/
def Obligations.StepKeepsSequencerInvariant : Prop :=
  ∀ s t : State, SequencerInv s → step s = .next t → SequencerInv t

/-- R56: every step keeps the peer's register bytes canonical, ST within M_ST_ALL, ST_LOW outside it and each FIFO within its three
payloads. -/
def Obligations.StepKeepsPeerInvariant : Prop := ∀ s t : State, PeerInv s → step s = .next t → PeerInv t

/-- R33, R110, R56: both invariants hold at reset; the peer's contents there are the model's choice (log entries 13 and 15). -/
def Obligations.InvariantsHoldAtReset : Prop := SequencerInv State.reset ∧ PeerInv State.reset

/-- R24, R230: a fault flag, once set, stays set over every step without RST. -/
def Obligations.FaultFlagsAreSticky : Prop :=
  ∀ (s t : State) (k : Fault), NoRst s → s.fault &&& faultBit k ≠ 0 → step s = .next t → t.fault &&& faultBit k ≠ 0

/-- R5, R25, R31: no step changes the configuration, OWN_ADDR and PEER_ADDR among it. -/
def Obligations.ConfigurationNeverChanges : Prop := ∀ s t : State, step s = .next t → t.cfg = s.cfg

/-- R15, R17, R18, R20, R21, R23: which instructions can write RESULT, MODE, RXCNT, IRQ_EN, ABUF, TXBUF; no instruction writes
RXBUF. It holds also of a run that a wait holds midway. -/
def Obligations.OnlyTheirInstructionsWriteRegisters : Prop :=
  ∀ (i : Instr) (s t : State), exec i s = .next t →
    ((∀ a v, i ≠ .rdreg a v ∧ i ≠ .getStatus a v ∧ i ≠ .isSending a v) → t.result = s.result)
      ∧ ((∀ a v, i ≠ .enterTx a v ∧ i ≠ .enterRx a v ∧ i ≠ .configure a v) → t.mode = s.mode)
      ∧ ((∀ a v, i ≠ .cntClr a v) → t.rxcnt = s.rxcnt)
      ∧ ((∀ a v, i ≠ .irqOn a v ∧ i ≠ .irqOff a v) → t.irqEn = s.irqEn)
      ∧ ((∀ a v, i ≠ .abufWr a v) → t.abuf = s.abuf)
      ∧ ((∀ a v, i ≠ .txbufWr a v) → t.txbuf = s.txbuf)
      ∧ t.rxbuf = s.rxbuf

/-- R41, R28, R30: the instructions that store in no register of the peer leave every byte of its registers as it was,
completed or not. RESET_STATUS writes the status register, which stores nothing (R45). A wire command byte is a frame's first
byte (R57), and runs by itself by the model's choice (log entry 12). -/
def Obligations.NonStoringInstructionsKeepPeerMemory : Prop :=
  ∀ (i : Instr) (s t : State), s.cfg.wellFormed = true → exec i s = .next t →
    (∀ a v, i ≠ .wrreg a v ∧ i ≠ .wraddr a v ∧ i ≠ .enterTx a v ∧ i ≠ .enterRx a v ∧ i ≠ .configure a v) →
    (∀ b, encode s.cfg i = .wire b → s.peer.idx = 0) →
    MemoryKeptOutside [] s t

/-- R41, R30, R45, R59: the instructions that store in the peer's registers change no byte outside the ones they store to:
WRREG byte 0 of its register, WRADDR the five bytes, the transitions byte 0 of the configuration register, CONFIGURE the eight
registers of R30 and the configuration register. -/
def Obligations.StoringInstructionsKeepOtherPeerMemory : Prop :=
  ∀ (s t : State) (addr : Addr) (val : Byte), s.cfg.wellFormed = true →
    (exec (.wrreg addr val) s = .next t → MemoryKeptOutside [regCell addr 0] s t)
      ∧ (exec (.wraddr addr val) s = .next t →
        MemoryKeptOutside [regCell addr 0, regCell addr 1, regCell addr 2, regCell addr 3, regCell addr 4] s t)
      ∧ (exec (.enterTx addr val) s = .next t → MemoryKeptOutside [regCell s.cfg.regConfig 0] s t)
      ∧ (exec (.enterRx addr val) s = .next t → MemoryKeptOutside [regCell s.cfg.regConfig 0] s t)
      ∧ (exec (.configure addr val) s = .next t →
        MemoryKeptOutside
          [regCell s.cfg.regEnRxaddr 0, regCell s.cfg.regSetupAw 0, regCell s.cfg.regRfCh 0, regCell s.cfg.regRfSetup 0,
            regCell s.cfg.regRxAddrP0 0, regCell s.cfg.regRxAddrP0 1, regCell s.cfg.regRxAddrP0 2,
            regCell s.cfg.regRxAddrP0 3, regCell s.cfg.regRxAddrP0 4, regCell s.cfg.regTxAddr 0,
            regCell s.cfg.regTxAddr 1, regCell s.cfg.regTxAddr 2, regCell s.cfg.regTxAddr 3, regCell s.cfg.regTxAddr 4,
            regCell s.cfg.regRxPwP0 0, regCell s.cfg.regSetupRetr 0, regCell s.cfg.regConfig 0] s t)

/-! ## Against the reference peer -/

/-- R125, S3: at the reference peer, undisturbed, for every address but REG_STATUS and every byte v, WRREG addr, v and then RDREG addr ends
with RESULT = v. The second command runs when the block is ready for it. CE is not left high over a radio in transmit configuration,
where the peer is unconstrained (R263, U12; log entry 28). -/
def Obligations.WrittenRegisterReadsBack : Prop :=
  ∀ (s t : State) (addr : Addr) (v w : Byte), s.cfg.wellFormed = true → NoCollision s.cfg → addr ≠ s.cfg.regStatus →
    Memory.wf s.peer.mem = true → s.peer.kind = .reference → s.env = [] → s.ready = true → Unwatched s → TransfersComplete 4 s →
    (s.ce = true → s.peer.transmits s.cfg = false
      ∧ (addr = s.cfg.regConfig → v &&& s.cfg.mPwrUp = 0 ∨ v &&& s.cfg.mPrimRx ≠ 0)) →
    exec (.wrreg addr v) s = .next t →
    t.ready = true → ∃ u, exec (.rdreg addr w) t = .next u ∧ u.result = v

/-- R124, R59, R42, P4; R156, R30, R149, P2: at the reference peer, undisturbed, WRADDR leaves ABUF in the five bytes of its
register, and CONFIGURE leaves in the eight registers the values and addresses of its list, and in the configuration register what
ENTER_RX leaves there. -/
def Obligations.WraddrAndConfigureStoreTheirValues : Prop :=
  ∀ (s : State) (addr : Addr) (val : Byte), s.cfg.wellFormed = true → NoCollision s.cfg → s.peer.kind = .reference →
    Memory.wf s.peer.mem = true → s.env = [] → s.ready = true → Unwatched s →
    (addr ≠ s.cfg.regStatus → TransfersComplete 6 s →
        ∃ t, exec (.wraddr addr val) s = .next t
          ∧ ∀ k : Fin 5, Memory.read t.peer.mem (regCell addr k) = s.abuf[k])
      ∧ (TransfersComplete 35 s →
        ∃ t, exec (.configure addr val) s = .next t
          ∧ Memory.read t.peer.mem (regCell s.cfg.regEnRxaddr 0) = s.cfg.valEnRxaddr
          ∧ Memory.read t.peer.mem (regCell s.cfg.regSetupAw 0) = s.cfg.valSetupAw
          ∧ Memory.read t.peer.mem (regCell s.cfg.regRfCh 0) = s.cfg.valRfCh
          ∧ Memory.read t.peer.mem (regCell s.cfg.regRfSetup 0) = s.cfg.valRfSetup
          ∧ (∀ k : Fin 5, Memory.read t.peer.mem (regCell s.cfg.regRxAddrP0 k) = s.cfg.ownAddr[k])
          ∧ (∀ k : Fin 5, Memory.read t.peer.mem (regCell s.cfg.regTxAddr k) = s.cfg.peerAddr[k])
          ∧ Memory.read t.peer.mem (regCell s.cfg.regRxPwP0 0) = s.cfg.valRxPwP0
          ∧ Memory.read t.peer.mem (regCell s.cfg.regSetupRetr 0) = s.cfg.valSetupRetr
          ∧ t.peer.config s.cfg =
            (s.peer.config s.cfg ||| (s.cfg.mPwrUp ||| s.cfg.mPrimRx)) ||| (s.cfg.mMaskTxDs ||| s.cfg.mMaskMaxRt)
          ∧ t.peer.rxf = [] ∧ t.peer.st = s.peer.st &&& ~~~mStAll s.cfg)

/-- R45, R58, R141, T26: at the reference peer, undisturbed, GET_STATUS and RDREG of REG_STATUS leave the status byte, the flags with the
low bits, in RESULT, and nothing of the peer changes; R154, T25, S2: IS_SENDING answers by the flags. R45, R59, T15: WRREG to REG_STATUS
clears exactly the flags written with 1 and stores nothing; R155, T28: RESET_STATUS clears the three flags; R142, R143, R60, T27: each
flush empties its own FIFO and leaves the other and the flags. -/
def Obligations.StatusAndFlushesAtTheReferencePeer : Prop :=
  ∀ (s : State) (addr : Addr) (v : Byte), s.cfg.wellFormed = true → NoCollision s.cfg → s.peer.kind = .reference → s.env = [] →
    s.ready = true → Unwatched s → TransfersComplete 2 s →
    (∃ t, exec (.getStatus addr v) s = .next t ∧ t.result = (s.peer.st ||| s.peer.stLow)
        ∧ t.peer.st = s.peer.st ∧ t.peer.txf = s.peer.txf ∧ t.peer.rxf = s.peer.rxf ∧ MemoryKeptOutside [] s t)
      ∧ (∃ t, exec (.rdreg s.cfg.regStatus v) s = .next t ∧ t.result = (s.peer.st ||| s.peer.stLow)
        ∧ t.peer.st = s.peer.st ∧ t.peer.txf = s.peer.txf ∧ t.peer.rxf = s.peer.rxf ∧ MemoryKeptOutside [] s t)
      ∧ (s.peer.stLow &&& (s.cfg.mRxDr ||| s.cfg.mTxDs ||| s.cfg.mMaxRt) = 0 →
        ∃ t, exec (.isSending addr v) s = .next t
          ∧ t.result = (if s.peer.st &&& s.cfg.mTxDs = 0 ∧ s.peer.st &&& s.cfg.mMaxRt = 0 then 0x01 else 0x00)
          ∧ t.peer.st = s.peer.st ∧ t.peer.txf = s.peer.txf ∧ t.peer.rxf = s.peer.rxf ∧ MemoryKeptOutside [] s t)
      ∧ (∃ t, exec (.wrreg s.cfg.regStatus v) s = .next t
        ∧ t.peer.st = s.peer.st &&& ~~~(v &&& (s.cfg.mRxDr ||| s.cfg.mTxDs ||| s.cfg.mMaxRt))
        ∧ t.peer.txf = s.peer.txf ∧ t.peer.rxf = s.peer.rxf ∧ MemoryKeptOutside [] s t)
      ∧ (∃ t, exec (.resetStatus addr v) s = .next t
        ∧ t.peer.st = s.peer.st &&& ~~~(s.cfg.mRxDr ||| s.cfg.mTxDs ||| s.cfg.mMaxRt)
        ∧ t.peer.txf = s.peer.txf ∧ t.peer.rxf = s.peer.rxf ∧ MemoryKeptOutside [] s t)
      ∧ (∃ t, exec (.flushTx addr v) s = .next t ∧ t.peer.txf = [] ∧ t.peer.rxf = s.peer.rxf ∧ t.peer.st = s.peer.st
        ∧ MemoryKeptOutside [] s t)
      ∧ (∃ t, exec (.flushRx addr v) s = .next t ∧ t.peer.rxf = [] ∧ t.peer.txf = s.peer.txf ∧ t.peer.st = s.peer.st
        ∧ MemoryKeptOutside [] s t)

/-- R61, R62: the reference peer's radio events, each in the environment's move of an idle step, and the level of IRQ_N after it, which
the step samples. Deliver appends the payload and sets receive-data-ready when CE = 1, the radio is powered up and in receive and
there is room; SendDone ends a pending send, removing the payload and setting data-sent, or setting max-retries; where its event is
not enabled the move does nothing. A SendDone(true) with TXF empty is not part of this: the spec leaves it open (log entry 29). -/
def Obligations.RadioEventsAtTheReferencePeer : Prop :=
  ∀ (s : State) (m : EnvMove) (rest : List EnvMove), s.cfg.wellFormed = true → s.host = [] → s.seq = .idle →
    s.busOut = none → s.running = false → s.irqDue = false → s.peer.kind = .reference → s.env = m :: rest →
    ∃ t, step s = .next t ∧ t.block = s.block ∧ t.trace = s.trace ∧ t.env = rest
      ∧ (m = .quiet → t.peer = s.peer)
      ∧ (∀ pl, m = .deliver pl →
        t.peer =
          if s.ce = true ∧ s.peer.config s.cfg &&& s.cfg.mPwrUp ≠ 0 ∧ s.peer.config s.cfg &&& s.cfg.mPrimRx ≠ 0
              ∧ s.peer.rxf.length < 3 then
            { s.peer with rxf := s.peer.rxf ++ [pl], st := s.peer.st ||| s.cfg.mRxDr }
          else s.peer)
      ∧ (∀ pl queue, m = .sendDone true → s.peer.txf = pl :: queue →
        t.peer =
          if s.peer.pulse = true then { s.peer with pulse := false, txf := queue, st := s.peer.st ||| s.cfg.mTxDs } else s.peer)
      ∧ (m = .sendDone false →
        t.peer = if s.peer.pulse = true then { s.peer with pulse := false, st := s.peer.st ||| s.cfg.mMaxRt } else s.peer)
      ∧ (t.irqPrev = false ↔
        (t.peer.st &&& s.cfg.mRxDr ≠ 0 ∧ t.peer.config s.cfg &&& 0x40 = 0)
          ∨ (t.peer.st &&& s.cfg.mTxDs ≠ 0 ∧ t.peer.config s.cfg &&& s.cfg.mMaskTxDs = 0)
          ∨ (t.peer.st &&& s.cfg.mMaxRt ≠ 0 ∧ t.peer.config s.cfg &&& s.cfg.mMaskMaxRt = 0))

/-- R263, U12: CE_SET at the reference peer, undisturbed. In transmit configuration CE now stays high past the operation and with it
past the source's bound, so the peer is unconstrained; else the peer is as it was. That the end of the operation is where the bound is
passed is the model's choice (log entry 28). -/
def Obligations.CeLeftHighInTransmitFreesThePeer : Prop :=
  ∀ (s : State) (addr : Addr) (val : Byte), s.peer.kind = .reference → s.env = [] → s.ready = true → Unwatched s →
    ∃ t, exec (.ceSet addr val) s = .next t
      ∧ (s.peer.config s.cfg &&& s.cfg.mPwrUp ≠ 0 ∧ s.peer.config s.cfg &&& s.cfg.mPrimRx = 0 → t.peer.kind = .oracle)
      ∧ (s.peer.config s.cfg &&& s.cfg.mPwrUp = 0 ∨ s.peer.config s.cfg &&& s.cfg.mPrimRx ≠ 0 → t.peer = s.peer)

/-- R152, R60, R61, T22: at the reference peer, undisturbed, SEND leaves exactly TXBUF in the TX FIFO, and triggers a send when
the configuration register has power-up set and primary-receiver clear. -/
def Obligations.SendLoadsTheTransmitFifo : Prop :=
  ∀ (s : State) (addr : Addr) (val : Byte), s.cfg.wellFormed = true → s.peer.kind = .reference → s.env = [] →
    s.ready = true → Unwatched s → s.mode = .transmitting → TransfersComplete 10 s →
    ∃ t, exec (.send addr val) s = .next t ∧ t.peer.kind = .reference ∧ t.peer.txf = [s.txbuf]
      ∧ t.peer.pulse =
        (s.peer.pulse || (!(s.peer.config s.cfg &&& s.cfg.mPwrUp == 0) && s.peer.config s.cfg &&& s.cfg.mPrimRx == 0))
      ∧ t.peer.rxf = s.peer.rxf ∧ t.peer.st = s.peer.st

/-- R214, R60, R217, T30: at the reference peer, undisturbed, a capture brings the oldest payload of the RX FIFO into RXBUF,
removes it from the FIFO, and clears receive-data-ready alone. -/
def Obligations.CaptureTakesTheOldestPayload : Prop :=
  ∀ (s : State) (pl : Payload) (rest : List Payload), s.cfg.wellFormed = true → NoCollision s.cfg →
    s.peer.kind = .reference → s.env = [] → s.seq = .idle → Unwatched s → s.peer.rxf = pl :: rest → TransfersComplete 11 s →
    EchoesComplete 8 s →
    (capture s).rxbuf = pl ∧ (capture s).peer.rxf = rest ∧ (capture s).peer.st = s.peer.st &&& ~~~s.cfg.mRxDr
      ∧ (capture s).peer.txf = s.peer.txf ∧ MemoryKeptOutside [] s (capture s)

/-- R146, R145, R150, T20: at the reference peer, undisturbed, ENTER_TX leaves the configuration register as it was but for
primary-receiver clear, power-up and the two masks set, the TX FIFO empty, the RX FIFO untouched and the three flags clear. -/
def Obligations.EnterTxConfiguresTheReferencePeer : Prop :=
  ∀ (s : State) (addr : Addr) (val : Byte), s.cfg.wellFormed = true → NoCollision s.cfg → s.peer.kind = .reference →
    Memory.wf s.peer.mem = true → s.env = [] → s.ready = true → Unwatched s → TransfersComplete 15 s →
    ∃ t, exec (.enterTx addr val) s = .next t
      ∧ t.peer.config s.cfg =
        ((s.peer.config s.cfg &&& ~~~s.cfg.mPrimRx) ||| s.cfg.mPwrUp) ||| (s.cfg.mMaskTxDs ||| s.cfg.mMaskMaxRt)
      ∧ t.peer.txf = [] ∧ t.peer.rxf = s.peer.rxf ∧ t.peer.st = s.peer.st &&& ~~~mStAll s.cfg

/-- R149, S5: at the reference peer, undisturbed, ENTER_RX leaves power-up and primary-receiver set, the RX FIFO empty, CE = 1
and MODE = Listening; a second ENTER_RX leaves the same registers, FIFO, flags, CE and MODE. -/
def Obligations.EnterRxIsIdempotent : Prop :=
  ∀ (s t : State) (addr : Addr) (val : Byte), s.cfg.wellFormed = true → NoCollision s.cfg → s.peer.kind = .reference →
    Memory.wf s.peer.mem = true → s.env = [] → s.ready = true → Unwatched s → TransfersComplete 22 s →
    exec (.enterRx addr val) s = .next t →
    t.peer.config s.cfg = (s.peer.config s.cfg ||| (s.cfg.mPwrUp ||| s.cfg.mPrimRx)) ||| (s.cfg.mMaskTxDs ||| s.cfg.mMaskMaxRt)
      ∧ t.peer.rxf = [] ∧ t.peer.st = s.peer.st &&& ~~~mStAll s.cfg ∧ t.ce = true ∧ t.mode = .listening
      ∧ (t.ready = true →
        ∃ u, exec (.enterRx addr val) t = .next u ∧ MemoryKeptOutside [] t u ∧ u.peer.rxf = [] ∧ u.peer.st = t.peer.st
          ∧ u.ce = true ∧ u.mode = .listening)

/-! ## Observation and counts -/

/-- R27: what STAT, PINS and the buffers read; unlisted offsets read 0. -/
def Obligations.ObservationMapShowsTheState : Prop :=
  ∀ s : State,
    (obs 0x00 s)[0] = (!(s.seq == .idle) || s.running) ∧ (obs 0x00 s)[1] = (s.seq == .handler)
      ∧ (obs 0x00 s)[2] = s.running ∧ (obs 0x00 s)[3] = s.irqEn ∧ (obs 0x00 s)[4] = s.irqPend
      ∧ (obs 0x00 s).extractLsb' 5 2 = (match s.mode with | .standby => 0b00 | .transmitting => 0b01 | .listening => 0b10)
      ∧ (obs 0x00 s)[7] = false
      ∧ (obs 0x01 s)[0] = s.csn ∧ (obs 0x01 s)[1] = s.ce ∧ (obs 0x01 s)[2] = s.irqPrev
      ∧ (obs 0x01 s).extractLsb' 3 5 = 0
      ∧ (obs 0x02 s).toNat = s.fault.toNat ∧ obs 0x03 s = s.rxcnt ∧ obs 0x04 s = s.result ∧ obs 0x05 s = s.op
      ∧ (obs 0x06 s).toNat = s.argAddr.toNat ∧ obs 0x07 s = s.argVal
      ∧ (∀ k : Fin 5, obs (0x08 + k) s = s.abuf[k]) ∧ (∀ k : Fin 8, obs (0x10 + k) s = s.txbuf[k])
      ∧ (∀ k : Fin 8, obs (0x18 + k) s = s.rxbuf[k])
      ∧ (∀ o, (0x0D ≤ o ∧ o < 0x10) ∨ 0x20 ≤ o → obs o s = 0)

/-- R272: event counts, transfers and minimum durations of the operations and of CAPTURE with the default times, over any bytes
received. The last clause of the rule, the Node Loop cycle, is not part of this. -/
def Obligations.EventCountsAreThoseOfTheTable : Prop :=
  ∀ (s t : State) (addr : Addr) (val : Byte) (i : Instr) (frames transfers events micros : Nat),
    s.cfg = Params.default → s.answers = [] → s.dbg = [] → s.trace = [] → Unwatched s →
    (s.ready = true ∧ exec i s = .next t ∧ (i, frames, transfers, events, micros) ∈ operationCounts s.mode addr val)
      ∨ (t = capture s ∧ (frames, transfers, events, micros) = (2, 11, 39, 150)) →
    t.trace.countP (fun e => e = .csn false) = frames ∧ transferCount t.trace = transfers ∧ t.trace.length = events
      ∧ minMicros t.trace = micros
end

