-- ==== Sys2Proof/Laws/State.lean ====
section
/-! SUPPORT. One lemma per field per update of the state, and what the passing of time leaves alone. -/

namespace Sys2Proof.Machine

/-! ### emit -/

@[simp] theorem emit_cfg (e : Event) (s : State) : (emit e s).cfg = s.cfg := rfl
@[simp] theorem emit_seq (e : Event) (s : State) : (emit e s).seq = s.seq := rfl
@[simp] theorem emit_upc (e : Event) (s : State) : (emit e s).upc = s.upc := rfl
@[simp] theorem emit_running (e : Event) (s : State) : (emit e s).running = s.running := rfl
@[simp] theorem emit_nlpc (e : Event) (s : State) : (emit e s).nlpc = s.nlpc := rfl
@[simp] theorem emit_pollcnt (e : Event) (s : State) : (emit e s).pollcnt = s.pollcnt := rfl
@[simp] theorem emit_op (e : Event) (s : State) : (emit e s).op = s.op := rfl
@[simp] theorem emit_argAddr (e : Event) (s : State) : (emit e s).argAddr = s.argAddr := rfl
@[simp] theorem emit_argVal (e : Event) (s : State) : (emit e s).argVal = s.argVal := rfl
@[simp] theorem emit_result (e : Event) (s : State) : (emit e s).result = s.result := rfl
@[simp] theorem emit_tmp (e : Event) (s : State) : (emit e s).tmp = s.tmp := rfl
@[simp] theorem emit_abuf (e : Event) (s : State) : (emit e s).abuf = s.abuf := rfl
@[simp] theorem emit_txbuf (e : Event) (s : State) : (emit e s).txbuf = s.txbuf := rfl
@[simp] theorem emit_rxbuf (e : Event) (s : State) : (emit e s).rxbuf = s.rxbuf := rfl
@[simp] theorem emit_rxcnt (e : Event) (s : State) : (emit e s).rxcnt = s.rxcnt := rfl
@[simp] theorem emit_mode (e : Event) (s : State) : (emit e s).mode = s.mode := rfl
@[simp] theorem emit_csn (e : Event) (s : State) : (emit e s).csn = s.csn := rfl
@[simp] theorem emit_ce (e : Event) (s : State) : (emit e s).ce = s.ce := rfl
@[simp] theorem emit_irqEn (e : Event) (s : State) : (emit e s).irqEn = s.irqEn := rfl
@[simp] theorem emit_irqPend (e : Event) (s : State) : (emit e s).irqPend = s.irqPend := rfl
@[simp] theorem emit_irqPrev (e : Event) (s : State) : (emit e s).irqPrev = s.irqPrev := rfl
@[simp] theorem emit_fault (e : Event) (s : State) : (emit e s).fault = s.fault := rfl
@[simp] theorem emit_peer (e : Event) (s : State) : (emit e s).peer = s.peer := rfl
@[simp] theorem emit_trace (e : Event) (s : State) : (emit e s).trace = s.trace ++ [e] := rfl
@[simp] theorem emit_todo (e : Event) (s : State) : (emit e s).todo = s.todo := rfl
@[simp] theorem emit_rx (e : Event) (s : State) : (emit e s).rx = s.rx := rfl
@[simp] theorem emit_busOut (e : Event) (s : State) : (emit e s).busOut = s.busOut := rfl
@[simp] theorem emit_irqN (e : Event) (s : State) : (emit e s).irqN = s.irqN := rfl
@[simp] theorem emit_host (e : Event) (s : State) : (emit e s).host = s.host := rfl
@[simp] theorem emit_env (e : Event) (s : State) : (emit e s).env = s.env := rfl
@[simp] theorem emit_answers (e : Event) (s : State) : (emit e s).answers = s.answers := rfl
@[simp] theorem emit_dbg (e : Event) (s : State) : (emit e s).dbg = s.dbg := rfl
@[simp] theorem emit_looks (e : Event) (s : State) : (emit e s).looks = s.looks := rfl
@[simp] theorem emit_free (e : Event) (s : State) : (emit e s).free = s.free := rfl

/-! ### sample -/

@[simp] theorem sample_cfg (s : State) : (sample s).cfg = s.cfg := rfl
@[simp] theorem sample_seq (s : State) : (sample s).seq = s.seq := rfl
@[simp] theorem sample_upc (s : State) : (sample s).upc = s.upc := rfl
@[simp] theorem sample_running (s : State) : (sample s).running = s.running := rfl
@[simp] theorem sample_nlpc (s : State) : (sample s).nlpc = s.nlpc := rfl
@[simp] theorem sample_pollcnt (s : State) : (sample s).pollcnt = s.pollcnt := rfl
@[simp] theorem sample_op (s : State) : (sample s).op = s.op := rfl
@[simp] theorem sample_argAddr (s : State) : (sample s).argAddr = s.argAddr := rfl
@[simp] theorem sample_argVal (s : State) : (sample s).argVal = s.argVal := rfl
@[simp] theorem sample_result (s : State) : (sample s).result = s.result := rfl
@[simp] theorem sample_tmp (s : State) : (sample s).tmp = s.tmp := rfl
@[simp] theorem sample_abuf (s : State) : (sample s).abuf = s.abuf := rfl
@[simp] theorem sample_txbuf (s : State) : (sample s).txbuf = s.txbuf := rfl
@[simp] theorem sample_rxbuf (s : State) : (sample s).rxbuf = s.rxbuf := rfl
@[simp] theorem sample_rxcnt (s : State) : (sample s).rxcnt = s.rxcnt := rfl
@[simp] theorem sample_mode (s : State) : (sample s).mode = s.mode := rfl
@[simp] theorem sample_csn (s : State) : (sample s).csn = s.csn := rfl
@[simp] theorem sample_ce (s : State) : (sample s).ce = s.ce := rfl
@[simp] theorem sample_irqEn (s : State) : (sample s).irqEn = s.irqEn := rfl
@[simp] theorem sample_irqPend (s : State) : (sample s).irqPend = pendAfterSample s.irqPend s.irqPrev (irqLine s) s.irqEn s.cfg.irqLatch := rfl
@[simp] theorem sample_irqPrev (s : State) : (sample s).irqPrev = irqLine s := rfl
@[simp] theorem sample_fault (s : State) : (sample s).fault = s.fault := rfl
@[simp] theorem sample_peer (s : State) : (sample s).peer = s.peer := rfl
@[simp] theorem sample_trace (s : State) : (sample s).trace = s.trace := rfl
@[simp] theorem sample_todo (s : State) : (sample s).todo = s.todo := rfl
@[simp] theorem sample_rx (s : State) : (sample s).rx = s.rx := rfl
@[simp] theorem sample_busOut (s : State) : (sample s).busOut = s.busOut := rfl
@[simp] theorem sample_irqN (s : State) : (sample s).irqN = s.irqN := rfl
@[simp] theorem sample_host (s : State) : (sample s).host = s.host := rfl
@[simp] theorem sample_env (s : State) : (sample s).env = s.env := rfl
@[simp] theorem sample_answers (s : State) : (sample s).answers = s.answers := rfl
@[simp] theorem sample_dbg (s : State) : (sample s).dbg = s.dbg := rfl
@[simp] theorem sample_looks (s : State) : (sample s).looks = s.looks := rfl
@[simp] theorem sample_free (s : State) : (sample s).free = s.free := rfl

/-! ### driveCsn -/

@[simp] theorem driveCsn_cfg (l : Bool) (s : State) : (driveCsn l s).cfg = s.cfg := rfl
@[simp] theorem driveCsn_seq (l : Bool) (s : State) : (driveCsn l s).seq = s.seq := rfl
@[simp] theorem driveCsn_upc (l : Bool) (s : State) : (driveCsn l s).upc = s.upc := rfl
@[simp] theorem driveCsn_running (l : Bool) (s : State) : (driveCsn l s).running = s.running := rfl
@[simp] theorem driveCsn_nlpc (l : Bool) (s : State) : (driveCsn l s).nlpc = s.nlpc := rfl
@[simp] theorem driveCsn_pollcnt (l : Bool) (s : State) : (driveCsn l s).pollcnt = s.pollcnt := rfl
@[simp] theorem driveCsn_op (l : Bool) (s : State) : (driveCsn l s).op = s.op := rfl
@[simp] theorem driveCsn_argAddr (l : Bool) (s : State) : (driveCsn l s).argAddr = s.argAddr := rfl
@[simp] theorem driveCsn_argVal (l : Bool) (s : State) : (driveCsn l s).argVal = s.argVal := rfl
@[simp] theorem driveCsn_result (l : Bool) (s : State) : (driveCsn l s).result = s.result := rfl
@[simp] theorem driveCsn_tmp (l : Bool) (s : State) : (driveCsn l s).tmp = s.tmp := rfl
@[simp] theorem driveCsn_abuf (l : Bool) (s : State) : (driveCsn l s).abuf = s.abuf := rfl
@[simp] theorem driveCsn_txbuf (l : Bool) (s : State) : (driveCsn l s).txbuf = s.txbuf := rfl
@[simp] theorem driveCsn_rxbuf (l : Bool) (s : State) : (driveCsn l s).rxbuf = s.rxbuf := rfl
@[simp] theorem driveCsn_rxcnt (l : Bool) (s : State) : (driveCsn l s).rxcnt = s.rxcnt := rfl
@[simp] theorem driveCsn_mode (l : Bool) (s : State) : (driveCsn l s).mode = s.mode := rfl
@[simp] theorem driveCsn_csn (l : Bool) (s : State) : (driveCsn l s).csn = l := rfl
@[simp] theorem driveCsn_ce (l : Bool) (s : State) : (driveCsn l s).ce = s.ce := rfl
@[simp] theorem driveCsn_irqEn (l : Bool) (s : State) : (driveCsn l s).irqEn = s.irqEn := rfl
@[simp] theorem driveCsn_irqPend (l : Bool) (s : State) : (driveCsn l s).irqPend = s.irqPend := rfl
@[simp] theorem driveCsn_irqPrev (l : Bool) (s : State) : (driveCsn l s).irqPrev = s.irqPrev := rfl
@[simp] theorem driveCsn_fault (l : Bool) (s : State) : (driveCsn l s).fault = s.fault := rfl
@[simp] theorem driveCsn_peer (l : Bool) (s : State) : (driveCsn l s).peer = s.peer.onCsn l := rfl
@[simp] theorem driveCsn_trace (l : Bool) (s : State) : (driveCsn l s).trace = s.trace ++ [.csn l] := rfl
@[simp] theorem driveCsn_todo (l : Bool) (s : State) : (driveCsn l s).todo = s.todo := rfl
@[simp] theorem driveCsn_rx (l : Bool) (s : State) : (driveCsn l s).rx = s.rx := rfl
@[simp] theorem driveCsn_busOut (l : Bool) (s : State) : (driveCsn l s).busOut = s.busOut := rfl
@[simp] theorem driveCsn_irqN (l : Bool) (s : State) : (driveCsn l s).irqN = irqLine s := rfl
@[simp] theorem driveCsn_host (l : Bool) (s : State) : (driveCsn l s).host = s.host := rfl
@[simp] theorem driveCsn_env (l : Bool) (s : State) : (driveCsn l s).env = s.env := rfl
@[simp] theorem driveCsn_answers (l : Bool) (s : State) : (driveCsn l s).answers = s.answers := rfl
@[simp] theorem driveCsn_dbg (l : Bool) (s : State) : (driveCsn l s).dbg = s.dbg := rfl
@[simp] theorem driveCsn_looks (l : Bool) (s : State) : (driveCsn l s).looks = s.looks := rfl
@[simp] theorem driveCsn_free (l : Bool) (s : State) : (driveCsn l s).free = s.free := rfl

/-! ### driveCe -/

@[simp] theorem driveCe_cfg (l : Bool) (s : State) : (driveCe l s).cfg = s.cfg := rfl
@[simp] theorem driveCe_seq (l : Bool) (s : State) : (driveCe l s).seq = s.seq := rfl
@[simp] theorem driveCe_upc (l : Bool) (s : State) : (driveCe l s).upc = s.upc := rfl
@[simp] theorem driveCe_running (l : Bool) (s : State) : (driveCe l s).running = s.running := rfl
@[simp] theorem driveCe_nlpc (l : Bool) (s : State) : (driveCe l s).nlpc = s.nlpc := rfl
@[simp] theorem driveCe_pollcnt (l : Bool) (s : State) : (driveCe l s).pollcnt = s.pollcnt := rfl
@[simp] theorem driveCe_op (l : Bool) (s : State) : (driveCe l s).op = s.op := rfl
@[simp] theorem driveCe_argAddr (l : Bool) (s : State) : (driveCe l s).argAddr = s.argAddr := rfl
@[simp] theorem driveCe_argVal (l : Bool) (s : State) : (driveCe l s).argVal = s.argVal := rfl
@[simp] theorem driveCe_result (l : Bool) (s : State) : (driveCe l s).result = s.result := rfl
@[simp] theorem driveCe_tmp (l : Bool) (s : State) : (driveCe l s).tmp = s.tmp := rfl
@[simp] theorem driveCe_abuf (l : Bool) (s : State) : (driveCe l s).abuf = s.abuf := rfl
@[simp] theorem driveCe_txbuf (l : Bool) (s : State) : (driveCe l s).txbuf = s.txbuf := rfl
@[simp] theorem driveCe_rxbuf (l : Bool) (s : State) : (driveCe l s).rxbuf = s.rxbuf := rfl
@[simp] theorem driveCe_rxcnt (l : Bool) (s : State) : (driveCe l s).rxcnt = s.rxcnt := rfl
@[simp] theorem driveCe_mode (l : Bool) (s : State) : (driveCe l s).mode = s.mode := rfl
@[simp] theorem driveCe_csn (l : Bool) (s : State) : (driveCe l s).csn = s.csn := rfl
@[simp] theorem driveCe_ce (l : Bool) (s : State) : (driveCe l s).ce = l := rfl
@[simp] theorem driveCe_irqEn (l : Bool) (s : State) : (driveCe l s).irqEn = s.irqEn := rfl
@[simp] theorem driveCe_irqPend (l : Bool) (s : State) : (driveCe l s).irqPend = s.irqPend := rfl
@[simp] theorem driveCe_irqPrev (l : Bool) (s : State) : (driveCe l s).irqPrev = s.irqPrev := rfl
@[simp] theorem driveCe_fault (l : Bool) (s : State) : (driveCe l s).fault = s.fault := rfl
@[simp] theorem driveCe_peer (l : Bool) (s : State) : (driveCe l s).peer = s.peer.onCe s.cfg l := rfl
@[simp] theorem driveCe_trace (l : Bool) (s : State) : (driveCe l s).trace = s.trace ++ [.ce l] := rfl
@[simp] theorem driveCe_todo (l : Bool) (s : State) : (driveCe l s).todo = s.todo := rfl
@[simp] theorem driveCe_rx (l : Bool) (s : State) : (driveCe l s).rx = s.rx := rfl
@[simp] theorem driveCe_busOut (l : Bool) (s : State) : (driveCe l s).busOut = s.busOut := rfl
@[simp] theorem driveCe_irqN (l : Bool) (s : State) : (driveCe l s).irqN = s.irqN := rfl
@[simp] theorem driveCe_host (l : Bool) (s : State) : (driveCe l s).host = s.host := rfl
@[simp] theorem driveCe_env (l : Bool) (s : State) : (driveCe l s).env = s.env := rfl
@[simp] theorem driveCe_answers (l : Bool) (s : State) : (driveCe l s).answers = s.answers := rfl
@[simp] theorem driveCe_dbg (l : Bool) (s : State) : (driveCe l s).dbg = s.dbg := rfl
@[simp] theorem driveCe_looks (l : Bool) (s : State) : (driveCe l s).looks = s.looks := rfl
@[simp] theorem driveCe_free (l : Bool) (s : State) : (driveCe l s).free = s.free := rfl

/-! ### raise -/

@[simp] theorem raise_cfg (k : Fault) (s : State) : (raise k s).cfg = s.cfg := rfl
@[simp] theorem raise_seq (k : Fault) (s : State) : (raise k s).seq = s.seq := rfl
@[simp] theorem raise_upc (k : Fault) (s : State) : (raise k s).upc = s.upc := rfl
@[simp] theorem raise_running (k : Fault) (s : State) : (raise k s).running = s.running := rfl
@[simp] theorem raise_nlpc (k : Fault) (s : State) : (raise k s).nlpc = s.nlpc := rfl
@[simp] theorem raise_pollcnt (k : Fault) (s : State) : (raise k s).pollcnt = s.pollcnt := rfl
@[simp] theorem raise_op (k : Fault) (s : State) : (raise k s).op = s.op := rfl
@[simp] theorem raise_argAddr (k : Fault) (s : State) : (raise k s).argAddr = s.argAddr := rfl
@[simp] theorem raise_argVal (k : Fault) (s : State) : (raise k s).argVal = s.argVal := rfl
@[simp] theorem raise_result (k : Fault) (s : State) : (raise k s).result = s.result := rfl
@[simp] theorem raise_tmp (k : Fault) (s : State) : (raise k s).tmp = s.tmp := rfl
@[simp] theorem raise_abuf (k : Fault) (s : State) : (raise k s).abuf = s.abuf := rfl
@[simp] theorem raise_txbuf (k : Fault) (s : State) : (raise k s).txbuf = s.txbuf := rfl
@[simp] theorem raise_rxbuf (k : Fault) (s : State) : (raise k s).rxbuf = s.rxbuf := rfl
@[simp] theorem raise_rxcnt (k : Fault) (s : State) : (raise k s).rxcnt = s.rxcnt := rfl
@[simp] theorem raise_mode (k : Fault) (s : State) : (raise k s).mode = s.mode := rfl
@[simp] theorem raise_csn (k : Fault) (s : State) : (raise k s).csn = s.csn := rfl
@[simp] theorem raise_ce (k : Fault) (s : State) : (raise k s).ce = s.ce := rfl
@[simp] theorem raise_irqEn (k : Fault) (s : State) : (raise k s).irqEn = s.irqEn := rfl
@[simp] theorem raise_irqPend (k : Fault) (s : State) : (raise k s).irqPend = s.irqPend := rfl
@[simp] theorem raise_irqPrev (k : Fault) (s : State) : (raise k s).irqPrev = s.irqPrev := rfl
@[simp] theorem raise_fault (k : Fault) (s : State) : (raise k s).fault = s.fault ||| faultBit k := rfl
@[simp] theorem raise_peer (k : Fault) (s : State) : (raise k s).peer = s.peer := rfl
@[simp] theorem raise_trace (k : Fault) (s : State) : (raise k s).trace = s.trace := rfl
@[simp] theorem raise_todo (k : Fault) (s : State) : (raise k s).todo = s.todo := rfl
@[simp] theorem raise_rx (k : Fault) (s : State) : (raise k s).rx = s.rx := rfl
@[simp] theorem raise_busOut (k : Fault) (s : State) : (raise k s).busOut = s.busOut := rfl
@[simp] theorem raise_irqN (k : Fault) (s : State) : (raise k s).irqN = s.irqN := rfl
@[simp] theorem raise_host (k : Fault) (s : State) : (raise k s).host = s.host := rfl
@[simp] theorem raise_env (k : Fault) (s : State) : (raise k s).env = s.env := rfl
@[simp] theorem raise_answers (k : Fault) (s : State) : (raise k s).answers = s.answers := rfl
@[simp] theorem raise_dbg (k : Fault) (s : State) : (raise k s).dbg = s.dbg := rfl
@[simp] theorem raise_looks (k : Fault) (s : State) : (raise k s).looks = s.looks := rfl
@[simp] theorem raise_free (k : Fault) (s : State) : (raise k s).free = s.free := rfl

/-! ### accept -/

@[simp] theorem accept_cfg (op : Byte) (addr : Addr) (val : Byte) (s : State) : (accept op addr val s).cfg = s.cfg := rfl
@[simp] theorem accept_seq (op : Byte) (addr : Addr) (val : Byte) (s : State) : (accept op addr val s).seq = .op := rfl
@[simp] theorem accept_upc (op : Byte) (addr : Addr) (val : Byte) (s : State) : (accept op addr val s).upc = 0 := rfl
@[simp] theorem accept_running (op : Byte) (addr : Addr) (val : Byte) (s : State) : (accept op addr val s).running = s.running := rfl
@[simp] theorem accept_nlpc (op : Byte) (addr : Addr) (val : Byte) (s : State) : (accept op addr val s).nlpc = s.nlpc := rfl
@[simp] theorem accept_pollcnt (op : Byte) (addr : Addr) (val : Byte) (s : State) : (accept op addr val s).pollcnt = s.pollcnt := rfl
@[simp] theorem accept_op (op : Byte) (addr : Addr) (val : Byte) (s : State) : (accept op addr val s).op = op := rfl
@[simp] theorem accept_argAddr (op : Byte) (addr : Addr) (val : Byte) (s : State) : (accept op addr val s).argAddr = addr := rfl
@[simp] theorem accept_argVal (op : Byte) (addr : Addr) (val : Byte) (s : State) : (accept op addr val s).argVal = val := rfl
@[simp] theorem accept_result (op : Byte) (addr : Addr) (val : Byte) (s : State) : (accept op addr val s).result = s.result := rfl
@[simp] theorem accept_tmp (op : Byte) (addr : Addr) (val : Byte) (s : State) : (accept op addr val s).tmp = s.tmp := rfl
@[simp] theorem accept_abuf (op : Byte) (addr : Addr) (val : Byte) (s : State) : (accept op addr val s).abuf = s.abuf := rfl
@[simp] theorem accept_txbuf (op : Byte) (addr : Addr) (val : Byte) (s : State) : (accept op addr val s).txbuf = s.txbuf := rfl
@[simp] theorem accept_rxbuf (op : Byte) (addr : Addr) (val : Byte) (s : State) : (accept op addr val s).rxbuf = s.rxbuf := rfl
@[simp] theorem accept_rxcnt (op : Byte) (addr : Addr) (val : Byte) (s : State) : (accept op addr val s).rxcnt = s.rxcnt := rfl
@[simp] theorem accept_mode (op : Byte) (addr : Addr) (val : Byte) (s : State) : (accept op addr val s).mode = s.mode := rfl
@[simp] theorem accept_csn (op : Byte) (addr : Addr) (val : Byte) (s : State) : (accept op addr val s).csn = s.csn := rfl
@[simp] theorem accept_ce (op : Byte) (addr : Addr) (val : Byte) (s : State) : (accept op addr val s).ce = s.ce := rfl
@[simp] theorem accept_irqEn (op : Byte) (addr : Addr) (val : Byte) (s : State) : (accept op addr val s).irqEn = s.irqEn := rfl
@[simp] theorem accept_irqPend (op : Byte) (addr : Addr) (val : Byte) (s : State) : (accept op addr val s).irqPend = s.irqPend := rfl
@[simp] theorem accept_irqPrev (op : Byte) (addr : Addr) (val : Byte) (s : State) : (accept op addr val s).irqPrev = s.irqPrev := rfl
@[simp] theorem accept_fault (op : Byte) (addr : Addr) (val : Byte) (s : State) : (accept op addr val s).fault = s.fault := rfl
@[simp] theorem accept_peer (op : Byte) (addr : Addr) (val : Byte) (s : State) : (accept op addr val s).peer = s.peer := rfl
@[simp] theorem accept_trace (op : Byte) (addr : Addr) (val : Byte) (s : State) : (accept op addr val s).trace = s.trace := rfl
@[simp] theorem accept_todo (op : Byte) (addr : Addr) (val : Byte) (s : State) : (accept op addr val s).todo = s.todo := rfl
@[simp] theorem accept_rx (op : Byte) (addr : Addr) (val : Byte) (s : State) : (accept op addr val s).rx = s.rx := rfl
@[simp] theorem accept_busOut (op : Byte) (addr : Addr) (val : Byte) (s : State) : (accept op addr val s).busOut = s.busOut := rfl
@[simp] theorem accept_irqN (op : Byte) (addr : Addr) (val : Byte) (s : State) : (accept op addr val s).irqN = s.irqN := rfl
@[simp] theorem accept_host (op : Byte) (addr : Addr) (val : Byte) (s : State) : (accept op addr val s).host = s.host := rfl
@[simp] theorem accept_env (op : Byte) (addr : Addr) (val : Byte) (s : State) : (accept op addr val s).env = s.env := rfl
@[simp] theorem accept_answers (op : Byte) (addr : Addr) (val : Byte) (s : State) : (accept op addr val s).answers = s.answers := rfl
@[simp] theorem accept_dbg (op : Byte) (addr : Addr) (val : Byte) (s : State) : (accept op addr val s).dbg = s.dbg := rfl
@[simp] theorem accept_looks (op : Byte) (addr : Addr) (val : Byte) (s : State) : (accept op addr val s).looks = s.looks := rfl
@[simp] theorem accept_free (op : Byte) (addr : Addr) (val : Byte) (s : State) : (accept op addr val s).free = s.free := rfl

/-! ### toIdle -/

@[simp] theorem toIdle_cfg (s : State) : (toIdle s).cfg = s.cfg := rfl
@[simp] theorem toIdle_seq (s : State) : (toIdle s).seq = .idle := rfl
@[simp] theorem toIdle_upc (s : State) : (toIdle s).upc = 0 := rfl
@[simp] theorem toIdle_running (s : State) : (toIdle s).running = s.running := rfl
@[simp] theorem toIdle_nlpc (s : State) : (toIdle s).nlpc = s.nlpc := rfl
@[simp] theorem toIdle_pollcnt (s : State) : (toIdle s).pollcnt = s.pollcnt := rfl
@[simp] theorem toIdle_op (s : State) : (toIdle s).op = s.op := rfl
@[simp] theorem toIdle_argAddr (s : State) : (toIdle s).argAddr = s.argAddr := rfl
@[simp] theorem toIdle_argVal (s : State) : (toIdle s).argVal = s.argVal := rfl
@[simp] theorem toIdle_result (s : State) : (toIdle s).result = s.result := rfl
@[simp] theorem toIdle_tmp (s : State) : (toIdle s).tmp = s.tmp := rfl
@[simp] theorem toIdle_abuf (s : State) : (toIdle s).abuf = s.abuf := rfl
@[simp] theorem toIdle_txbuf (s : State) : (toIdle s).txbuf = s.txbuf := rfl
@[simp] theorem toIdle_rxbuf (s : State) : (toIdle s).rxbuf = s.rxbuf := rfl
@[simp] theorem toIdle_rxcnt (s : State) : (toIdle s).rxcnt = s.rxcnt := rfl
@[simp] theorem toIdle_mode (s : State) : (toIdle s).mode = s.mode := rfl
@[simp] theorem toIdle_csn (s : State) : (toIdle s).csn = s.csn := rfl
@[simp] theorem toIdle_ce (s : State) : (toIdle s).ce = s.ce := rfl
@[simp] theorem toIdle_irqEn (s : State) : (toIdle s).irqEn = s.irqEn := rfl
@[simp] theorem toIdle_irqPend (s : State) : (toIdle s).irqPend = s.irqPend := rfl
@[simp] theorem toIdle_irqPrev (s : State) : (toIdle s).irqPrev = s.irqPrev := rfl
@[simp] theorem toIdle_fault (s : State) : (toIdle s).fault = s.fault := rfl
@[simp] theorem toIdle_peer (s : State) : (toIdle s).peer = s.peer.leftWithCe s.cfg s.ce := rfl
@[simp] theorem toIdle_trace (s : State) : (toIdle s).trace = s.trace := rfl
@[simp] theorem toIdle_todo (s : State) : (toIdle s).todo = [] := rfl
@[simp] theorem toIdle_rx (s : State) : (toIdle s).rx = s.rx := rfl
@[simp] theorem toIdle_busOut (s : State) : (toIdle s).busOut = s.busOut := rfl
@[simp] theorem toIdle_irqN (s : State) : (toIdle s).irqN = irqLine s := rfl
@[simp] theorem toIdle_host (s : State) : (toIdle s).host = s.host := rfl
@[simp] theorem toIdle_env (s : State) : (toIdle s).env = s.env := rfl
@[simp] theorem toIdle_answers (s : State) : (toIdle s).answers = s.answers := rfl
@[simp] theorem toIdle_dbg (s : State) : (toIdle s).dbg = s.dbg := rfl
@[simp] theorem toIdle_looks (s : State) : (toIdle s).looks = s.looks := rfl
@[simp] theorem toIdle_free (s : State) : (toIdle s).free = s.free := rfl

/-! ### enterHandler -/

@[simp] theorem enterHandler_cfg (s : State) : (enterHandler s).cfg = s.cfg := rfl
@[simp] theorem enterHandler_seq (s : State) : (enterHandler s).seq = .handler := rfl
@[simp] theorem enterHandler_upc (s : State) : (enterHandler s).upc = 1 := rfl
@[simp] theorem enterHandler_running (s : State) : (enterHandler s).running = s.running := rfl
@[simp] theorem enterHandler_nlpc (s : State) : (enterHandler s).nlpc = s.nlpc := rfl
@[simp] theorem enterHandler_pollcnt (s : State) : (enterHandler s).pollcnt = s.pollcnt := rfl
@[simp] theorem enterHandler_op (s : State) : (enterHandler s).op = s.op := rfl
@[simp] theorem enterHandler_argAddr (s : State) : (enterHandler s).argAddr = s.argAddr := rfl
@[simp] theorem enterHandler_argVal (s : State) : (enterHandler s).argVal = s.argVal := rfl
@[simp] theorem enterHandler_result (s : State) : (enterHandler s).result = s.result := rfl
@[simp] theorem enterHandler_tmp (s : State) : (enterHandler s).tmp = s.tmp := rfl
@[simp] theorem enterHandler_abuf (s : State) : (enterHandler s).abuf = s.abuf := rfl
@[simp] theorem enterHandler_txbuf (s : State) : (enterHandler s).txbuf = s.txbuf := rfl
@[simp] theorem enterHandler_rxbuf (s : State) : (enterHandler s).rxbuf = s.rxbuf := rfl
@[simp] theorem enterHandler_rxcnt (s : State) : (enterHandler s).rxcnt = s.rxcnt := rfl
@[simp] theorem enterHandler_mode (s : State) : (enterHandler s).mode = s.mode := rfl
@[simp] theorem enterHandler_csn (s : State) : (enterHandler s).csn = s.csn := rfl
@[simp] theorem enterHandler_ce (s : State) : (enterHandler s).ce = s.ce := rfl
@[simp] theorem enterHandler_irqEn (s : State) : (enterHandler s).irqEn = false := rfl
@[simp] theorem enterHandler_irqPend (s : State) : (enterHandler s).irqPend = false := rfl
@[simp] theorem enterHandler_irqPrev (s : State) : (enterHandler s).irqPrev = s.irqPrev := rfl
@[simp] theorem enterHandler_fault (s : State) : (enterHandler s).fault = s.fault := rfl
@[simp] theorem enterHandler_peer (s : State) : (enterHandler s).peer = s.peer := rfl
@[simp] theorem enterHandler_trace (s : State) : (enterHandler s).trace = s.trace := rfl
@[simp] theorem enterHandler_todo (s : State) : (enterHandler s).todo = s.todo := rfl
@[simp] theorem enterHandler_rx (s : State) : (enterHandler s).rx = s.rx := rfl
@[simp] theorem enterHandler_busOut (s : State) : (enterHandler s).busOut = s.busOut := rfl
@[simp] theorem enterHandler_irqN (s : State) : (enterHandler s).irqN = s.irqN := rfl
@[simp] theorem enterHandler_host (s : State) : (enterHandler s).host = s.host := rfl
@[simp] theorem enterHandler_env (s : State) : (enterHandler s).env = s.env := rfl
@[simp] theorem enterHandler_answers (s : State) : (enterHandler s).answers = s.answers := rfl
@[simp] theorem enterHandler_dbg (s : State) : (enterHandler s).dbg = s.dbg := rfl
@[simp] theorem enterHandler_looks (s : State) : (enterHandler s).looks = s.looks := rfl
@[simp] theorem enterHandler_free (s : State) : (enterHandler s).free = s.free := rfl

/-! ### startCycle -/

@[simp] theorem startCycle_cfg (s : State) : (startCycle s).cfg = s.cfg := rfl
@[simp] theorem startCycle_seq (s : State) : (startCycle s).seq = .op := rfl
@[simp] theorem startCycle_upc (s : State) : (startCycle s).upc = 0 := rfl
@[simp] theorem startCycle_running (s : State) : (startCycle s).running = s.running := rfl
@[simp] theorem startCycle_nlpc (s : State) : (startCycle s).nlpc = s.nlpc := rfl
@[simp] theorem startCycle_pollcnt (s : State) : (startCycle s).pollcnt = s.pollcnt := rfl
@[simp] theorem startCycle_op (s : State) : (startCycle s).op = s.op := rfl
@[simp] theorem startCycle_argAddr (s : State) : (startCycle s).argAddr = s.argAddr := rfl
@[simp] theorem startCycle_argVal (s : State) : (startCycle s).argVal = s.argVal := rfl
@[simp] theorem startCycle_result (s : State) : (startCycle s).result = s.result := rfl
@[simp] theorem startCycle_tmp (s : State) : (startCycle s).tmp = s.tmp := rfl
@[simp] theorem startCycle_abuf (s : State) : (startCycle s).abuf = s.abuf := rfl
@[simp] theorem startCycle_txbuf (s : State) : (startCycle s).txbuf = s.txbuf := rfl
@[simp] theorem startCycle_rxbuf (s : State) : (startCycle s).rxbuf = s.rxbuf := rfl
@[simp] theorem startCycle_rxcnt (s : State) : (startCycle s).rxcnt = s.rxcnt := rfl
@[simp] theorem startCycle_mode (s : State) : (startCycle s).mode = s.mode := rfl
@[simp] theorem startCycle_csn (s : State) : (startCycle s).csn = s.csn := rfl
@[simp] theorem startCycle_ce (s : State) : (startCycle s).ce = s.ce := rfl
@[simp] theorem startCycle_irqEn (s : State) : (startCycle s).irqEn = s.irqEn := rfl
@[simp] theorem startCycle_irqPend (s : State) : (startCycle s).irqPend = s.irqPend := rfl
@[simp] theorem startCycle_irqPrev (s : State) : (startCycle s).irqPrev = s.irqPrev := rfl
@[simp] theorem startCycle_fault (s : State) : (startCycle s).fault = s.fault := rfl
@[simp] theorem startCycle_peer (s : State) : (startCycle s).peer = s.peer := rfl
@[simp] theorem startCycle_trace (s : State) : (startCycle s).trace = s.trace := rfl
@[simp] theorem startCycle_todo (s : State) : (startCycle s).todo = s.todo := rfl
@[simp] theorem startCycle_rx (s : State) : (startCycle s).rx = s.rx := rfl
@[simp] theorem startCycle_busOut (s : State) : (startCycle s).busOut = s.busOut := rfl
@[simp] theorem startCycle_irqN (s : State) : (startCycle s).irqN = s.irqN := rfl
@[simp] theorem startCycle_host (s : State) : (startCycle s).host = s.host := rfl
@[simp] theorem startCycle_env (s : State) : (startCycle s).env = s.env := rfl
@[simp] theorem startCycle_answers (s : State) : (startCycle s).answers = s.answers := rfl
@[simp] theorem startCycle_dbg (s : State) : (startCycle s).dbg = s.dbg := rfl
@[simp] theorem startCycle_looks (s : State) : (startCycle s).looks = s.looks := rfl
@[simp] theorem startCycle_free (s : State) : (startCycle s).free = s.free := rfl

/-! ### towardsLook -/

@[simp] theorem towardsLook_cfg (s : State) : (towardsLook s).cfg = s.cfg := rfl
@[simp] theorem towardsLook_seq (s : State) : (towardsLook s).seq = s.seq := rfl
@[simp] theorem towardsLook_upc (s : State) : (towardsLook s).upc = s.upc := rfl
@[simp] theorem towardsLook_running (s : State) : (towardsLook s).running = s.running := rfl
@[simp] theorem towardsLook_nlpc (s : State) : (towardsLook s).nlpc = s.nlpc := rfl
@[simp] theorem towardsLook_pollcnt (s : State) : (towardsLook s).pollcnt = s.pollcnt := rfl
@[simp] theorem towardsLook_op (s : State) : (towardsLook s).op = s.op := rfl
@[simp] theorem towardsLook_argAddr (s : State) : (towardsLook s).argAddr = s.argAddr := rfl
@[simp] theorem towardsLook_argVal (s : State) : (towardsLook s).argVal = s.argVal := rfl
@[simp] theorem towardsLook_result (s : State) : (towardsLook s).result = s.result := rfl
@[simp] theorem towardsLook_tmp (s : State) : (towardsLook s).tmp = s.tmp := rfl
@[simp] theorem towardsLook_abuf (s : State) : (towardsLook s).abuf = s.abuf := rfl
@[simp] theorem towardsLook_txbuf (s : State) : (towardsLook s).txbuf = s.txbuf := rfl
@[simp] theorem towardsLook_rxbuf (s : State) : (towardsLook s).rxbuf = s.rxbuf := rfl
@[simp] theorem towardsLook_rxcnt (s : State) : (towardsLook s).rxcnt = s.rxcnt := rfl
@[simp] theorem towardsLook_mode (s : State) : (towardsLook s).mode = s.mode := rfl
@[simp] theorem towardsLook_csn (s : State) : (towardsLook s).csn = s.csn := rfl
@[simp] theorem towardsLook_ce (s : State) : (towardsLook s).ce = s.ce := rfl
@[simp] theorem towardsLook_irqEn (s : State) : (towardsLook s).irqEn = s.irqEn := rfl
@[simp] theorem towardsLook_irqPend (s : State) : (towardsLook s).irqPend = s.irqPend := rfl
@[simp] theorem towardsLook_irqPrev (s : State) : (towardsLook s).irqPrev = s.irqPrev := rfl
@[simp] theorem towardsLook_fault (s : State) : (towardsLook s).fault = s.fault := rfl
@[simp] theorem towardsLook_peer (s : State) : (towardsLook s).peer = s.peer := rfl
@[simp] theorem towardsLook_trace (s : State) : (towardsLook s).trace = s.trace := rfl
@[simp] theorem towardsLook_todo (s : State) : (towardsLook s).todo = s.todo := rfl
@[simp] theorem towardsLook_rx (s : State) : (towardsLook s).rx = s.rx := rfl
@[simp] theorem towardsLook_busOut (s : State) : (towardsLook s).busOut = s.busOut := rfl
@[simp] theorem towardsLook_irqN (s : State) : (towardsLook s).irqN = s.irqN := rfl
@[simp] theorem towardsLook_host (s : State) : (towardsLook s).host = s.host := rfl
@[simp] theorem towardsLook_env (s : State) : (towardsLook s).env = s.env := rfl
@[simp] theorem towardsLook_answers (s : State) : (towardsLook s).answers = s.answers := rfl
@[simp] theorem towardsLook_dbg (s : State) : (towardsLook s).dbg = s.dbg := rfl
@[simp] theorem towardsLook_free (s : State) : (towardsLook s).free = s.free := rfl

/-! ### lookDone -/

@[simp] theorem lookDone_cfg (s : State) : (lookDone s).cfg = s.cfg := rfl
@[simp] theorem lookDone_seq (s : State) : (lookDone s).seq = s.seq := rfl
@[simp] theorem lookDone_upc (s : State) : (lookDone s).upc = s.upc := rfl
@[simp] theorem lookDone_running (s : State) : (lookDone s).running = s.running := rfl
@[simp] theorem lookDone_nlpc (s : State) : (lookDone s).nlpc = s.nlpc := rfl
@[simp] theorem lookDone_pollcnt (s : State) : (lookDone s).pollcnt = s.pollcnt := rfl
@[simp] theorem lookDone_op (s : State) : (lookDone s).op = s.op := rfl
@[simp] theorem lookDone_argAddr (s : State) : (lookDone s).argAddr = s.argAddr := rfl
@[simp] theorem lookDone_argVal (s : State) : (lookDone s).argVal = s.argVal := rfl
@[simp] theorem lookDone_result (s : State) : (lookDone s).result = s.result := rfl
@[simp] theorem lookDone_tmp (s : State) : (lookDone s).tmp = s.tmp := rfl
@[simp] theorem lookDone_abuf (s : State) : (lookDone s).abuf = s.abuf := rfl
@[simp] theorem lookDone_txbuf (s : State) : (lookDone s).txbuf = s.txbuf := rfl
@[simp] theorem lookDone_rxbuf (s : State) : (lookDone s).rxbuf = s.rxbuf := rfl
@[simp] theorem lookDone_rxcnt (s : State) : (lookDone s).rxcnt = s.rxcnt := rfl
@[simp] theorem lookDone_mode (s : State) : (lookDone s).mode = s.mode := rfl
@[simp] theorem lookDone_csn (s : State) : (lookDone s).csn = s.csn := rfl
@[simp] theorem lookDone_ce (s : State) : (lookDone s).ce = s.ce := rfl
@[simp] theorem lookDone_irqEn (s : State) : (lookDone s).irqEn = s.irqEn := rfl
@[simp] theorem lookDone_irqPend (s : State) : (lookDone s).irqPend = s.irqPend := rfl
@[simp] theorem lookDone_irqPrev (s : State) : (lookDone s).irqPrev = s.irqPrev := rfl
@[simp] theorem lookDone_fault (s : State) : (lookDone s).fault = s.fault := rfl
@[simp] theorem lookDone_peer (s : State) : (lookDone s).peer = s.peer := rfl
@[simp] theorem lookDone_trace (s : State) : (lookDone s).trace = s.trace := rfl
@[simp] theorem lookDone_todo (s : State) : (lookDone s).todo = s.todo := rfl
@[simp] theorem lookDone_rx (s : State) : (lookDone s).rx = s.rx := rfl
@[simp] theorem lookDone_busOut (s : State) : (lookDone s).busOut = s.busOut := rfl
@[simp] theorem lookDone_irqN (s : State) : (lookDone s).irqN = s.irqN := rfl
@[simp] theorem lookDone_host (s : State) : (lookDone s).host = s.host := rfl
@[simp] theorem lookDone_env (s : State) : (lookDone s).env = s.env := rfl
@[simp] theorem lookDone_answers (s : State) : (lookDone s).answers = s.answers := rfl
@[simp] theorem lookDone_dbg (s : State) : (lookDone s).dbg = s.dbg := rfl
@[simp] theorem lookDone_free (s : State) : (lookDone s).free = s.free := rfl

/-! ### elapse: the environment moves and IRQ_N is sampled -/

@[simp] theorem elapse_cfg (s : State) : (elapse s).cfg = s.cfg := by
  unfold elapse; split
  · rfl
  · rename_i m _ _; cases m <;> rfl
@[simp] theorem elapse_seq (s : State) : (elapse s).seq = s.seq := by
  unfold elapse; split
  · rfl
  · rename_i m _ _; cases m <;> rfl
@[simp] theorem elapse_upc (s : State) : (elapse s).upc = s.upc := by
  unfold elapse; split
  · rfl
  · rename_i m _ _; cases m <;> rfl
@[simp] theorem elapse_running (s : State) : (elapse s).running = s.running := by
  unfold elapse; split
  · rfl
  · rename_i m _ _; cases m <;> rfl
@[simp] theorem elapse_nlpc (s : State) : (elapse s).nlpc = s.nlpc := by
  unfold elapse; split
  · rfl
  · rename_i m _ _; cases m <;> rfl
@[simp] theorem elapse_pollcnt (s : State) : (elapse s).pollcnt = s.pollcnt := by
  unfold elapse; split
  · rfl
  · rename_i m _ _; cases m <;> rfl
@[simp] theorem elapse_op (s : State) : (elapse s).op = s.op := by
  unfold elapse; split
  · rfl
  · rename_i m _ _; cases m <;> rfl
@[simp] theorem elapse_argAddr (s : State) : (elapse s).argAddr = s.argAddr := by
  unfold elapse; split
  · rfl
  · rename_i m _ _; cases m <;> rfl
@[simp] theorem elapse_argVal (s : State) : (elapse s).argVal = s.argVal := by
  unfold elapse; split
  · rfl
  · rename_i m _ _; cases m <;> rfl
@[simp] theorem elapse_result (s : State) : (elapse s).result = s.result := by
  unfold elapse; split
  · rfl
  · rename_i m _ _; cases m <;> rfl
@[simp] theorem elapse_tmp (s : State) : (elapse s).tmp = s.tmp := by
  unfold elapse; split
  · rfl
  · rename_i m _ _; cases m <;> rfl
@[simp] theorem elapse_abuf (s : State) : (elapse s).abuf = s.abuf := by
  unfold elapse; split
  · rfl
  · rename_i m _ _; cases m <;> rfl
@[simp] theorem elapse_txbuf (s : State) : (elapse s).txbuf = s.txbuf := by
  unfold elapse; split
  · rfl
  · rename_i m _ _; cases m <;> rfl
@[simp] theorem elapse_rxbuf (s : State) : (elapse s).rxbuf = s.rxbuf := by
  unfold elapse; split
  · rfl
  · rename_i m _ _; cases m <;> rfl
@[simp] theorem elapse_rxcnt (s : State) : (elapse s).rxcnt = s.rxcnt := by
  unfold elapse; split
  · rfl
  · rename_i m _ _; cases m <;> rfl
@[simp] theorem elapse_mode (s : State) : (elapse s).mode = s.mode := by
  unfold elapse; split
  · rfl
  · rename_i m _ _; cases m <;> rfl
@[simp] theorem elapse_csn (s : State) : (elapse s).csn = s.csn := by
  unfold elapse; split
  · rfl
  · rename_i m _ _; cases m <;> rfl
@[simp] theorem elapse_ce (s : State) : (elapse s).ce = s.ce := by
  unfold elapse; split
  · rfl
  · rename_i m _ _; cases m <;> rfl
@[simp] theorem elapse_irqEn (s : State) : (elapse s).irqEn = s.irqEn := by
  unfold elapse; split
  · rfl
  · rename_i m _ _; cases m <;> rfl
@[simp] theorem elapse_fault (s : State) : (elapse s).fault = s.fault := by
  unfold elapse; split
  · rfl
  · rename_i m _ _; cases m <;> rfl
@[simp] theorem elapse_trace (s : State) : (elapse s).trace = s.trace := by
  unfold elapse; split
  · rfl
  · rename_i m _ _; cases m <;> rfl
@[simp] theorem elapse_todo (s : State) : (elapse s).todo = s.todo := by
  unfold elapse; split
  · rfl
  · rename_i m _ _; cases m <;> rfl
@[simp] theorem elapse_rx (s : State) : (elapse s).rx = s.rx := by
  unfold elapse; split
  · rfl
  · rename_i m _ _; cases m <;> rfl
@[simp] theorem elapse_busOut (s : State) : (elapse s).busOut = s.busOut := by
  unfold elapse; split
  · rfl
  · rename_i m _ _; cases m <;> rfl
@[simp] theorem elapse_looks (s : State) : (elapse s).looks = s.looks := by
  unfold elapse; split
  · rfl
  · rename_i m _ _; cases m <;> rfl
@[simp] theorem elapse_host (s : State) : (elapse s).host = s.host := by
  unfold elapse; split
  · rfl
  · rename_i m _ _; cases m <;> rfl
@[simp] theorem elapse_answers (s : State) : (elapse s).answers = s.answers := by
  unfold elapse; split
  · rfl
  · rename_i m _ _; cases m <;> rfl
@[simp] theorem elapse_dbg (s : State) : (elapse s).dbg = s.dbg := by
  unfold elapse; split
  · rfl
  · rename_i m _ _; cases m <;> rfl
@[simp] theorem elapse_free (s : State) : (elapse s).free = s.free := by
  unfold elapse; split
  · rfl
  · rename_i m _ _; cases m <;> rfl

/-! ### The block's view -/

@[simp] theorem sample_block (s : State) : (sample s).block = s.block := rfl
@[simp] theorem emit_block (e : Event) (s : State) : (emit e s).block = s.block := rfl
@[simp] theorem towardsLook_block (s : State) : (towardsLook s).block = s.block := rfl
@[simp] theorem lookDone_block (s : State) : (lookDone s).block = s.block := rfl
@[simp] theorem driveCsn_block (l : Bool) (s : State) : (driveCsn l s).block = { s.block with csn := l } := rfl
@[simp] theorem driveCe_block (l : Bool) (s : State) : (driveCe l s).block = { s.block with ce := l } := rfl
@[simp] theorem leftWithCe_mem (q : Peer) (p : Params) (c : Bool) : (q.leftWithCe p c).mem = q.mem := by
  unfold Peer.leftWithCe; split <;> rfl
@[simp] theorem leftWithCe_st (q : Peer) (p : Params) (c : Bool) : (q.leftWithCe p c).st = q.st := by
  unfold Peer.leftWithCe; split <;> rfl
@[simp] theorem leftWithCe_txf (q : Peer) (p : Params) (c : Bool) : (q.leftWithCe p c).txf = q.txf := by
  unfold Peer.leftWithCe; split <;> rfl
@[simp] theorem leftWithCe_rxf (q : Peer) (p : Params) (c : Bool) : (q.leftWithCe p c).rxf = q.rxf := by
  unfold Peer.leftWithCe; split <;> rfl
@[simp] theorem leftWithCe_low (q : Peer) (p : Params) : q.leftWithCe p false = q := rfl

@[simp] theorem toIdle_block (s : State) : (toIdle s).block = { s.block with seq := .idle, upc := 0 } := rfl
@[simp] theorem startCycle_block (s : State) : (startCycle s).block = { s.block with seq := .op, upc := 0 } := rfl
@[simp] theorem enterHandler_block (s : State) :
    (enterHandler s).block = { s.block with seq := .handler, irqEn := false, upc := 1 } := rfl
@[simp] theorem accept_block (op : Byte) (addr : Addr) (val : Byte) (s : State) :
    (accept op addr val s).block =
      { s.block with op := op, argAddr := addr, argVal := val, seq := .op, upc := 0 } := rfl
@[simp] theorem elapse_block (s : State) : (elapse s).block = s.block := by
  unfold elapse; split
  · rfl
  · rename_i m _ _; cases m <;> rfl

/-- A pending interrupt stays pending over a sample. -/
theorem sample_keeps_pending {s : State} (h : s.irqPend = true) : (sample s).irqPend = true := by
  simp [pendAfterSample, h]

/-- A pending interrupt stays pending while time passes. -/
theorem elapse_keeps_pending {s : State} (h : s.irqPend = true) : (elapse s).irqPend = true := by
  unfold elapse; split
  · exact sample_keeps_pending h
  · rename_i m _ _; cases m <;> exact sample_keeps_pending h

end Sys2Proof.Machine
end

