-- ==== Sys2Proof/Laws/Sequence.lean ====
section
/-! SUPPORT. What a transfer, a micro-operation and a whole micro-sequence do, said once: `runList_completes` is what a proof
about an operation cites. -/

namespace Sys2Proof.Machine

/-! ## The transfer -/

/-- A transfer whose answer completes: the block keeps its state but for the byte received, one X event is appended, the answer
is used. -/
theorem xfer_completes {b : Byte} {s : State} (h : TransfersComplete 1 s) :
    ∃ r t, xfer b s = .done r t ∧ t.block = { s.block with rx := r } ∧ t.trace = s.trace ++ [.x b r] ∧ t.host = s.host
      ∧ t.answers = s.answers.tail ∧ t.dbg = s.dbg ∧ t.irqPend = s.irqPend ∧ t.busOut = none := by
  unfold xfer
  unfold TransfersComplete at h
  split
  · rename_i d rest he
    exact ⟨_, _, rfl, rfl, rfl, rfl, by simp [emit, he], rfl, rfl, rfl⟩
  · rename_i he; simp [he, completing] at h
  · rename_i he; simp [he, completing] at h
  · rename_i he
    exact ⟨_, _, rfl, rfl, rfl, rfl, by simp [emit, he], rfl, rfl, rfl⟩

/-- Under the oracle peer a scripted byte is the byte received (R101). -/
theorem xfer_oracle {b d : Byte} {rest : List Answer} {s : State} (hk : s.peer.kind = .oracle)
    (ha : s.answers = .byte d :: rest) :
    xfer b s = .done d (emit (.x b d) { s with answers := rest, busOut := none, rx := d }) := by
  simp [xfer, ha, exchange, Peer.transfer, hk]

/-- A transfer that never completes changes nothing but that it is in progress (R103). -/
theorem xfer_never {b : Byte} {rest : List Answer} {s : State} (ha : s.answers = .never :: rest) :
    xfer b s = .held { s with busOut := some b } := by
  simp [xfer, ha]

/-- Whatever its answer, a transfer leaves the block's state alone but for the byte received (R101). -/
theorem xfer_block (b : Byte) (s : State) :
    (∃ r t, xfer b s = .done r t ∧ t.block = { s.block with rx := r } ∧ t.irqPend = s.irqPend ∧ t.host = s.host ∧ t.busOut = none
        ∧ t.trace = s.trace ++ [.x b r])
      ∨ (∃ t, xfer b s = .held t ∧ t.block = s.block ∧ t.irqPend = s.irqPend ∧ t.host = s.host ∧ t.busOut = some b
        ∧ t.trace = s.trace ∧ t.peer = s.peer) := by
  unfold xfer
  split
  · exact .inl ⟨_, _, rfl, rfl, rfl, rfl, rfl, rfl⟩
  · exact .inr ⟨_, rfl, rfl, rfl, rfl, rfl, rfl, rfl⟩
  · exact .inr ⟨_, rfl, rfl, rfl, rfl, rfl, rfl, rfl⟩
  · exact .inl ⟨_, _, rfl, rfl, rfl, rfl, rfl, rfl⟩

/-! ## One micro-operation, as a function of the byte it receives -/

/-- What a micro-operation that goes on does to the block's view, `r` being the byte it receives if it transfers. -/
def viewEffect : Micro → Byte → BlockView → BlockView
  | .wait _, _, v => v
  | .csn level, _, v => { v with csn := level }
  | .ce level, _, v => { v with ce := level }
  | .send _, r, v => { v with rx := r }
  | .sendRmw _ _, r, v => { v with rx := r }
  | .storeTmp, _, v => { v with tmp := v.rx }
  | .resultTmp, _, v => { v with result := v.tmp }
  | .resultSending, _, v => { v with result := sendingResult v.cfg v.tmp }
  | .setMode m, _, v => { v with mode := m }
  | .setIrqEn e, _, v => { v with irqEn := e }
  | .clearCount, _, v => { v with rxcnt := 0 }
  | .setAbuf i b, _, v => { v with abuf := v.abuf.set i b }
  | .setTxbuf i b, _, v => { v with txbuf := v.txbuf.set i b }
  | .raise k, _, v => { v with fault := v.fault ||| faultBit k }
  | .storeRx i, _, v => { v with rxbuf := v.rxbuf.set i v.tmp }
  | .echo, _, v => v
  | .count, _, v =>
    if v.tmp = Config.sentinel then
      if countHasRoom v.rxcnt then { v with rxcnt := v.rxcnt + 1 } else { v with fault := v.fault ||| faultBit .cntOverrun }
    else v
  | .setRunning b, _, v => { v with running := b }
  | .setNlpc n, _, v => { v with nlpc := n }
  | .clearPolls, _, v => { v with pollcnt := 0 }
  | .poll, _, v => v
  | .pollTest, _, v => v

/-- The block's view after a micro-operation that goes on. -/
def viewMicro (m : Micro) (r : Byte) (v : BlockView) : BlockView :=
  { viewEffect m r v with upc := v.upc + microSteps v.cfg v.tmp m }

/-- The trace events of a micro-operation that goes on. -/
def eventsMicro : Micro → Byte → BlockView → List Event
  | .wait t, _, _ => [.w t]
  | .csn level, _, _ => [.csn level]
  | .ce level, _, _ => [.ce level]
  | .send b, r, _ => [.x b r]
  | .sendRmw keep set, r, v => [.x (rmwByte v.tmp keep set) r]
  | .echo, _, v => [.d v.tmp]
  | .storeTmp, _, _ => []
  | .resultTmp, _, _ => []
  | .resultSending, _, _ => []
  | .setMode _, _, _ => []
  | .setIrqEn _, _, _ => []
  | .clearCount, _, _ => []
  | .setAbuf _ _, _, _ => []
  | .setTxbuf _ _, _, _ => []
  | .raise _, _, _ => []
  | .storeRx _, _, _ => []
  | .count, _, _ => []
  | .setRunning _, _, _ => []
  | .setNlpc _, _, _ => []
  | .clearPolls, _, _ => []
  | .poll, _, _ => []
  | .pollTest, _, _ => []

/-- The block's view after a list of micro-operations that receives the bytes `rs`. -/
def viewRun : List Micro → List Byte → BlockView → BlockView
  | [], _, v => v
  | m :: ms, rs, v =>
    if transfersByte m then viewRun ms rs.tail (viewMicro m (rs.headD 0) v) else viewRun ms rs (viewMicro m 0 v)

/-- The trace events of a list of micro-operations that receives the bytes `rs`. -/
def eventsRun : List Micro → List Byte → BlockView → List Event
  | [], _, _ => []
  | m :: ms, rs, v =>
    if transfersByte m then
      eventsMicro m (rs.headD 0) v ++ eventsRun ms rs.tail (viewMicro m (rs.headD 0) v)
    else eventsMicro m 0 v ++ eventsRun ms rs (viewMicro m 0 v)

/-- A micro-operation after which the sequence always goes on when its waits complete. -/
def goesOn (m : Micro) : Bool := !(m = .poll) && !(m = .pollTest)

/-! ## Premises over the outside world's scripts -/

theorem completes_tail {n : Nat} {s t : State} (h : TransfersComplete (n + 1) s) (ht : t.answers = s.answers.tail) :
    TransfersComplete n t := by
  unfold TransfersComplete at *
  rw [ht]
  cases hs : s.answers with
  | nil => simp
  | cons a rest => simp_all

theorem completes_one {n : Nat} {s : State} (h : TransfersComplete (n + 1) s) : TransfersComplete 1 s := by
  unfold TransfersComplete at *
  cases hs : s.answers with
  | nil => simp
  | cons a rest => simp_all

theorem completes_congr {n : Nat} {s t : State} (h : TransfersComplete n s) (ht : t.answers = s.answers) :
    TransfersComplete n t := by
  unfold TransfersComplete at *; rwa [ht]

theorem echoes_tail {n : Nat} {s t : State} (h : EchoesComplete (n + 1) s) (ht : t.dbg = s.dbg.tail) :
    EchoesComplete n t := by
  unfold EchoesComplete at *
  rw [ht]
  cases hs : s.dbg with
  | nil => simp
  | cons a rest => simp_all

theorem echoes_one {n : Nat} {s : State} (h : EchoesComplete (n + 1) s) : EchoesComplete 1 s := by
  unfold EchoesComplete at *
  cases hs : s.dbg with
  | nil => simp
  | cons a rest => simp_all

theorem echoes_congr {n : Nat} {s t : State} (h : EchoesComplete n s) (ht : t.dbg = s.dbg) : EchoesComplete n t := by
  unfold EchoesComplete at *; rwa [ht]

/-! ## One micro-operation completes -/

/-- The state a flow carries. -/
def Flow.state : Flow → State
  | .more s => s
  | .hold s => s
  | .jump s _ => s

@[simp] theorem afterMicro_looks (n : Nat) (f : Flow) : (afterMicro n f).state.looks = f.state.looks := by cases f <;> rfl
@[simp] theorem afterMicro_host (n : Nat) (f : Flow) : (afterMicro n f).state.host = f.state.host := by cases f <;> rfl

theorem transfer_looks (b : Byte) (s : State) :
    (transfer b s).state.looks = s.looks ∧ (transfer b s).state.host = s.host := by
  unfold transfer xfer
  split
  · rename_i h; split at h <;> cases h <;> exact ⟨rfl, rfl⟩
  · rename_i h; split at h <;> cases h <;> exact ⟨rfl, rfl⟩

/-- No micro-operation touches what the host does. -/
theorem micro_looks (m : Micro) (s : State) : (micro m s).state.looks = s.looks ∧ (micro m s).state.host = s.host := by
  unfold micro
  rw [afterMicro_looks, afterMicro_host, ← elapse_looks s, ← elapse_host s]
  generalize elapse s = u
  cases m
  case send b => exact transfer_looks b u
  case sendRmw k t => exact transfer_looks _ u
  case echo => show (dbgOut u.tmp u).state.looks = _ ∧ _; simp only [effect]; unfold dbgOut; split <;> exact ⟨rfl, rfl⟩
  case count =>
    show State.looks (if _ then _ else _) = _ ∧ State.host (if _ then _ else _) = _
    split
    · unfold countUp; split <;> exact ⟨rfl, rfl⟩
    · exact ⟨rfl, rfl⟩
  case pollTest => show (pollTest u).state.looks = _ ∧ (pollTest u).state.host = _; unfold pollTest; split <;> exact ⟨rfl, rfl⟩
  all_goals exact ⟨rfl, rfl⟩

/-- A transferring micro-operation whose transfer completes. -/
theorem micro_transfer_completes {m : Micro} {s : State} (hm : transfersByte m = true) (h : TransfersComplete 1 s) :
    ∃ r t, micro m s = .more t ∧ t.block = viewMicro m r s.block ∧ t.trace = s.trace ++ eventsMicro m r s.block
      ∧ t.answers = s.answers.tail ∧ t.dbg = s.dbg ∧ (s.irqPend = true → t.irqPend = true) := by
  have he : TransfersComplete 1 (elapse s) := completes_congr h (by simp)
  have key : ∀ b, (∀ r, eventsMicro m r s.block = [.x b r]) → (∀ r v, viewEffect m r v = { v with rx := r }) →
      effect m (elapse s) = transfer b (elapse s) → microSteps s.cfg s.tmp m = 1 → ∃ r t, micro m s = .more t
        ∧ t.block = viewMicro m r s.block ∧ t.trace = s.trace ++ eventsMicro m r s.block
        ∧ t.answers = s.answers.tail ∧ t.dbg = s.dbg ∧ (s.irqPend = true → t.irqPend = true) := by
    intro b h1 h2 h3 h4
    obtain ⟨r, t, hx, hb, ht, hh, ha, hd, hp, -⟩ := xfer_completes (b := b) he
    refine ⟨r, sample { t with upc := t.upc + 1 }, by simp only [micro, h3, transfer, hx, h4, afterMicro], ?_, ?_,
      by simpa using ha, by simpa using hd, fun h1 => sample_keeps_pending (by simpa [hp] using elapse_keeps_pending h1)⟩
    · simp only [elapse_block] at hb
      have h5 : microSteps s.block.cfg s.block.tmp m = 1 := h4
      simp only [sample_block, viewMicro, h2, h5]
      rw [show ({ t with upc := t.upc + 1 } : State).block = { t.block with upc := t.block.upc + 1 } from rfl, hb]
    · rw [h1]; simpa using ht
  cases m <;> simp [transfersByte] at hm
  case send b => exact key b (fun _ => rfl) (fun _ _ => rfl) rfl rfl
  case sendRmw k x => exact key (rmwByte s.tmp k x) (fun _ => rfl) (fun _ _ => rfl) (by simp [effect]) rfl

/-- A micro-operation that makes no transfer and no echo, and goes on. -/
theorem micro_plain {m : Micro} {s : State} (hm : transfersByte m = false) (hg : goesOn m = true) (hne : echoesByte m = false) :
    ∃ t, micro m s = .more t ∧ t.block = viewMicro m 0 s.block ∧ t.trace = s.trace ++ eventsMicro m 0 s.block
      ∧ t.answers = s.answers ∧ t.dbg = s.dbg ∧ (s.irqPend = true → t.irqPend = true) := by
  have hb : (elapse s).block = s.block := elapse_block s
  cases m <;> simp [transfersByte, goesOn, echoesByte] at hm hg hne
  case count =>
    refine ⟨_, rfl, ?_, ?_, ?_, ?_, fun h1 => sample_keeps_pending (?_ : _ = true)⟩
    · by_cases hs : s.tmp = Config.sentinel
      · by_cases hr : countHasRoom s.rxcnt = true
        · simp [hs, countUp, hr, viewMicro, viewEffect, Machine.State.block]
        · simp [hs, countUp, hr, viewMicro, viewEffect, Machine.State.block]
      · simp [hs, viewMicro, viewEffect, Machine.State.block]
    all_goals by_cases hs : s.tmp = Config.sentinel <;> by_cases hr : countHasRoom s.rxcnt = true
    all_goals try simp [hs, countUp, hr, eventsMicro]
    all_goals exact elapse_keeps_pending (by assumption)
  all_goals
    refine ⟨_, rfl, ?_, ?_, ?_, ?_, fun h1 => sample_keeps_pending (by simp [elapse_keeps_pending h1])⟩ <;>
      simp [viewMicro, viewEffect, microSteps, eventsMicro, Machine.State.block]

/-- The debug echo, when the channel becomes ready (R222). -/
theorem micro_echo {s : State} (h : EchoesComplete 1 s) :
    ∃ t, micro .echo s = .more t ∧ t.block = viewMicro .echo 0 s.block ∧ t.trace = s.trace ++ [.d s.tmp]
      ∧ t.answers = s.answers ∧ t.dbg = s.dbg.tail ∧ (s.irqPend = true → t.irqPend = true) := by
  have hb : (elapse s).block = s.block := elapse_block s
  have hd : (elapse s).dbg = s.dbg := elapse_dbg s
  unfold EchoesComplete at h
  cases hs : s.dbg with
  | nil =>
    rw [hs] at hd
    refine ⟨_, by simp only [micro, effect, dbgOut, hd, afterMicro]; rfl, ?_, by simp, by simp, by simp [hs],
      fun h1 => sample_keeps_pending (by simpa using elapse_keeps_pending h1)⟩
    simp [viewMicro, viewEffect, microSteps, Machine.State.block]
  | cons a rest =>
    rw [hs] at hd
    cases a with
    | ready =>
      refine ⟨_, by simp only [micro, effect, dbgOut, hd, afterMicro]; rfl, ?_, by simp, by simp, by simp,
        fun h1 => sample_keeps_pending (by simpa using elapse_keeps_pending h1)⟩
      simp [viewMicro, viewEffect, microSteps, Machine.State.block]
    | late => simp [hs, accepting] at h
    | never => simp [hs, accepting] at h

/-! ## Whole sequences -/

@[simp] theorem runMicros_nil (s : State) : runMicros [] s = toIdle s := rfl

/-- A run of one micro-operation and the rest: the host looks, or the micro-operation goes on, waits or jumps. -/
theorem runMicros_cons (m : Micro) (ms : List Micro) (s : State) :
    runMicros (m :: ms) s =
      if lookDue s then { lookDone s with todo := m :: ms }
      else
        match micro m (towardsLook s) with
        | .more t => runMicros ms t
        | .hold t => { t with todo := m :: ms }
        | .jump t target => { t with todo := target } := by
  simp only [runMicros, runList]
  by_cases h : lookDue s = true
  · simp only [h, if_true]
  · simp only [h, if_false, Bool.false_eq_true]
    cases micro m (towardsLook s) <;> rfl

/-- With no look to come, a list runs by its first micro-operation and then the rest. -/
theorem runList_cons {m : Micro} {ms : List Micro} {s : State} (h : s.looks = []) :
    runList (m :: ms) s = match micro m s with
      | .more t => runList ms t
      | .hold t => .paused { t with todo := m :: ms }
      | .jump t target => .paused { t with todo := target } := by
  have h1 : towardsLook s = s := by unfold towardsLook; cases s; simp at h ⊢; simp [h]
  simp only [runList, lookDue, h, List.head?_nil, h1]
  rfl

/-- A micro-operation that goes on leaves no look to come where there was none. -/
theorem micro_more_looks {m : Micro} {s t : State} (hm : micro m s = .more t) : t.looks = s.looks ∧ t.host = s.host := by
  have := micro_looks m s
  rw [hm] at this
  exact this

/-- Running two lists one after the other. -/
theorem runList_append (a b : List Micro) {s t : State} (h : runList a s = .finished t) : runList (a ++ b) s = runList b t := by
  induction a generalizing s with
  | nil => cases h; rfl
  | cons m ms ih =>
    simp only [List.cons_append, runList] at h ⊢
    split at h
    · cases h
    · rename_i hl
      rw [if_neg hl]
      split at h
      · rename_i u hu; exact ih h
      · cases h
      · cases h

/-- A micro-sequence whose transfers and echoes all complete, with no look to come, runs to its end: for some bytes `rs` received,
one per transfer, the block and the trace are what `viewRun` and `eventsRun` say, and the outside world's scripts are used up to
there. -/
theorem runList_completes (ms : List Micro) (s : State) (hu : s.looks = []) (hg : ms.all goesOn = true)
    (ht : TransfersComplete (ms.countP transfersByte) s) (hd : EchoesComplete (ms.countP echoesByte) s) :
    ∃ t rs, runList ms s = .finished t ∧ rs.length = ms.countP transfersByte ∧ t.block = viewRun ms rs s.block
      ∧ t.trace = s.trace ++ eventsRun ms rs s.block
      ∧ OutsideAfter (ms.countP transfersByte) (ms.countP echoesByte) s t := by
  induction ms generalizing s with
  | nil => exact ⟨s, [], rfl, rfl, rfl, by simp [eventsRun], rfl, by simp, by simp, id, rfl⟩
  | cons m ms ih =>
    simp only [List.all_cons, Bool.and_eq_true] at hg
    have step : ∀ {u : State} {r : Byte}, micro m s = .more u → u.block = viewMicro m r s.block →
        u.trace = s.trace ++ eventsMicro m r s.block → (s.irqPend = true → u.irqPend = true) →
        (transfersByte m = true ∨ r = 0) →
        u.answers = (if transfersByte m then s.answers.tail else s.answers) →
        u.dbg = (if echoesByte m then s.dbg.tail else s.dbg) →
        ∃ t rs, runList (m :: ms) s = .finished t ∧ rs.length = (m :: ms).countP transfersByte
          ∧ t.block = viewRun (m :: ms) rs s.block ∧ t.trace = s.trace ++ eventsRun (m :: ms) rs s.block
          ∧ OutsideAfter ((m :: ms).countP transfersByte) ((m :: ms).countP echoesByte) s t := by
      intro u r hm hb htr hp hr ha hdb
      obtain ⟨hl, hh⟩ := micro_more_looks hm
      have ht' : TransfersComplete (ms.countP transfersByte) u := by
        by_cases h : transfersByte m = true
        · simp only [List.countP_cons, h, if_true] at ht ha; exact completes_tail ht ha
        · simp only [List.countP_cons, h, Bool.false_eq_true, if_false] at ht ha; exact completes_congr ht ha
      have hd' : EchoesComplete (ms.countP echoesByte) u := by
        by_cases h : echoesByte m = true
        · simp only [List.countP_cons, h, if_true] at hd hdb; exact echoes_tail hd hdb
        · simp only [List.countP_cons, h, Bool.false_eq_true, if_false] at hd hdb; exact echoes_congr hd hdb
      obtain ⟨t, rs, hs, hlen, hvb, hvt, ho1, ho2, ho3, ho4, ho5⟩ := ih u (hl.trans hu) hg.2 ht' hd'
      by_cases h : transfersByte m = true
      · refine ⟨t, r :: rs, by rw [runList_cons hu, hm]; exact hs, by simp [h, hlen], by simp [viewRun, h, hvb, hb],
          by simp [eventsRun, h, hvt, htr, hb], ho1.trans hh, ?_, ?_, fun hq => ho4 (hp hq), ho5.trans hl⟩
        · rw [ho2, ha]; simp [h, List.drop_tail]
        · rw [ho3, hdb]; by_cases h2 : echoesByte m = true <;> simp [h2, List.drop_tail]
      · obtain rfl : r = 0 := hr.resolve_left h
        refine ⟨t, rs, by rw [runList_cons hu, hm]; exact hs, by simp [h, hlen], by simp [viewRun, h, hvb, hb],
          by simp [eventsRun, h, hvt, htr, hb], ho1.trans hh, ?_, ?_, fun hq => ho4 (hp hq), ho5.trans hl⟩
        · rw [ho2, ha]; simp [h]
        · rw [ho3, hdb]; by_cases h2 : echoesByte m = true <;> simp [h2, List.drop_tail]
    by_cases htm : transfersByte m = true
    · have hem : echoesByte m = false := by cases m <;> simp_all [transfersByte, echoesByte]
      have h1 : TransfersComplete 1 s := completes_one (n := ms.countP transfersByte) (by simpa [htm] using ht)
      obtain ⟨r, u, hm, hb, htr, ha, hdb, hp⟩ := micro_transfer_completes htm h1
      exact step hm hb htr hp (.inl htm) (by simpa [htm] using ha) (by simpa [hem] using hdb)
    · simp only [Bool.not_eq_true] at htm
      by_cases hem : echoesByte m = true
      · obtain rfl : m = .echo := by simpa [echoesByte] using hem
        have h1 : EchoesComplete 1 s := echoes_one (n := ms.countP echoesByte) (by simpa [hem] using hd)
        obtain ⟨u, hm, hb, htr, ha, hdb, hp⟩ := micro_echo h1
        exact step hm hb htr hp (.inr rfl) (by simpa [htm] using ha) (by simpa [hem] using hdb)
      · simp only [Bool.not_eq_true] at hem
        obtain ⟨u, hm, hb, htr, ha, hdb, hp⟩ := micro_plain (s := s) htm hg.1 hem
        exact step hm hb htr hp (.inr rfl) (by simpa [htm] using ha) (by simpa [hem] using hdb)

end Sys2Proof.Machine
end

