-- ==== Sys2Proof/Laws/Commands.lean ====
section
/-! SUPPORT. What a command does when its waits complete, from `runList_completes`. -/

namespace Sys2Proof.Machine

/-- A list is its bytes by place, as the function the trace shapes of Safety.lean take. -/
theorem list_as_bytes {n : Nat} {rs : List Byte} (h : rs.length = n) : ∃ d : Nat → Byte, rs = (List.range n).map d := by
  subst h
  refine ⟨fun k => rs.getD k 0, List.ext_getElem (by simp) fun k h1 h2 => ?_⟩
  simp [h1]

/-- A command presented while the block is not ready waits (R72). -/
theorem command_waits {op : Byte} {addr : Addr} {val : Byte} {prog : State → List Micro} {s : State}
    (h : s.ready = false) : command op addr val prog s = .next s := by
  simp [command, h]

/-- A command never ends in a fault or a refusal. -/
theorem command_next (op : Byte) (addr : Addr) (val : Byte) (prog : State → List Micro) (s : State) :
    ∃ t, command op addr val prog s = .next t := by
  unfold command; split <;> exact ⟨_, rfl⟩

/-- A command whose waits complete: what it does to the block, the trace and the scripts, over the bytes `d 0`, `d 1`, ... that
it receives (R72). -/
theorem command_completes {op : Byte} {addr : Addr} {val : Byte} {prog : State → List Micro} {s : State} {n k : Nat}
    (hr : s.ready = true) (hu : Unwatched s) (hg : (prog (accept op addr val s)).all goesOn = true)
    (hn : (prog (accept op addr val s)).countP transfersByte = n)
    (hk : (prog (accept op addr val s)).countP echoesByte = k)
    (ht : TransfersComplete n s) (hd : EchoesComplete k s) :
    ∃ (t : State) (d : Nat → Byte), command op addr val prog s = .next t
      ∧ t.block =
        { viewRun (prog (accept op addr val s)) ((List.range n).map d) (accept op addr val s).block with
          seq := .idle, upc := 0 }
      ∧ t.trace = s.trace ++ eventsRun (prog (accept op addr val s)) ((List.range n).map d) (accept op addr val s).block
      ∧ OutsideAfter n k s t := by
  subst hn; subst hk
  obtain ⟨t, rs, hs, hl, hb, htr, ho⟩ := runList_completes (prog (accept op addr val s)) (accept op addr val s) hu hg ht hd
  obtain ⟨d, rfl⟩ := list_as_bytes hl
  refine ⟨toIdle t, d, ?_, ?_, ?_, ?_⟩
  · simp [command, hr, runMicros, hs]
  · simp [hb]
  · simpa using htr
  · exact ho

end Sys2Proof.Machine
end

