-- ==== Sys2Proof/Laws/Frames.lean ====
section
/-! SUPPORT. What each frame does to the block's view and to the trace, whatever follows it: cite these with
`command_completes` instead of unfolding a program. -/

namespace Sys2Proof.Machine

/-! ## Read-modify-write data -/

theorem rmwByte_keep_all (tmp set : Byte) : rmwByte tmp 255#8 set = tmp ||| set := by
  unfold rmwByte
  rw [show 255#8 = BitVec.allOnes 8 from rfl, BitVec.and_allOnes]

theorem rmwByte_set_none (tmp keep : Byte) : rmwByte tmp keep 0#8 = tmp &&& keep := by
  unfold rmwByte
  exact BitVec.or_zero

/-! ## Frames followed by more -/

variable (p : Params) (ms : List Micro) (v : BlockView)

theorem viewRun_regRead (a : Addr) (r0 r1 : Byte) (rs : List Byte) :
    viewRun (regRead p a ++ ms) (r0 :: r1 :: rs) v = viewRun ms rs { v with rx := r1, csn := true, upc := v.upc + 8 } := by
  simp [regRead, frameByte, frameBegin, frameEnd, viewRun, viewMicro, viewEffect, microSteps, transfersByte]

theorem eventsRun_regRead (a : Addr) (r0 r1 : Byte) (rs : List Byte) :
    eventsRun (regRead p a ++ ms) (r0 :: r1 :: rs) v =
      readFrame p a r0 r1 ++ eventsRun ms rs { v with rx := r1, csn := true, upc := v.upc + 8 } := by
  simp [regRead, frameByte, frameBegin, frameEnd, eventsRun, viewMicro, viewEffect, microSteps, transfersByte,
    eventsMicro, readFrame, frameEvents]

theorem viewRun_regWrite (a : Addr) (b r0 r1 : Byte) (rs : List Byte) :
    viewRun (regWrite p a b ++ ms) (r0 :: r1 :: rs) v = viewRun ms rs { v with rx := r1, csn := true, upc := v.upc + 8 } := by
  simp [regWrite, frameByte, frameBegin, frameEnd, viewRun, viewMicro, viewEffect, microSteps, transfersByte]

theorem eventsRun_regWrite (a : Addr) (b r0 r1 : Byte) (rs : List Byte) :
    eventsRun (regWrite p a b ++ ms) (r0 :: r1 :: rs) v =
      writeFrame p a b r0 r1 ++ eventsRun ms rs { v with rx := r1, csn := true, upc := v.upc + 8 } := by
  simp [regWrite, frameByte, frameBegin, frameEnd, eventsRun, viewMicro, viewEffect, microSteps, transfersByte, eventsMicro,
    writeFrame, frameEvents]

theorem viewRun_regWriteRmw (a : Addr) (keep set r0 r1 : Byte) (rs : List Byte) :
    viewRun (regWriteRmw p a keep set ++ ms) (r0 :: r1 :: rs) v =
      viewRun ms rs { v with rx := r1, csn := true, upc := v.upc + 8 } := by
  simp [regWriteRmw, frameByte, frameRmw, frameBegin, frameEnd, viewRun, viewMicro, viewEffect, microSteps, transfersByte]

theorem eventsRun_regWriteRmw (a : Addr) (keep set r0 r1 : Byte) (rs : List Byte) :
    eventsRun (regWriteRmw p a keep set ++ ms) (r0 :: r1 :: rs) v =
      writeFrame p a (rmwByte v.tmp keep set) r0 r1 ++ eventsRun ms rs { v with rx := r1, csn := true, upc := v.upc + 8 } := by
  simp [regWriteRmw, frameByte, frameRmw, frameBegin, frameEnd, eventsRun, viewMicro, viewEffect, microSteps, transfersByte,
    eventsMicro, writeFrame, frameEvents]

theorem viewRun_statusFrame (r0 : Byte) (rs : List Byte) :
    viewRun (statusFrame p ++ ms) (r0 :: rs) v = viewRun ms rs { v with rx := r0, csn := true, upc := v.upc + 6 } := by
  simp [statusFrame, frameByte, frameBegin, frameEnd, viewRun, viewMicro, viewEffect, microSteps, transfersByte]

theorem eventsRun_statusFrame (r0 : Byte) (rs : List Byte) :
    eventsRun (statusFrame p ++ ms) (r0 :: rs) v =
      shortFrame p p.opcNop r0 ++ eventsRun ms rs { v with rx := r0, csn := true, upc := v.upc + 6 } := by
  simp [statusFrame, frameByte, frameBegin, frameEnd, eventsRun, viewMicro, viewEffect, microSteps, transfersByte, eventsMicro,
    shortFrame, frameEvents]

theorem viewRun_flushFrame (b r0 : Byte) (rs : List Byte) :
    viewRun (flushFrame p b ++ ms) (r0 :: rs) v = viewRun ms rs { v with rx := r0, csn := true, upc := v.upc + 6 } := by
  simp [flushFrame, frameByte, frameBegin, frameEnd, viewRun, viewMicro, viewEffect, microSteps, transfersByte]

theorem eventsRun_flushFrame (b r0 : Byte) (rs : List Byte) :
    eventsRun (flushFrame p b ++ ms) (r0 :: rs) v =
      shortFrame p b r0 ++ eventsRun ms rs { v with rx := r0, csn := true, upc := v.upc + 6 } := by
  simp [flushFrame, frameByte, frameBegin, frameEnd, eventsRun, viewMicro, viewEffect, microSteps, transfersByte, eventsMicro,
    shortFrame, frameEvents]

/-- The bytes of an address, one by one. -/
theorem deviceAddress_toList (b : DeviceAddress) : b.toList = [b[0], b[1], b[2], b[3], b[4]] := by
  rcases b with ⟨⟨l⟩, h⟩
  match l, h with
  | [_, _, _, _, _], _ => rfl

/-- The bytes of a payload, one by one. -/
theorem payload_toList (b : Payload) : b.toList = [b[0], b[1], b[2], b[3], b[4], b[5], b[6], b[7]] := by
  rcases b with ⟨⟨l⟩, h⟩
  match l, h with
  | [_, _, _, _, _, _, _, _], _ => rfl

theorem viewRun_addrWrite (a : Addr) (b : DeviceAddress) (r0 r1 r2 r3 r4 r5 : Byte) (rs : List Byte) :
    viewRun (addrWrite p a b ++ ms) (r0 :: r1 :: r2 :: r3 :: r4 :: r5 :: rs) v =
      viewRun ms rs { v with rx := r5, csn := true, upc := v.upc + 16 } := by
  simp [addrWrite, frameBytes, deviceAddress_toList, frameByte, frameBegin, frameEnd, viewRun, viewMicro, viewEffect, microSteps,
    transfersByte]

theorem eventsRun_addrWrite (a : Addr) (b : DeviceAddress) (r0 r1 r2 r3 r4 r5 : Byte) (rs : List Byte) :
    eventsRun (addrWrite p a b ++ ms) (r0 :: r1 :: r2 :: r3 :: r4 :: r5 :: rs) v =
      frameEvents p.tSettle [(writeCommand p a, r0), (b[0], r1), (b[1], r2), (b[2], r3), (b[3], r4), (b[4], r5)]
        ++ eventsRun ms rs { v with rx := r5, csn := true, upc := v.upc + 16 } := by
  simp [addrWrite, frameBytes, deviceAddress_toList, frameByte, frameBegin, frameEnd, eventsRun, viewMicro,
    viewEffect, microSteps, transfersByte, eventsMicro, frameEvents]

theorem viewRun_txPayloadFrame (b : Payload) (r0 r1 r2 r3 r4 r5 r6 r7 r8 : Byte) (rs : List Byte) :
    viewRun (txPayloadFrame p b ++ ms) (r0 :: r1 :: r2 :: r3 :: r4 :: r5 :: r6 :: r7 :: r8 :: rs) v =
      viewRun ms rs { v with rx := r8, csn := true, upc := v.upc + 22 } := by
  simp [txPayloadFrame, frameBytes, payload_toList, frameByte, frameBegin, frameEnd, viewRun, viewMicro, viewEffect, microSteps,
    transfersByte]

theorem eventsRun_txPayloadFrame (b : Payload) (r0 r1 r2 r3 r4 r5 r6 r7 r8 : Byte) (rs : List Byte) :
    eventsRun (txPayloadFrame p b ++ ms) (r0 :: r1 :: r2 :: r3 :: r4 :: r5 :: r6 :: r7 :: r8 :: rs) v =
      frameEvents p.tSettle [(p.opcWTxPayload, r0), (b[0], r1), (b[1], r2), (b[2], r3), (b[3], r4), (b[4], r5), (b[5], r6),
          (b[6], r7), (b[7], r8)]
        ++ eventsRun ms rs { v with rx := r8, csn := true, upc := v.upc + 22 } := by
  simp [txPayloadFrame, frameBytes, payload_toList, frameByte, frameBegin, frameEnd, eventsRun, viewMicro, viewEffect, microSteps,
    transfersByte, eventsMicro, frameEvents]

/-! ## The sequences of Transceiver Control followed by more -/

theorem viewRun_enterTxBody (r0 r1 r2 r3 r4 r5 r6 r7 r8 r9 r10 r11 r12 r13 r14 : Byte) (rs : List Byte) :
    viewRun (enterTxBody p ++ ms)
        (r0 :: r1 :: r2 :: r3 :: r4 :: r5 :: r6 :: r7 :: r8 :: r9 :: r10 :: r11 :: r12 :: r13 :: r14 :: rs) v =
      viewRun ms rs
        { v with tmp := r12, rx := r14, csn := true, ce := false, mode := .transmitting, upc := v.upc + 68 } := by
  simp [enterTxBody, cfgRmw, clearFlags, maskTxIrqOn, viewRun, transfersByte, viewRun_regRead,
    viewRun_regWriteRmw, viewRun_flushFrame, viewRun_regWrite, viewMicro, viewEffect, microSteps]

theorem eventsRun_enterTxBody (d : Nat → Byte) (n : Nat) (rs : List Byte) :
    eventsRun (enterTxBody p ++ ms)
        (d n :: d (n + 1) :: d (n + 2) :: d (n + 3) :: d (n + 4) :: d (n + 5) :: d (n + 6) :: d (n + 7) :: d (n + 8)
          :: d (n + 9) :: d (n + 10) :: d (n + 11) :: d (n + 12) :: d (n + 13) :: d (n + 14) :: rs) v =
      enterTxEvents p d n
        ++ eventsRun ms rs
          { v with tmp := d (n + 12), rx := d (n + 14), csn := true, ce := false, mode := .transmitting, upc := v.upc + 68 } := by
  simp [enterTxBody, cfgRmw, clearFlags, maskTxIrqOn, eventsRun, transfersByte, eventsRun_regRead,
    eventsRun_regWriteRmw, eventsRun_flushFrame, eventsRun_regWrite, viewMicro, viewEffect, microSteps, eventsMicro,
    rmwByte_keep_all, rmwByte_set_none, enterTxEvents]

theorem viewRun_enterRxBody (r0 r1 r2 r3 r4 r5 r6 r7 r8 r9 r10 : Byte) (rs : List Byte) :
    viewRun (enterRxBody p ++ ms) (r0 :: r1 :: r2 :: r3 :: r4 :: r5 :: r6 :: r7 :: r8 :: r9 :: r10 :: rs) v =
      viewRun ms rs { v with tmp := r8, rx := r10, csn := true, ce := true, mode := .listening, upc := v.upc + 52 } := by
  simp [enterRxBody, cfgRmw, clearFlags, maskTxIrqOn, viewRun, transfersByte, viewRun_regRead,
    viewRun_regWriteRmw, viewRun_flushFrame, viewRun_regWrite, viewMicro, viewEffect, microSteps]

theorem eventsRun_enterRxBody (d : Nat → Byte) (n : Nat) (rs : List Byte) :
    eventsRun (enterRxBody p ++ ms)
        (d n :: d (n + 1) :: d (n + 2) :: d (n + 3) :: d (n + 4) :: d (n + 5) :: d (n + 6) :: d (n + 7) :: d (n + 8)
          :: d (n + 9) :: d (n + 10) :: rs) v =
      enterRxEvents p d n
        ++ eventsRun ms rs
          { v with tmp := d (n + 8), rx := d (n + 10), csn := true, ce := true, mode := .listening, upc := v.upc + 52 } := by
  simp [enterRxBody, cfgRmw, clearFlags, maskTxIrqOn, eventsRun, transfersByte, eventsRun_regRead,
    eventsRun_regWriteRmw, eventsRun_flushFrame, eventsRun_regWrite, viewMicro, viewEffect, microSteps, eventsMicro,
    rmwByte_keep_all, enterRxEvents]

theorem viewRun_sendBody (b : Payload) (r0 r1 r2 r3 r4 r5 r6 r7 r8 r9 : Byte) (rs : List Byte) :
    viewRun (sendBody p b ++ ms) (r0 :: r1 :: r2 :: r3 :: r4 :: r5 :: r6 :: r7 :: r8 :: r9 :: rs) v =
      viewRun ms rs { v with rx := r9, csn := true, ce := false, upc := v.upc + 32 } := by
  simp [sendBody, viewRun_flushFrame, viewRun_txPayloadFrame, viewRun, transfersByte, viewMicro, viewEffect, microSteps]

theorem eventsRun_sendBody (b : Payload) (d : Nat → Byte) (n : Nat) (rs : List Byte) :
    eventsRun (sendBody p b ++ ms)
        (d n :: d (n + 1) :: d (n + 2) :: d (n + 3) :: d (n + 4) :: d (n + 5) :: d (n + 6) :: d (n + 7) :: d (n + 8)
          :: d (n + 9) :: rs) v =
      sendEvents p b d n ++ eventsRun ms rs { v with rx := d (n + 9), csn := true, ce := false, upc := v.upc + 32 } := by
  simp [sendBody, eventsRun_flushFrame, eventsRun_txPayloadFrame, eventsRun, transfersByte, viewMicro, viewEffect, microSteps,
    eventsMicro, sendEvents, payloadFrame]

end Sys2Proof.Machine
end

