-- ==== Sys2Proof/Laws/Capture.lean ====
section
/-! SUPPORT. What the handler does with one byte, and what its counting comes to over several. -/

namespace Sys2Proof.Machine

/-- RXCNT after the handler's count of one byte (R224). -/
def countAfter (c : Counter) (r : Byte) : Counter := if r = Config.sentinel ∧ countHasRoom c = true then c + 1 else c

/-- FAULT after the handler's count of one byte (R224). -/
def faultAfter (c : Counter) (f : BitVec 4) (r : Byte) : BitVec 4 :=
  if r = Config.sentinel ∧ countHasRoom c = false then f ||| faultBit .cntOverrun else f

theorem viewRun_captureByte (p : Params) (ms : List Micro) (v : BlockView) (i : Fin payloadLen) (r : Byte) (rs : List Byte) :
    viewRun (captureByte p i ++ ms) (r :: rs) v =
      viewRun ms rs
        { v with tmp := r, rx := r, rxbuf := v.rxbuf.set i r, rxcnt := countAfter v.rxcnt r, fault := faultAfter v.rxcnt v.fault r
                 upc := v.upc + (5 + if r = Config.sentinel then 1 else 0) } := by
  by_cases hs : r = Config.sentinel <;> by_cases hr : countHasRoom v.rxcnt = true <;>
    simp [captureByte, frameByte, viewRun, transfersByte, viewMicro, viewEffect, microSteps, countAfter, faultAfter, hs, hr]

theorem eventsRun_captureByte (p : Params) (ms : List Micro) (v : BlockView) (i : Fin payloadLen) (r : Byte)
    (rs : List Byte) :
    eventsRun (captureByte p i ++ ms) (r :: rs) v =
      [.x p.opcNop r, .w p.tSettle, .d r]
        ++ eventsRun ms rs
          { v with tmp := r, rx := r, rxbuf := v.rxbuf.set i r, rxcnt := countAfter v.rxcnt r, fault := faultAfter v.rxcnt v.fault r
                   upc := v.upc + (5 + if r = Config.sentinel then 1 else 0) } := by
  by_cases hs : r = Config.sentinel <;> by_cases hr : countHasRoom v.rxcnt = true <;>
    simp [captureByte, frameByte, eventsRun, transfersByte, viewMicro, viewEffect, microSteps, eventsMicro, countAfter, faultAfter, hs, hr]

/-- The counter and the fault flags after one byte, together. -/
def countStep (x : Counter × BitVec 4) (r : Byte) : Counter × BitVec 4 := (countAfter x.1 r, faultAfter x.1 x.2 r)

/-- Counting over a list of bytes: RXCNT is raised by the sentinels up to PAYLOAD_LEN, and CNT_OVERRUN is set exactly when that
would pass it (R224). -/
theorem countStep_fold (rs : List Byte) (c : Counter) (f : BitVec 4) (hc : c.toNat ≤ 8) :
    rs.foldl countStep (c, f) =
      (BitVec.ofNat cntW (min 8 (c.toNat + rs.countP (fun b => b = Config.sentinel))),
        if 8 < c.toNat + rs.countP (fun b => b = Config.sentinel) then f ||| 4 else f) := by
  induction rs generalizing c f with
  | nil => simp [Nat.min_eq_right hc]; omega
  | cons r rs ih =>
    simp only [List.foldl_cons, List.countP_cons]
    by_cases hs : r = Config.sentinel
    · by_cases h8 : c.toNat < 8
      · have h1 : (c + 1).toNat = c.toNat + 1 := by simp [BitVec.toNat_add, cntW]; omega
        have h2 : countStep (c, f) r = (c + 1, f) := by
          simp [countStep, countAfter, faultAfter, hs, countHasRoom, payloadLen, h8]
        have h3 : c.toNat + 1 + rs.countP (fun b => decide (b = Config.sentinel)) =
            c.toNat + (rs.countP (fun b => decide (b = Config.sentinel)) + 1) := by omega
        rw [h2, ih _ _ (by omega), h1]
        simp [hs, h3]
      · have h2 : countStep (c, f) r = (c, f ||| 4) := by
          simp [countStep, countAfter, faultAfter, hs, countHasRoom, payloadLen, h8, faultBit]
        have h3 : c.toNat = 8 := by omega
        rw [h2, ih _ _ (by omega)]
        simp [hs, h3]
        intro _; rw [BitVec.or_assoc]; rfl
    · have h2 : countStep (c, f) r = (c, f) := by simp [countStep, countAfter, faultAfter, hs]
      rw [h2, ih _ _ hc]; simp [hs]

end Sys2Proof.Machine
end

