-- ==== Sys2Proof/Laws/Decode.lean ====
section
/-! SUPPORT. The laws of the encodings: the fields of a command word, what a code selects, the register-form command bytes. -/

namespace Sys2Proof

/-! ## The command word -/

@[simp] theorem op_commandWord (op : Byte) (addr : Addr) (val : Byte) : CmdWord.op (commandWord op addr val) = op := by
  ext i hi
  simp [CmdWord.op, commandWord, BitVec.getLsbD_of_ge addr (16 + i - 8) (by omega),
    BitVec.getLsbD_of_ge val (16 + i) (by omega), show 16 + i < 24 by omega, BitVec.getLsbD_eq_getElem hi]

@[simp] theorem addr_commandWord (op : Byte) (addr : Addr) (val : Byte) : CmdWord.addr (commandWord op addr val) = addr := by
  ext i hi
  simp [CmdWord.addr, commandWord, show 8 + i < 16 by omega, show 8 + i < 24 by omega, BitVec.getLsbD_eq_getElem hi]

@[simp] theorem val_commandWord (op : Byte) (addr : Addr) (val : Byte) : CmdWord.val (commandWord op addr val) = val := by
  ext i hi
  simp [CmdWord.val, commandWord, show i < 16 by omega, show i < 8 by omega, show i < 24 by omega]

/-- Every operation's encoding decodes to it: a code and its operation stand in the table together. -/
theorem decodeFields_ok {op : Byte} {addr : Addr} {val : Byte} {i : Instr} (h : decodeFields op addr val = .ok i) :
    ∃ operation, (op, operation) ∈ operations ∧ i = operation addr val := by
  have aux : ∀ l : List (Byte × (Addr → Byte → Instr)), ∀ f, l.lookup op = some f → (op, f) ∈ l := by
    intro l f
    induction l with
    | nil => simp
    | cons c rest ih =>
      obtain ⟨k, g⟩ := c
      simp only [List.lookup_cons]
      intro h
      split at h
      · rename_i hk
        have hk : op = k := by simpa using hk
        simp_all
      · exact List.mem_cons_of_mem _ (ih h)
  unfold decodeFields at h
  split at h
  · rename_i f hf
    injection h with h
    exact ⟨f, aux _ _ hf, h.symm⟩
  · cases h

/-- A code selects nothing exactly when it is none of the table's, whatever the other fields. -/
theorem decodeFields_error {op : Byte} {addr : Addr} {val : Byte} {e : DecodeError} :
    decodeFields op addr val = .error e ↔ e = .reservedOp op ∧ op ∉ operations.map Prod.fst := by
  have aux : ∀ l : List (Byte × (Addr → Byte → Instr)), l.lookup op = none ↔ op ∉ l.map Prod.fst := by
    intro l
    induction l with
    | nil => simp
    | cons c rest ih =>
      obtain ⟨k, g⟩ := c
      simp only [List.lookup_cons, List.map_cons, List.mem_cons, not_or]
      split
      · rename_i hk
        have hk : op = k := by simpa using hk
        simp_all
      · rename_i hk
        have hk : op ≠ k := by simpa using hk
        simp_all
  unfold decodeFields
  split
  · rename_i f hf
    have : ¬ operations.lookup op = none := by simp [hf]
    rw [aux] at this
    simp_all
  · rename_i hn
    rw [aux] at hn
    simp only [Except.error.injEq]
    exact ⟨fun h => ⟨h.symm, hn⟩, fun h => h.1.symm⟩

/-- A decoded instruction is one of the twenty operations, not a wire command. -/
theorem decodeCommand_ok {w : CmdWord} {i : Instr} (h : decodeCommand w = .ok i) :
    ∃ operation, (w.op, operation) ∈ operations ∧ i = operation w.addr w.val :=
  decodeFields_ok h

/-! ## The wire command byte -/

/-- A register-form command byte gives back its opcode and its address when the opcode's low five bits are zero (R76). -/
theorem registerByte_parts {opc : Byte} (a : Addr) (h : opc &&& 0x1F = 0) :
    wireAddr (registerByte opc a) = a ∧ registerByte opc a &&& 0xE0 = opc := by
  have hb : ∀ i, i < 5 → opc.getLsbD i = false := by
    intro i hi
    have h1 : (opc &&& 0x1F).getLsbD i = false := by rw [h]; exact BitVec.getLsbD_zero
    have h5 : ∀ i, i < 5 → (0x1F : Byte).getLsbD i = true := by decide
    rwa [BitVec.getLsbD_and, h5 i hi, Bool.and_true] at h1
  have he : ∀ i, i < 8 → (0xE0 : Byte).getLsbD i = decide (5 ≤ i) := by decide
  constructor
  · ext i hi
    have := hb i hi
    rw [BitVec.getLsbD_eq_getElem (by omega)] at this
    simp [wireAddr, registerByte, this, BitVec.getLsbD_eq_getElem hi, show i < 8 by omega]
  · ext i hi
    rw [← BitVec.getLsbD_eq_getElem hi, ← BitVec.getLsbD_eq_getElem hi, BitVec.getLsbD_and, he i hi]
    by_cases h5 : i < 5
    · simp [hb i h5, show ¬ 5 ≤ i by omega]
    · simp [registerByte, show 5 ≤ i by omega]

/-- What a well-formed opcode table says (R6). -/
theorem wellFormed_opcodes {p : Params} (h : p.wellFormed = true) :
    (p.opcRRegister :: p.opcWRegister :: p.fixedOpcodes).Nodup ∧ p.opcRRegister &&& 0x1F = 0 ∧ p.opcWRegister &&& 0x1F = 0 := by
  simp only [Params.wellFormed, Params.opcodesDistinct, Params.registerOpcodesClear, Bool.and_eq_true, decide_eq_true_eq,
    beq_iff_eq] at h
  exact ⟨h.1.1.1.1, h.1.1.1.2.1, h.1.1.1.2.2⟩

/-- What well-formed register addresses are (R6). -/
theorem wellFormed_addresses {p : Params} (h : p.wellFormed = true) :
    [p.regConfig, p.regEnRxaddr, p.regSetupAw, p.regSetupRetr, p.regRfCh, p.regRfSetup, p.regStatus, p.regRxAddrP0,
      p.regTxAddr, p.regRxPwP0].Nodup := by
  simp only [Params.wellFormed, Params.addressesDistinct, Bool.and_eq_true, decide_eq_true_eq] at h
  exact h.1.1.2

/-- The command byte of a register read is decoded as one (R78). -/
theorem decodeWireCmd_read {p : Params} (h : p.wellFormed = true) (hc : NoCollision p) (a : Addr) :
    decodeWireCmd p (Machine.readCommand p a) = some (.readReg a) := by
  have hn := (hc a).1
  obtain ⟨-, hr, -⟩ := wellFormed_opcodes h
  simp only [Params.fixedOpcodes, List.mem_cons, List.not_mem_nil, or_false, not_or] at hn
  obtain ⟨h1, h2, h3, h4, h5⟩ := hn
  have := registerByte_parts a hr
  simp only [Machine.readCommand] at *
  simp only [decodeWireCmd, h1, h2, h3, h4, h5, if_false, this, if_true]

/-- The command byte of a register write is decoded as one (R78). -/
theorem decodeWireCmd_write {p : Params} (h : p.wellFormed = true) (hc : NoCollision p) (a : Addr) :
    decodeWireCmd p (Machine.writeCommand p a) = some (.writeReg a) := by
  have hn := (hc a).2
  obtain ⟨hnd, hr, hw⟩ := wellFormed_opcodes h
  simp only [Params.fixedOpcodes, List.mem_cons, List.not_mem_nil, or_false, not_or] at hn
  obtain ⟨h1, h2, h3, h4, h5⟩ := hn
  have := registerByte_parts a hw
  have hne : p.opcWRegister ≠ p.opcRRegister := by
    intro e; simp [e] at hnd
  simp only [Machine.writeCommand] at *
  simp only [decodeWireCmd, h1, h2, h3, h4, h5, if_false, this, hne, if_true]

/-- The five fixed command bytes are decoded as what they are (R78). -/
theorem decodeWireCmd_fixed {p : Params} (h : p.wellFormed = true) :
    decodeWireCmd p p.opcRRxPayload = some .readRxPayload ∧ decodeWireCmd p p.opcWTxPayload = some .writeTxPayload
      ∧ decodeWireCmd p p.opcFlushTx = some .flushTx ∧ decodeWireCmd p p.opcFlushRx = some .flushRx
      ∧ decodeWireCmd p p.opcNop = some .nop := by
  have hn := (wellFormed_opcodes h).1
  simp only [Params.fixedOpcodes, List.nodup_cons, List.mem_cons, List.not_mem_nil, or_false, not_or] at hn
  obtain ⟨-, -, ⟨a1, a2, a3, a4⟩, ⟨b1, b2, b3⟩, ⟨c1, c2⟩, d1, -⟩ := hn
  refine ⟨?_, ?_, ?_, ?_, ?_⟩ <;>
    simp [decodeWireCmd, Ne.symm a1, Ne.symm a2, Ne.symm a3, Ne.symm a4, Ne.symm b1, Ne.symm b2, Ne.symm b3, Ne.symm c1,
      Ne.symm c2, Ne.symm d1]

/-- A command word written as R71's concatenation `{op, 000, addr, val}`. -/
theorem decodeCommand_fields (op : Byte) (addr : Addr) (val : Byte) :
    decodeCommand (op ++ 0b000#3 ++ addr ++ val) = decodeFields op addr val := by
  have get (i : Nat) : BitVec.getLsbD (w := 24) (op ++ 0b000#3 ++ addr ++ val) i =
      if i < 8 then val.getLsbD i else if i - 8 < 5 then addr.getLsbD (i - 8)
        else if i - 8 - 5 < 3 then false else op.getLsbD (i - 8 - 5 - 3) := by
    show BitVec.getLsbD (w := 8 + 3 + 5 + 8) _ i = _
    rw [BitVec.getLsbD_append, BitVec.getLsbD_append, BitVec.getLsbD_append]
    simp
  have h1 : CmdWord.op (op ++ 0b000#3 ++ addr ++ val) = op := by
    apply BitVec.eq_of_getLsbD_eq; intro i hi
    have e : 16 + i - 8 - 5 - 3 = i := by omega
    rw [CmdWord.op, BitVec.getLsbD_extractLsb', get, if_neg (by omega), if_neg (by omega), if_neg (by omega), e]
    simp [hi]
  have h2 : CmdWord.addr (op ++ 0b000#3 ++ addr ++ val) = addr := by
    apply BitVec.eq_of_getLsbD_eq; intro i hi
    rw [CmdWord.addr, BitVec.getLsbD_extractLsb', get, if_neg (by omega), if_pos (by omega), Nat.add_sub_cancel_left]
    simp [hi]
  have h3 : CmdWord.val (op ++ 0b000#3 ++ addr ++ val) = val := by
    apply BitVec.eq_of_getLsbD_eq; intro i hi
    rw [CmdWord.val, BitVec.getLsbD_extractLsb', get, if_pos (by omega), Nat.zero_add]
    simp [hi]
  unfold decodeCommand
  rw [h1, h2, h3]

end Sys2Proof
end

