-- ==== Sys2Proof/Laws/Memory.lean ====
section
/-! SUPPORT. The laws of the peer's register memory: read after write, and that a write keeps the canonical form. -/

namespace Sys2Proof.Machine

/-- A write leaves every other cell alone, whatever the form of the memory. -/
theorem read_write_other (m : Memory) {a b : Nat} (v : Byte) (h : b ≠ a) :
    Memory.read (Memory.write m a v) b = Memory.read m b := by
  induction m with
  | nil => simp only [Memory.write]; split <;> simp [Memory.read, h.symm]
  | cons c rest ih =>
    obtain ⟨k, w⟩ := c
    simp only [Memory.write]
    split
    · split <;> simp [Memory.read, h.symm]
    · split
      · subst k; split <;> simp [Memory.read, h.symm]
      · simp only [Memory.read, ih]

/-- Below its first listed cell a canonical memory reads as the background. -/
theorem read_below {lo a : Nat} (m : Memory) (h : Memory.wfFrom lo m = true) (ha : a < lo) : Memory.read m a = memBackground := by
  induction m generalizing lo with
  | nil => rfl
  | cons c rest ih =>
    obtain ⟨k, w⟩ := c
    simp only [Memory.wfFrom, Bool.and_eq_true, decide_eq_true_eq] at h
    have hk : k ≠ a := by omega
    simp only [Memory.read, hk, if_false]
    exact ih h.2 (by omega)

/-- Reading what was just written gives it. -/
theorem read_write_same {m : Memory} (a : Nat) (v : Byte) (h : Memory.wf m = true) : Memory.read (Memory.write m a v) a = v := by
  suffices hs : ∀ (lo : Nat) (m : Memory), Memory.wfFrom lo m = true → Memory.read (Memory.write m a v) a = v from hs 0 m h
  intro lo m
  induction m generalizing lo with
  | nil => intro _; simp only [Memory.write]; split <;> simp_all [Memory.read]
  | cons c rest ih =>
    obtain ⟨k, w⟩ := c
    intro h
    have hr := h
    simp only [Memory.wfFrom, Bool.and_eq_true, decide_eq_true_eq] at h
    simp only [Memory.write]
    split
    · rename_i hlt
      split
      · rename_i hv
        have hk : k ≠ a := by omega
        simp only [Memory.read, hk, if_false, hv]
        exact read_below rest h.2 (by omega)
      · simp [Memory.read]
    · split
      · rename_i _ hak
        subst hak
        split
        · rename_i hv; rw [hv]; exact read_below rest h.2 (by omega)
        · simp [Memory.read]
      · rename_i _ hak
        have hk : k ≠ a := fun e => hak e.symm
        simp only [Memory.read, hk, if_false]
        exact ih _ h.2

/-- A write inside the register file keeps the canonical form from any lower bound. -/
theorem write_wfFrom {lo a : Nat} {m : Memory} (v : Byte) (h : Memory.wfFrom lo m = true) (hl : lo ≤ a) (ha : a < memSize) :
    Memory.wfFrom lo (Memory.write m a v) = true := by
  induction m generalizing lo with
  | nil => simp only [Memory.write]; split <;> simp_all [Memory.wfFrom]
  | cons c rest ih =>
    obtain ⟨k, w⟩ := c
    have hr := h
    simp only [Memory.wfFrom, Bool.and_eq_true, decide_eq_true_eq] at h
    obtain ⟨⟨⟨hk, hks⟩, hw⟩, hrest⟩ := h
    simp only [Memory.write]
    split
    · rename_i hlt
      split
      · exact hr
      · rename_i hv
        simp_all [Memory.wfFrom]
    · split
      · rename_i _ hak
        subst hak
        split
        · have : ∀ (lo' : Nat) (l : Memory), Memory.wfFrom (lo' + 1) l = true → ∀ lo, lo ≤ lo' → Memory.wfFrom lo l = true := by
            intro lo' l hl' lo hle
            cases l with
            | nil => rfl
            | cons c l' =>
              obtain ⟨k', w'⟩ := c
              simp only [Memory.wfFrom, Bool.and_eq_true, decide_eq_true_eq] at hl' ⊢
              exact ⟨⟨⟨by omega, hl'.1.1.2⟩, hl'.1.2⟩, hl'.2⟩
          exact this a rest hrest lo hl
        · rename_i hv
          simp_all [Memory.wfFrom]
      · rename_i hna hak
        have := ih hrest (by omega)
        simp_all [Memory.wfFrom]

/-- A write inside the register file keeps the canonical form. -/
theorem write_wf {m : Memory} {a : Nat} (v : Byte) (h : Memory.wf m = true) (ha : a < memSize) :
    Memory.wf (Memory.write m a v) = true :=
  write_wfFrom v h (Nat.zero_le a) ha

/-- The memory of the state after reset is in canonical form. -/
theorem reset_memory_wf : Memory.wf State.reset.peer.mem = true := by decide

/-- The five bytes of a register are cells of the register file. -/
theorem regCell_lt (a : Addr) {k : Nat} (h : k < 5) : regCell a k < memSize := by
  have := a.isLt
  unfold regCell memSize
  omega

/-- Two bytes of registers share a cell only if they are the same byte of the same register. -/
theorem regCell_inj {a b : Addr} {j k : Nat} (hj : j < 5) (hk : k < 5) (h : regCell a j = regCell b k) : a = b ∧ j = k := by
  unfold regCell at h
  have : a.toNat = b.toNat := by omega
  exact ⟨BitVec.eq_of_toNat_eq this, by omega⟩

/-- A transfer changes no byte of the peer's registers but by a write command's data, and keeps them canonical (R58 to R60). -/
theorem transfer_keeps_wf (p : Params) (csn : Bool) (b : Byte) (q : Peer) (h : Memory.wf q.mem = true) :
    Memory.wf (q.transfer p csn b).2.mem = true := by
  unfold Peer.transfer
  split
  · exact h
  · split
    · exact h
    · split
      · unfold Peer.command; split <;> exact h
      · rename_i hi
        simp only [Peer.dataEffect]
        split <;> try exact h
        split
        · exact h
        · split
          · exact write_wf _ h (regCell_lt _ (by omega))
          · exact h

end Sys2Proof.Machine
end

