-- ==== Sys2Proof/Laws/Preservation.lean ====
section
/-! SUPPORT. What a step is made of, as an induction principle: a property that every part keeps is kept by every step. -/

namespace Sys2Proof.Machine

/-- The state a transfer carries, completed or held. -/
def Transfer.state : Transfer → State
  | .done _ s => s
  | .held s => s

/-- The state a run carries, finished or paused. -/
def Run.state : Run → State
  | .finished s => s
  | .paused s => s

/-- A property that says nothing of the host's moves and looks nor of what is left of the micro-sequence in progress. -/
structure Overlooks (P : State → Prop) : Prop where
  looks : ∀ s ls, P s → P { s with looks := ls }
  host : ∀ s hs, P s → P { s with host := hs }
  todo : ∀ s ms, P s → P { s with todo := ms }

/-- A sequence of micro-operations keeps what each of them keeps. -/
theorem runList_keeps {P : State → Prop} (ho : Overlooks P) {ms : List Micro}
    (hm : ∀ m s, P s → P (micro m s).state) {s : State} (h : P s) : P (runList ms s).state := by
  induction ms generalizing s with
  | nil => exact h
  | cons m ms ih =>
    simp only [runList]
    split
    · exact ho.todo _ _ (ho.looks _ _ h)
    · have h1 := hm m (towardsLook s) (ho.looks s _ h)
      split <;> rename_i hx <;> rw [hx] at h1
      · exact ih h1
      · exact ho.todo _ _ h1
      · exact ho.todo _ _ h1

/-- So does running it to its end. -/
theorem runMicros_keeps {P : State → Prop} (ho : Overlooks P) {ms : List Micro} (hm : ∀ m s, P s → P (micro m s).state)
    (hi : ∀ s, P s → P (toIdle s)) {s : State} (h : P s) : P (runMicros ms s) := by
  have h1 := runList_keeps ho (ms := ms) hm h
  unfold runMicros
  split <;> rename_i ht <;> rw [ht] at h1
  · exact hi _ h1
  · exact h1

/-- A command keeps what acceptance, its micro-operations and its end keep. -/
theorem command_keeps {P : State → Prop} (ho : Overlooks P) {op : Byte} {addr : Addr} {val : Byte}
    {prog : State → List Micro} {s t : State} (ha : ∀ s, P s → P (accept op addr val s)) (hi : ∀ s, P s → P (toIdle s))
    (hm : ∀ m s, P s → P (micro m s).state) (h : P s) (hx : command op addr val prog s = .next t) : P t := by
  unfold command at hx
  split at hx <;> injection hx with hx <;> subst hx
  · exact runMicros_keeps ho hm hi (ha s h)
  · exact h

/-- An exchange of a wire command byte keeps what the passing of time and a transfer keep. -/
theorem exchangeByte_keeps {P : State → Prop} {b : Byte} {s t : State} (hel : ∀ s, P s → P (elapse s))
    (hsa : ∀ s, P s → P (sample s)) (hxf : ∀ s, P s → P (xfer b s).state) (h : P s)
    (hx : exchangeByte b s = .next t) : P t := by
  have h1 := hxf _ (hel s h)
  unfold exchangeByte at hx
  split at hx <;> rename_i hy <;> rw [hy] at h1 <;> injection hx with hx <;> subst hx <;> exact hsa _ h1

/-- What exec keeps: everything its parts keep. -/
theorem exec_keeps {P : State → Prop} (ho : Overlooks P) {i : Instr} {s t : State}
    (hac : ∀ op addr val s, P s → P (accept op addr val s)) (hid : ∀ s, P s → P (toIdle s))
    (hel : ∀ s, P s → P (elapse s)) (hsa : ∀ s, P s → P (sample s))
    (hmi : ∀ m s, P s → P (micro m s).state) (hxf : ∀ b s, P s → P (xfer b s).state) (h : P s)
    (hx : exec i s = .next t) : P t := by
  cases i
  case wRRegister | wWRegister | wRRxPayload | wWTxPayload | wFlushTx | wFlushRx | wNop =>
    exact exchangeByte_keeps hel hsa (hxf _) h hx
  all_goals exact command_keeps ho (hac _ _ _) hid hmi h hx

/-- What a step keeps: everything that its parts keep, one by one. -/
theorem step_keeps {P : State → Prop} (ho : Overlooks P) {s t : State}
    (hrst : rstDue s = true → P (resetBlock { s with host := hostAfterRst s }))
    (hac : ∀ op addr val s, P s → P (accept op addr val s))
    (hid : ∀ s, P s → P (toIdle s)) (hen : ∀ s, P s → P (enterHandler s)) (hst : ∀ s, P s → P (startCycle s))
    (hel : ∀ s, P s → P (elapse s)) (hsa : ∀ s, P s → P (sample s))
    (hmi : ∀ m s, P s → P (micro m s).state) (hxf : ∀ b s, P s → P (xfer b s).state) (h : P s)
    (hx : step s = .next t) : P t := by
  have hidle : ∀ w s, P s → ∀ t, idleStep w s = .next t → P t := by
    intro w s h t hx
    unfold idleStep at hx
    split at hx
    · unfold acceptWire at hx
      split at hx
      · exact exec_keeps ho hac hid hel hsa hmi hxf h hx
      · exact exchangeByte_keeps hel hsa (hxf _) h hx
    · split at hx
      · injection hx with hx; subst hx; exact runMicros_keeps ho hmi hid (hen s h)
      · split at hx
        · injection hx with hx; subst hx
          unfold nodeLoopStep
          split
          · split
            · exact runMicros_keeps ho hmi hid (hst s h)
            · exact hel s h
          · exact runMicros_keeps ho hmi hid (hst s h)
        · split at hx
          · unfold acceptWord at hx
            split at hx
            · exact exec_keeps ho hac hid hel hsa hmi hxf (ho.host _ _ h) hx
            · exact command_keeps ho (hac _ _ _) hid hmi (ho.host _ _ h) hx
          · injection hx with hx; subst hx; exact hel s h
  unfold step stepMachine at hx
  split at hx
  · split at hx
    · rename_i hh; injection hx with hx; subst hx; exact hrst hh
    · have h := ho.host s (hostAfterWait s) h
      unfold stepBlock at hx
      split at hx
      · injection hx with hx; subst hx; exact runMicros_keeps ho hmi hid h
      · injection hx with hx; subst hx; exact runMicros_keeps ho hmi hid h
      · exact hidle _ _ h _ hx
  · cases hx

end Sys2Proof.Machine
end

