-- ==== Sys2Proof/Laws/Step.lean ====
section
/-! SUPPORT. What a micro-operation, an exec and a step can do, said once for every outcome of the waits. -/

namespace Sys2Proof.Machine

/-! ## A micro-operation, whatever the outside world does -/

/-- A debug handshake is accepted, or it has not ended and nothing is done (R222). -/
theorem dbgOut_cases (b : Byte) (s : State) :
    (∃ t, dbgOut b s = .more t ∧ t.block = s.block ∧ t.trace = s.trace ++ [.d b] ∧ t.peer = s.peer ∧ t.busOut = s.busOut)
      ∨ (∃ t, dbgOut b s = .hold t ∧ t.block = s.block ∧ t.trace = s.trace ∧ t.peer = s.peer ∧ t.busOut = s.busOut) := by
  unfold dbgOut
  split
  · exact .inl ⟨_, rfl, rfl, rfl, rfl, rfl⟩
  · exact .inr ⟨_, rfl, rfl, rfl, rfl, rfl⟩
  · exact .inr ⟨_, rfl, rfl, rfl, rfl, rfl⟩
  · exact .inl ⟨_, rfl, rfl, rfl, rfl, rfl⟩

/-- The byte a transferring micro-operation sends, TMP holding tmp (R101, R144). -/
def sentByte (tmp : Byte) : Micro → Byte
  | .send b => b
  | .sendRmw keep set => rmwByte tmp keep set
  | _ => 0

/-- A transferring micro-operation is its transfer, one step of upc. -/
theorem micro_transfer {m : Micro} (hm : transfersByte m = true) (s : State) :
    effect m (elapse s) = transfer (sentByte s.tmp m) (elapse s) ∧ microSteps s.cfg s.tmp m = 1
      ∧ (∀ r, eventsMicro m r s.block = [.x (sentByte s.tmp m) r]) ∧ ∀ r v, viewMicro m r v = { v with rx := r, upc := v.upc + 1 } := by
  cases m <;> simp [transfersByte] at hm
  case send b => exact ⟨rfl, rfl, fun _ => rfl, fun _ _ => rfl⟩
  case sendRmw k x => exact ⟨by simp [effect, sentByte], rfl, fun _ => rfl, fun _ _ => rfl⟩

/-- A micro-operation that makes a transfer or an echo goes on, or its wait has not ended and nothing has changed. -/
theorem micro_wait_cases {m : Micro} (hm : transfersByte m = true ∨ m = .echo) (s : State) :
    (∃ r t, micro m s = .more t ∧ t.block = viewMicro m r s.block ∧ t.trace = s.trace ++ eventsMicro m r s.block)
      ∨ (∃ t, micro m s = .hold t ∧ t.block = s.block ∧ t.trace = s.trace) := by
  have hb : (elapse s).block = s.block := elapse_block s
  rcases hm with hm | rfl
  · obtain ⟨he, h1, hv, hw⟩ := micro_transfer hm s
    simp only [micro, he, h1, transfer]
    rcases xfer_block (sentByte s.tmp m) (elapse s) with ⟨r, t, hx, h2, -, -, -, h3⟩ | ⟨t, hx, h2, -, -, -, h3, -⟩ <;> rw [hx]
    · refine .inl ⟨r, _, rfl, ?_, by rw [hv]; simpa using h3⟩
      rw [hw, sample_block, ← hb, show ({ t with upc := t.upc + 1 } : State).block = { t.block with upc := t.block.upc + 1 } from rfl, h2]
    · exact .inr ⟨_, rfl, by simpa [hb] using h2, by simpa using h3⟩
  · simp only [micro, effect]
    rcases dbgOut_cases (elapse s).tmp (elapse s) with ⟨t, hx, h1, h2, -⟩ | ⟨t, hx, h1, h2, -⟩ <;> rw [hx]
    · refine .inl ⟨0, _, rfl, ?_, by simpa [eventsMicro, Machine.State.block] using h2⟩
      simp only [sample_block, microSteps]
      rw [show ({ t with upc := t.upc + 1 } : State).block = { t.block with upc := t.block.upc + 1 } from rfl, h1, hb]
      rfl
    · exact .inr ⟨_, rfl, by simpa [hb] using h1, by simpa using h2⟩

/-- Everything a micro-operation can do to the block and the trace: it goes on as `viewMicro` and `eventsMicro` say; or it is a
wait that has not ended, and nothing has changed; or it is the label `poll:`; or it is the test after a poll that found the send
going on. -/
theorem micro_cases (m : Micro) (s : State) :
    (m ≠ .poll ∧ ∃ r t, micro m s = .more t ∧ t.block = viewMicro m r s.block ∧ t.trace = s.trace ++ eventsMicro m r s.block
        ∧ (m = .pollTest → stillSending s.cfg s.tmp = false))
      ∨ ((transfersByte m = true ∨ m = .echo) ∧ ∃ t, micro m s = .hold t ∧ t.block = s.block ∧ t.trace = s.trace)
      ∨ (m = .poll ∧ ∃ t, micro m s = .jump t (pollProgram s.cfg) ∧ t.trace = s.trace ∧ t.block = s.block)
      ∨ (m = .pollTest ∧ stillSending s.cfg s.tmp = true ∧ ∃ t, t.trace = s.trace
        ∧ t.block = { s.block with pollcnt := s.pollcnt + 1, upc := s.upc + 1 }
        ∧ micro m s =
          .jump t (if pollLimitReached s.cfg (s.pollcnt + 1) then timeoutProgram else pollProgram s.cfg)) := by
  by_cases hw : transfersByte m = true ∨ m = .echo
  · rcases micro_wait_cases hw s with ⟨r, t, h⟩ | h
    · refine .inl ⟨by rintro rfl; simp [transfersByte] at hw, r, t, h.1, h.2.1, h.2.2, by rintro rfl; simp [transfersByte] at hw⟩
    · exact .inr (.inl ⟨hw, h⟩)
  simp only [not_or, Bool.not_eq_true] at hw
  by_cases hg : goesOn m = true
  · obtain ⟨t, h1, h2, h3, -⟩ := micro_plain (s := s) hw.1 hg (by simpa [echoesByte] using hw.2)
    exact .inl ⟨by rintro rfl; simp [goesOn] at hg, 0, t, h1, h2, h3, by rintro rfl; simp [goesOn] at hg⟩
  obtain rfl | rfl : m = .poll ∨ m = .pollTest := by simpa [goesOn, Classical.or_iff_not_imp_left] using hg
  · exact .inr (.inr (.inl ⟨rfl, _, by simp only [micro, effect, elapse_cfg, afterMicro]; rfl, by simp,
      by simp [microSteps, Machine.State.block]⟩))
  by_cases hs : stillSending s.cfg s.tmp = true
  · refine .inr (.inr (.inr ⟨rfl, hs, _, ?_, ?_, by
      simp only [micro, effect, pollTest, elapse_cfg, elapse_tmp, elapse_pollcnt, hs, if_true, afterMicro, microSteps]; rfl⟩))
    · simp
    · simp [Machine.State.block]
  · simp only [Bool.not_eq_true] at hs
    have hm : micro .pollTest s = .more (sample { elapse s with upc := (elapse s).upc + 0 }) := by
      simp only [micro, effect, pollTest, elapse_cfg, elapse_tmp, hs, Bool.false_eq_true, if_false, afterMicro, microSteps]
    refine .inl ⟨by simp, 0, _, hm, ?_, by simp [eventsMicro], fun _ => hs⟩
    simp [viewMicro, viewEffect, microSteps, Machine.State.block, hs]

/-! ## exec and step -/

/-- An exchange of a wire command byte always gives a next state. -/
theorem exchangeByte_next (b : Byte) (s : State) : ∃ t, exchangeByte b s = .next t := by
  unfold exchangeByte; split <;> exact ⟨_, rfl⟩

/-- A step without RST of a well-formed configuration: the host's pause, if any, is used up, and the block steps. -/
theorem step_without_rst {s : State} (hw : s.cfg.wellFormed = true) (hn : NoRst s) :
    step s = stepBlock (presented s) { s with host := hostAfterWait s } := by
  unfold step stepMachine
  rw [if_pos hw, show rstDue s = false from hn]
  rfl

/-- A step with RST first is the reset (R250). -/
theorem step_rst {s : State} (hw : s.cfg.wellFormed = true) (hr : rstDue s = true) :
    step s = .next (resetBlock { s with host := hostAfterRst s }) := by
  simp [step, stepMachine, hw, hr]

/-- An idle step with nothing to do only lets time pass: no exchange, no interrupt due, the Node Loop listening (R189, R190) or no
word presented. -/
theorem stepBlock_elapses {w : Option CmdWord} {s : State} (hs : s.seq = .idle) (hb : s.busOut = none) (hd : s.irqDue = false)
    (hr : s.running = true → s.nlpc = .check ∧ s.rxcnt.toNat ≠ payloadLen) (hp : s.running = false → w = none) :
    stepBlock w s = .next (elapse s) := by
  cases h : s.running
  · simp [stepBlock, hs, idleStep, hb, hd, h, hp h]
  · simp [stepBlock, hs, idleStep, hb, hd, h, nodeLoopStep, hr h]

/-- What readiness says (R72). -/
theorem ready_iff {s : State} : s.ready = true ↔ s.seq = .idle ∧ s.running = false ∧ s.irqDue = false := by
  simp [State.ready, and_assoc]

/-! ## The block's view under a step -/

/-- A property of the block's view is kept by every step when acceptance, a change of owner, handler entry, every
micro-operation, a poll that is counted and a byte received keep it. -/
theorem step_keeps_view {Q : BlockView → Prop}
    (hac : ∀ v, Q v → ∀ op addr val, Q { v with op := op, argAddr := addr, argVal := val, seq := .op, upc := 0 })
    (how : ∀ v, Q v → ∀ owner, Q { v with seq := owner, upc := 0 })
    (hen : ∀ v, Q v → Q { v with seq := .handler, irqEn := false, upc := 1 })
    (hmi : ∀ v, Q v → ∀ m r, Q (viewMicro m r v))
    (hpo : ∀ v, Q v → Q { v with pollcnt := v.pollcnt + 1, upc := v.upc + 1 })
    (hrx : ∀ v, Q v → ∀ r, Q { v with rx := r })
    {s t : State} (hrst : rstDue s = true → Q (resetBlock { s with host := hostAfterRst s }).block) (h : Q s.block)
    (hx : step s = .next t) : Q t.block := by
  refine step_keeps (P := fun x => Q x.block) ⟨fun _ _ h => h, fun _ _ h => h, fun _ _ h => h⟩ hrst ?_ ?_ ?_ ?_ ?_ ?_ ?_ ?_ h hx
  · intro _ _ _ u hu; exact hac _ hu _ _ _
  · intro u hu; simpa using how _ hu .idle
  · intro u hu; exact hen _ hu
  · intro u hu; exact how _ hu .op
  · intro u hu; simpa using hu
  · intro u hu; simpa using hu
  · intro m u hu
    rcases micro_cases m u with ⟨-, r, t, he, hb, -⟩ | ⟨-, t, he, hb, -⟩ | ⟨-, t, he, -, hb⟩ | ⟨-, -, t, -, hb, he⟩ <;>
      rw [he] <;> show Q t.block <;> rw [hb]
    · exact hmi _ hu _ _
    · exact hu
    · exact hu
    · exact hpo _ hu
  · intro b u hu
    rcases xfer_block b u with ⟨r, t, hx, hb, -⟩ | ⟨t, hx, hb, -⟩ <;> rw [hx] <;> show Q t.block <;> rw [hb]
    · exact hrx _ hu _
    · exact hu

end Sys2Proof.Machine
end

