-- ==== Sys2Proof/Laws/Peer.lean ====
section
/-! SUPPORT. The peer under the micro-operations: what each does to it while the environment is quiet, and what whole frames do
to the reference peer. -/

namespace Sys2Proof.Machine

/-! ## A quiet environment -/

/-- While the environment makes no move, the passing of time leaves the peer alone. -/
theorem elapse_quiet {s : State} (h : s.env = []) : elapse s = sample s := by
  simp [elapse, h]

/-- What a micro-operation does to the peer: its reply, if the peer determines one, and the peer after. -/
def peerMicro (p : Params) (csn : Bool) (tmp : Byte) (q : Peer) : Micro → Option Byte × Peer
  | .csn level => (none, q.onCsn level)
  | .ce level => (none, q.onCe p level)
  | .send b => q.transfer p csn b
  | .sendRmw keep set => q.transfer p csn (rmwByte tmp keep set)
  | .wait _ => (none, q)
  | .resultTmp => (none, q)
  | .resultSending => (none, q)
  | .setMode _ => (none, q)
  | .setIrqEn _ => (none, q)
  | .clearCount => (none, q)
  | .setAbuf _ _ => (none, q)
  | .setTxbuf _ _ => (none, q)
  | .raise _ => (none, q)
  | .storeRx _ => (none, q)
  | .echo => (none, q)
  | .count => (none, q)
  | .storeTmp => (none, q)
  | .setRunning _ => (none, q)
  | .setNlpc _ => (none, q)
  | .clearPolls => (none, q)
  | .poll => (none, q)
  | .pollTest => (none, q)

/-- The block's view and the peer after a list of micro-operations in a quiet environment; `rs` are the bytes that stand where
the peer determines none. -/
def quietRun : List Micro → List Byte → BlockView → Peer → BlockView × Peer
  | [], _, v, q => (v, q)
  | m :: ms, rs, v, q =>
    let o := peerMicro v.cfg v.csn v.tmp q m
    if transfersByte m then quietRun ms rs.tail (viewMicro m (o.1.getD (rs.headD 0)) v) o.2
    else quietRun ms rs (viewMicro m 0 v) o.2

/-- A completed transfer and the peer. -/
theorem xfer_peer {b : Byte} {s : State} (h : TransfersComplete 1 s) :
    ∃ d t, xfer b s = .done ((s.peer.transfer s.cfg s.csn b).1.getD d) t
      ∧ t.block = { s.block with rx := (s.peer.transfer s.cfg s.csn b).1.getD d } ∧ t.peer = (s.peer.transfer s.cfg s.csn b).2 ∧ t.env = s.env ∧ t.answers = s.answers.tail ∧ t.dbg = s.dbg := by
  unfold xfer
  unfold TransfersComplete at h
  split
  · rename_i d rest he
    exact ⟨d, _, rfl, rfl, rfl, rfl, by simp [he], rfl⟩
  · rename_i he; simp [he, completing] at h
  · rename_i he; simp [he, completing] at h
  · rename_i he
    exact ⟨Config.freeByte s.free, _, rfl, rfl, rfl, rfl, by simp [he], rfl⟩

/-- A transferring micro-operation in a quiet environment. -/
theorem micro_quiet_transfer {m : Micro} {s : State} (hm : transfersByte m = true) (h : TransfersComplete 1 s) (he : s.env = []) :
    ∃ d t, micro m s = .more t ∧ t.block = viewMicro m ((peerMicro s.cfg s.csn s.tmp s.peer m).1.getD d) s.block
      ∧ t.peer = (peerMicro s.cfg s.csn s.tmp s.peer m).2 ∧ t.env = [] ∧ t.answers = s.answers.tail ∧ t.dbg = s.dbg := by
  obtain ⟨he1, h1, -, hw⟩ := micro_transfer hm s
  have hp : peerMicro s.cfg s.csn s.tmp s.peer m = s.peer.transfer s.cfg s.csn (sentByte s.tmp m) := by
    cases m <;> simp [transfersByte] at hm <;> rfl
  obtain ⟨d, t, hx, h2, h3, h4, h5, h6⟩ := xfer_peer (b := sentByte s.tmp m) (s := sample s) (completes_congr h rfl)
  have hmi : micro m s = .more (sample { t with upc := t.upc + 1 }) := by
    rw [elapse_quiet he] at he1
    simp only [micro, elapse_quiet he, he1, h1, transfer, hx, afterMicro]
  refine ⟨d, _, hmi, ?_, by rw [hp]; exact h3, by simpa [he] using h4, by simpa using h5, by simpa using h6⟩
  rw [hw, hp, sample_block, show ({ t with upc := t.upc + 1 } : State).block = { t.block with upc := t.block.upc + 1 } from rfl, h2]
  rfl

/-- A micro-operation that makes no transfer, in a quiet environment. -/
theorem micro_quiet_plain {m : Micro} {s : State} (hm : transfersByte m = false) (hg : goesOn m = true)
    (hd : echoesByte m = true → EchoesComplete 1 s) (he : s.env = []) :
    ∃ t, micro m s = .more t ∧ t.block = viewMicro m 0 s.block ∧ t.peer = (peerMicro s.cfg s.csn s.tmp s.peer m).2
      ∧ t.env = [] ∧ t.answers = s.answers ∧ t.dbg = if echoesByte m then s.dbg.tail else s.dbg := by
  by_cases hec : echoesByte m = true
  · have hm' : m = .echo := by simpa [echoesByte] using hec
    subst hm'
    have h1 := hd hec
    unfold EchoesComplete at h1
    rcases hs : s.dbg with _ | ⟨a, rest⟩
    · have hmi : micro .echo s = .more (sample { emit (.d s.tmp) (sample s) with upc := s.upc + 1 }) := by
        simp only [micro, elapse_quiet he, effect, dbgOut, sample_dbg, hs, afterMicro]; rfl
      exact ⟨_, hmi, by simp [viewMicro, viewEffect, microSteps, Machine.State.block], rfl, he, rfl, by simp [hs]⟩
    · cases a
      case ready =>
        have hmi : micro .echo s = .more (sample { emit (.d s.tmp) (sample s) with upc := s.upc + 1, dbg := rest }) := by
          simp only [micro, elapse_quiet he, effect, dbgOut, sample_dbg, hs, afterMicro]; rfl
        exact ⟨_, hmi, by simp [viewMicro, viewEffect, microSteps, Machine.State.block], rfl, he, rfl, by simp [echoesByte]⟩
      all_goals simp [hs, accepting] at h1
  · simp only [Bool.not_eq_true] at hec
    obtain ⟨t, h1, h2, -, h5, h6, -⟩ := micro_plain (s := s) hm hg hec
    refine ⟨t, h1, h2, ?_, ?_, h5, by simp [hec, h6]⟩ <;>
      (simp only [micro, elapse_quiet he] at h1
       cases m <;> simp [transfersByte, goesOn, echoesByte] at hm hg hec)
    case refine_1.count =>
      by_cases h7 : s.tmp = Config.sentinel <;> by_cases h8 : countHasRoom s.rxcnt = true <;>
        simp [effect, afterMicro, countUp, h7, h8] at h1 <;> subst h1 <;> rfl
    case refine_2.count =>
      by_cases h7 : s.tmp = Config.sentinel <;> by_cases h8 : countHasRoom s.rxcnt = true <;>
        simp [effect, afterMicro, countUp, h7, h8] at h1 <;> subst h1 <;> simpa using he
    all_goals
      simp only [effect, afterMicro, Flow.more.injEq] at h1
      subst h1
      first | rfl | exact he

/-- A micro-sequence whose waits complete, in a quiet environment: the block and the peer are what `quietRun` says. -/
theorem runList_quiet (ms : List Micro) (s : State) (hu : s.looks = []) (hg : ms.all goesOn = true)
    (ht : TransfersComplete (ms.countP transfersByte) s) (hd : EchoesComplete (ms.countP echoesByte) s) (he : s.env = []) :
    ∃ t rs, runList ms s = .finished t ∧ rs.length = ms.countP transfersByte ∧ (t.block, t.peer) = quietRun ms rs s.block s.peer
      ∧ t.env = [] ∧ t.answers = s.answers.drop (ms.countP transfersByte) := by
  induction ms generalizing s with
  | nil => exact ⟨s, [], rfl, rfl, rfl, he, rfl⟩
  | cons m ms ih =>
    simp only [List.all_cons, Bool.and_eq_true] at hg
    by_cases htm : transfersByte m = true
    · have hem : echoesByte m = false := by cases m <;> simp_all [transfersByte, echoesByte]
      simp only [List.countP_cons, htm, hem, if_true, Bool.false_eq_true, if_false, Nat.add_zero] at ht hd ⊢
      obtain ⟨d, u, hm, hb, hp, hen, ha, hdb⟩ := micro_quiet_transfer htm (completes_one ht) he
      obtain ⟨t, rs, hs, hl, hq, hte, hta⟩ := ih u ((micro_more_looks hm).1.trans hu) hg.2 (completes_tail ht ha) (echoes_congr hd hdb) hen
      refine ⟨t, d :: rs, by rw [runList_cons hu, hm]; exact hs, by simp [hl], ?_, hte, by rw [hta, ha]; simp [List.drop_tail]⟩
      rw [hq, hb, hp]
      simp only [quietRun, htm, if_true, List.headD_cons, List.tail_cons]
      rfl
    · simp only [Bool.not_eq_true] at htm
      simp only [List.countP_cons, htm, Bool.false_eq_true, if_false, Nat.add_zero] at ht hd ⊢
      have h1 : echoesByte m = true → EchoesComplete 1 s := by
        intro h2
        simp only [h2, if_true] at hd
        unfold EchoesComplete at *
        cases hs : s.dbg with
        | nil => simp
        | cons a rest => simp_all
      obtain ⟨u, hm, hb, hp, hen, ha, hdb⟩ := micro_quiet_plain htm hg.1 h1 he
      have h2 : EchoesComplete (ms.countP echoesByte) u := by
        by_cases h3 : echoesByte m = true
        · simp only [h3, if_true] at hd hdb; exact echoes_tail hd hdb
        · simp only [h3, Bool.false_eq_true, if_false, Nat.add_zero] at hd hdb; exact echoes_congr hd hdb
      obtain ⟨t, rs, hs, hl, hq, hte, hta⟩ := ih u ((micro_more_looks hm).1.trans hu) hg.2 (completes_congr ht ha) h2 hen
      refine ⟨t, rs, by rw [runList_cons hu, hm]; exact hs, hl, ?_, hte, by rw [hta, ha]⟩
      rw [hq, hb, hp]
      simp only [quietRun, htm, Bool.false_eq_true, if_false]
      rfl

/-! ## The reference peer between frames -/

/-- One byte of the register file stored, no frame open. -/
def Peer.stored (cell : Nat) (b : Byte) (q : Peer) : Peer := { q.closed with mem := Memory.write q.mem cell b }

/-- The status flags of a byte cleared, no frame open. -/
def Peer.cleared (p : Params) (b : Byte) (q : Peer) : Peer := { q.closed with st := q.st &&& ~~~(b &&& mStAll p) }

/-- The transmit FIFO replaced, no frame open. -/
def Peer.withTxf (txf : List Payload) (q : Peer) : Peer := { q.closed with txf := txf }

/-- The receive FIFO replaced, no frame open. -/
def Peer.withRxf (rxf : List Payload) (q : Peer) : Peer := { q.closed with rxf := rxf }

/-- The block's view after a frame of n micro-operations whose last transfer received `rx`. -/
def afterFrame (rx : Byte) (n : Nat) (v : BlockView) : BlockView :=
  { v with rx := rx, csn := true, upc := v.upc + n }

@[simp] theorem closed_kind (q : Peer) : (q.closed).kind = q.kind := rfl
@[simp] theorem closed_mem (q : Peer) : (q.closed).mem = q.mem := rfl
@[simp] theorem closed_st (q : Peer) : (q.closed).st = q.st := rfl
@[simp] theorem closed_stLow (q : Peer) : (q.closed).stLow = q.stLow := rfl
@[simp] theorem closed_txf (q : Peer) : (q.closed).txf = q.txf := rfl
@[simp] theorem closed_rxf (q : Peer) : (q.closed).rxf = q.rxf := rfl
@[simp] theorem closed_pulse (q : Peer) : (q.closed).pulse = q.pulse := rfl
@[simp] theorem stored_kind (cell : Nat) (b : Byte) (q : Peer) : (q.stored cell b).kind = q.kind := rfl
@[simp] theorem stored_mem (cell : Nat) (b : Byte) (q : Peer) : (q.stored cell b).mem = Memory.write q.mem cell b := rfl
@[simp] theorem stored_st (cell : Nat) (b : Byte) (q : Peer) : (q.stored cell b).st = q.st := rfl
@[simp] theorem stored_stLow (cell : Nat) (b : Byte) (q : Peer) : (q.stored cell b).stLow = q.stLow := rfl
@[simp] theorem stored_txf (cell : Nat) (b : Byte) (q : Peer) : (q.stored cell b).txf = q.txf := rfl
@[simp] theorem stored_rxf (cell : Nat) (b : Byte) (q : Peer) : (q.stored cell b).rxf = q.rxf := rfl
@[simp] theorem stored_pulse (cell : Nat) (b : Byte) (q : Peer) : (q.stored cell b).pulse = q.pulse := rfl
@[simp] theorem cleared_kind (p : Params) (b : Byte) (q : Peer) : (q.cleared p b).kind = q.kind := rfl
@[simp] theorem cleared_mem (p : Params) (b : Byte) (q : Peer) : (q.cleared p b).mem = q.mem := rfl
@[simp] theorem cleared_st (p : Params) (b : Byte) (q : Peer) : (q.cleared p b).st = q.st &&& ~~~(b &&& mStAll p) := rfl
@[simp] theorem cleared_stLow (p : Params) (b : Byte) (q : Peer) : (q.cleared p b).stLow = q.stLow := rfl
@[simp] theorem cleared_txf (p : Params) (b : Byte) (q : Peer) : (q.cleared p b).txf = q.txf := rfl
@[simp] theorem cleared_rxf (p : Params) (b : Byte) (q : Peer) : (q.cleared p b).rxf = q.rxf := rfl
@[simp] theorem cleared_pulse (p : Params) (b : Byte) (q : Peer) : (q.cleared p b).pulse = q.pulse := rfl
@[simp] theorem withTxf_kind (l : List Payload) (q : Peer) : (q.withTxf l).kind = q.kind := rfl
@[simp] theorem withTxf_mem (l : List Payload) (q : Peer) : (q.withTxf l).mem = q.mem := rfl
@[simp] theorem withTxf_st (l : List Payload) (q : Peer) : (q.withTxf l).st = q.st := rfl
@[simp] theorem withTxf_stLow (l : List Payload) (q : Peer) : (q.withTxf l).stLow = q.stLow := rfl
@[simp] theorem withTxf_txf (l : List Payload) (q : Peer) : (q.withTxf l).txf = l := rfl
@[simp] theorem withTxf_rxf (l : List Payload) (q : Peer) : (q.withTxf l).rxf = q.rxf := rfl
@[simp] theorem withTxf_pulse (l : List Payload) (q : Peer) : (q.withTxf l).pulse = q.pulse := rfl
@[simp] theorem withRxf_kind (l : List Payload) (q : Peer) : (q.withRxf l).kind = q.kind := rfl
@[simp] theorem withRxf_mem (l : List Payload) (q : Peer) : (q.withRxf l).mem = q.mem := rfl
@[simp] theorem withRxf_st (l : List Payload) (q : Peer) : (q.withRxf l).st = q.st := rfl
@[simp] theorem withRxf_stLow (l : List Payload) (q : Peer) : (q.withRxf l).stLow = q.stLow := rfl
@[simp] theorem withRxf_txf (l : List Payload) (q : Peer) : (q.withRxf l).txf = q.txf := rfl
@[simp] theorem withRxf_rxf (l : List Payload) (q : Peer) : (q.withRxf l).rxf = l := rfl
@[simp] theorem withRxf_pulse (l : List Payload) (q : Peer) : (q.withRxf l).pulse = q.pulse := rfl
@[simp] theorem afterFrame_cfg (rx : Byte) (n : Nat) (v : BlockView) : (afterFrame rx n v).cfg = v.cfg := rfl
@[simp] theorem afterFrame_tmp (rx : Byte) (n : Nat) (v : BlockView) : (afterFrame rx n v).tmp = v.tmp := rfl
@[simp] theorem afterFrame_rx (rx : Byte) (n : Nat) (v : BlockView) : (afterFrame rx n v).rx = rx := rfl
@[simp] theorem afterFrame_ce (rx : Byte) (n : Nat) (v : BlockView) : (afterFrame rx n v).ce = v.ce := rfl

/-! ## The reference peer inside a frame -/

/-- The reference peer inside a frame of command c, k transfers in. -/
def Peer.inFrame (q : Peer) (c : WireCmd) (k : Nat) (bs : List Byte) : Peer := { q with cmd := some c, idx := k, collected := bs }

section
variable {p : Params} {q : Peer} (hk : q.kind = .reference)
include hk

theorem onCsn_open : q.onCsn false = q.closed := by simp [Peer.onCsn, hk]

/-- The command byte of a frame that is no flush: answered with the status byte (R57). -/
theorem transfer_command {b : Byte} {c : WireCmd} (hd : decodeWireCmd p b = some c) (h1 : c ≠ .flushTx) (h2 : c ≠ .flushRx) :
    q.closed.transfer p false b = (some q.status, q.inFrame c 1 []) := by
  cases c <;> simp_all [Peer.transfer, Peer.closed, Peer.command, Peer.inFrame, Peer.status]

/-- A flush acts at its command byte (R60). -/
theorem transfer_flushTx {b : Byte} (hd : decodeWireCmd p b = some .flushTx) :
    q.closed.transfer p false b = (some q.status, { q with txf := [] }.inFrame .flushTx 1 []) := by
  simp [Peer.transfer, Peer.closed, Peer.command, Peer.inFrame, Peer.status, hk, hd]

theorem transfer_flushRx {b : Byte} (hd : decodeWireCmd p b = some .flushRx) :
    q.closed.transfer p false b = (some q.status, { q with rxf := [] }.inFrame .flushRx 1 []) := by
  simp [Peer.transfer, Peer.closed, Peer.command, Peer.inFrame, Peer.status, hk, hd]

/-- The first data transfer of a register read returns the register's byte 0 (R58). -/
theorem transfer_read {b : Byte} {a : Addr} (ha : a ≠ p.regStatus) :
    (q.inFrame (.readReg a) 1 []).transfer p false b =
      (some (Memory.read q.mem (regCell a 0)), q.inFrame (.readReg a) 2 []) := by
  simp [Peer.transfer, Peer.inFrame, Peer.dataReply, Peer.dataEffect, hk, ha]

/-- The first data transfer of a read of the status register returns the status byte again (R58). -/
theorem transfer_statusRead {b : Byte} :
    (q.inFrame (.readReg p.regStatus) 1 []).transfer p false b = (some q.status, q.inFrame (.readReg p.regStatus) 2 []) := by
  simp [Peer.transfer, Peer.inFrame, hk, Peer.dataReply, Peer.dataEffect, Peer.status]

/-- A data transfer of a register write stores its byte (R59). -/
theorem transfer_write {b : Byte} {a : Addr} {k : Nat} (ha : a ≠ p.regStatus) (h : k < 5) :
    (q.inFrame (.writeReg a) (k + 1) []).transfer p false b =
      (none, { q with mem := Memory.write q.mem (regCell a k) b }.inFrame (.writeReg a) (k + 2) []) := by
  simp [Peer.transfer, Peer.inFrame, Peer.dataReply, Peer.dataEffect, hk, ha, show k + 1 ≤ 5 by omega]

/-- The first data transfer of a write to the status register clears the flags written with 1 (R45, R59). -/
theorem transfer_status {b : Byte} :
    (q.inFrame (.writeReg p.regStatus) 1 []).transfer p false b =
      (none, { q with st := q.st &&& ~~~(b &&& mStAll p) }.inFrame (.writeReg p.regStatus) 2 []) := by
  simp [Peer.transfer, Peer.inFrame, Peer.dataReply, Peer.dataEffect, hk]

/-- A payload write collects its bytes (R60). -/
theorem transfer_payload {b : Byte} {k : Nat} {bs : List Byte} :
    ((q.inFrame .writeTxPayload (k + 1) bs).transfer p false b).2 = q.inFrame .writeTxPayload (k + 2) (bs ++ [b]) := by
  simp [Peer.transfer, Peer.inFrame, Peer.dataEffect, hk]

/-- A payload read returns the oldest payload's bytes (R60). -/
theorem transfer_rxPayload {b : Byte} {k : Nat} {pl : Payload} {rest : List Payload} (hr : q.rxf = pl :: rest) (h : k < 8) :
    (q.inFrame .readRxPayload (k + 1) []).transfer p false b =
      (some (pl[k]), q.inFrame .readRxPayload (k + 2) []) := by
  simp [Peer.transfer, Peer.inFrame, Peer.dataEffect, Peer.dataReply, hk, hr, h]

/-- The end of a frame whose command has no end-of-frame effect. -/
theorem onCsn_close {c : WireCmd} {k : Nat} {bs : List Byte} (h1 : c ≠ .writeTxPayload) (h2 : c ≠ .readRxPayload) :
    (q.inFrame c k bs).onCsn true = q.closed := by
  cases c <;> simp_all [Peer.onCsn, Peer.inFrame, Peer.closed]

/-- The end of a payload read removes the payload (R60). -/
theorem onCsn_rxPayload {k : Nat} {bs : List Byte} :
    (q.inFrame .readRxPayload k bs).onCsn true = { q with rxf := q.rxf.tail }.closed := by
  simp [Peer.onCsn, Peer.inFrame, Peer.closed, hk]

/-- The end of a payload write of eight bytes queues the payload when there is room (R60). -/
theorem onCsn_txPayload {k : Nat} {pl : Payload} (hr : q.txf.length < fifoDepth) :
    (q.inFrame .writeTxPayload k [pl[0], pl[1], pl[2], pl[3], pl[4], pl[5], pl[6], pl[7]]).onCsn true =
      { q with txf := q.txf ++ [pl] }.closed := by
  have hb : (#v[pl[0], pl[1], pl[2], pl[3], pl[4], pl[5], pl[6], pl[7]] : Payload) = pl := by
    apply Vector.toList_inj.mp; rw [payload_toList pl]; rfl
  simp [Peer.onCsn, Peer.inFrame, Peer.closed, hk, payloadOfBytes, hr, hb]

end

/-! ## Micro-operations one by one -/

section
variable (ms : List Micro) (rs : List Byte) (r : Byte) (v : BlockView) (q : Peer)

theorem quietRun_wait (t : Nat) : quietRun (.wait t :: ms) rs v q = quietRun ms rs { v with upc := v.upc + 1 } q := by
  rw [quietRun]; rfl

theorem quietRun_csn (l : Bool) :
    quietRun (.csn l :: ms) rs v q = quietRun ms rs { v with csn := l, upc := v.upc + 1 } (q.onCsn l) := by
  rw [quietRun]; rfl

theorem quietRun_ce (l : Bool) :
    quietRun (.ce l :: ms) rs v q = quietRun ms rs { v with ce := l, upc := v.upc + 1 } (q.onCe v.cfg l) := by
  rw [quietRun]; rfl

theorem quietRun_setMode (m : Mode) :
    quietRun (.setMode m :: ms) rs v q = quietRun ms rs { v with mode := m, upc := v.upc + 1 } q := by
  rw [quietRun]; rfl

theorem quietRun_send (b : Byte) :
    quietRun (.send b :: ms) (r :: rs) v q =
      quietRun ms rs { v with rx := (q.transfer v.cfg v.csn b).1.getD r, upc := v.upc + 1 } (q.transfer v.cfg v.csn b).2 := by
  rw [quietRun]; rfl

theorem quietRun_storeTmp :
    quietRun (.storeTmp :: ms) rs v q = quietRun ms rs { v with tmp := v.rx, upc := v.upc + 1 } q := by
  rw [quietRun]; rfl

theorem quietRun_sendRmw (keep set : Byte) :
    quietRun (.sendRmw keep set :: ms) (r :: rs) v q =
      quietRun ms rs { v with rx := (q.transfer v.cfg v.csn (rmwByte v.tmp keep set)).1.getD r, upc := v.upc + 1 }
        (q.transfer v.cfg v.csn (rmwByte v.tmp keep set)).2 := by
  rw [quietRun]; rfl

end

/-! ## Whole frames at the reference peer -/

section
variable {p : Params} {ms : List Micro} {v : BlockView} {q : Peer} {rs : List Byte} (hp : v.cfg = p) (hk : q.kind = .reference)
include hp hk

theorem quietRun_regRead {a : Addr} {r0 r1 : Byte} (hd : decodeWireCmd p (readCommand p a) = some (.readReg a))
    (ha : a ≠ p.regStatus) :
    quietRun (regRead p a ++ ms) (r0 :: r1 :: rs) v q =
      quietRun ms rs (afterFrame (Memory.read q.mem (regCell a 0)) 8 v) q.closed := by
  subst hp
  simp only [regRead, frameBegin, frameByte, frameEnd, List.cons_append, List.nil_append, quietRun_wait, quietRun_csn,
    quietRun_send, onCsn_open hk, transfer_command hk hd (by simp) (by simp), transfer_read hk ha,
    onCsn_close hk (show WireCmd.readReg a ≠ _ by simp) (by simp), Option.getD_some]
  rfl

/-- Reading the status register answers with the status byte again (R58). -/
theorem quietRun_statusRead {r0 r1 : Byte}
    (hd : decodeWireCmd p (readCommand p p.regStatus) = some (.readReg p.regStatus)) :
    quietRun (regRead p p.regStatus ++ ms) (r0 :: r1 :: rs) v q = quietRun ms rs (afterFrame q.status 8 v) q.closed := by
  subst hp
  simp only [regRead, frameBegin, frameByte, frameEnd, List.cons_append, List.nil_append, quietRun_wait, quietRun_csn,
    quietRun_send, onCsn_open hk, transfer_command hk hd (by simp) (by simp), transfer_statusRead hk,
    onCsn_close hk (show WireCmd.readReg v.cfg.regStatus ≠ _ by simp) (by simp), Option.getD_some]
  rfl

theorem quietRun_regWrite {a : Addr} {b r0 r1 : Byte} (hd : decodeWireCmd p (writeCommand p a) = some (.writeReg a))
    (ha : a ≠ p.regStatus) :
    quietRun (regWrite p a b ++ ms) (r0 :: r1 :: rs) v q =
      quietRun ms rs (afterFrame r1 8 v) (q.stored (regCell a 0) b) := by
  subst hp
  simp only [regWrite, frameBegin, frameByte, frameEnd, List.cons_append, List.nil_append, quietRun_wait, quietRun_csn,
    quietRun_send, onCsn_open hk, transfer_command hk hd (by simp) (by simp), transfer_write (k := 0) hk ha (by omega)]
  rw [onCsn_close (by exact hk) (by simp) (by simp)]
  rfl

theorem quietRun_regWriteRmw {a : Addr} {keep set r0 r1 : Byte}
    (hd : decodeWireCmd p (writeCommand p a) = some (.writeReg a)) (ha : a ≠ p.regStatus) :
    quietRun (regWriteRmw p a keep set ++ ms) (r0 :: r1 :: rs) v q =
      quietRun ms rs (afterFrame r1 8 v) (q.stored (regCell a 0) (rmwByte v.tmp keep set)) := by
  subst hp
  simp only [regWriteRmw, frameBegin, frameByte, frameRmw, frameEnd, List.cons_append, List.nil_append, quietRun_wait,
    quietRun_csn, quietRun_send, quietRun_sendRmw, onCsn_open hk, transfer_command hk hd (by simp) (by simp),
    transfer_write (k := 0) hk ha (by omega)]
  rw [onCsn_close (by exact hk) (by simp) (by simp)]
  rfl

theorem quietRun_statusWrite {b r0 r1 : Byte}
    (hd : decodeWireCmd p (writeCommand p p.regStatus) = some (.writeReg p.regStatus)) :
    quietRun (regWrite p p.regStatus b ++ ms) (r0 :: r1 :: rs) v q =
      quietRun ms rs (afterFrame r1 8 v) (q.cleared p b) := by
  subst hp
  simp only [regWrite, frameBegin, frameByte, frameEnd, List.cons_append, List.nil_append, quietRun_wait, quietRun_csn,
    quietRun_send, onCsn_open hk, transfer_command hk hd (by simp) (by simp), transfer_status hk]
  rw [onCsn_close (by exact hk) (by simp) (by simp)]
  rfl

theorem quietRun_flushTx {r0 : Byte} (hd : decodeWireCmd p p.opcFlushTx = some .flushTx) :
    quietRun (flushFrame p p.opcFlushTx ++ ms) (r0 :: rs) v q =
      quietRun ms rs (afterFrame q.status 6 v) (q.withTxf []) := by
  subst hp
  simp only [flushFrame, frameBegin, frameByte, frameEnd, List.cons_append, List.nil_append, quietRun_wait, quietRun_csn,
    quietRun_send, onCsn_open hk, transfer_flushTx hk hd]
  rw [onCsn_close (by exact hk) (by simp) (by simp)]
  rfl

theorem quietRun_flushRx {r0 : Byte} (hd : decodeWireCmd p p.opcFlushRx = some .flushRx) :
    quietRun (flushFrame p p.opcFlushRx ++ ms) (r0 :: rs) v q =
      quietRun ms rs (afterFrame q.status 6 v) (q.withRxf []) := by
  subst hp
  simp only [flushFrame, frameBegin, frameByte, frameEnd, List.cons_append, List.nil_append, quietRun_wait, quietRun_csn,
    quietRun_send, onCsn_open hk, transfer_flushRx hk hd]
  rw [onCsn_close (by exact hk) (by simp) (by simp)]
  rfl

omit hp in
/-- The bytes of a payload, one by one (R60). -/
theorem quietRun_payloadBytes (bs cs : List Byte) (k : Nat) (hc : v.csn = false) :
    ∃ x, quietRun (frameBytes p bs ++ ms) rs v (q.inFrame .writeTxPayload (k + 1) cs) =
      quietRun ms (rs.drop bs.length) { v with rx := x, upc := v.upc + 2 * bs.length }
        (q.inFrame .writeTxPayload (k + 1 + bs.length) (cs ++ bs)) := by
  induction bs generalizing cs k v rs with
  | nil => exact ⟨v.rx, by simp [frameBytes]⟩
  | cons b bs ih =>
    have h1 : frameBytes p (b :: bs) ++ ms = .send b :: .wait p.tSettle :: (frameBytes p bs ++ ms) := by
      simp [frameBytes, frameByte]
    have h2 : ∃ y, quietRun (.send b :: .wait p.tSettle :: (frameBytes p bs ++ ms)) rs v (q.inFrame .writeTxPayload (k + 1) cs) =
        quietRun (frameBytes p bs ++ ms) rs.tail { v with rx := y, upc := v.upc + 2 }
          ((q.inFrame .writeTxPayload (k + 1) cs).transfer v.cfg v.csn b).2 := ⟨_, rfl⟩
    have h3 : ((q.inFrame .writeTxPayload (k + 1) cs).transfer v.cfg v.csn b).2 =
        q.inFrame .writeTxPayload (k + 1 + 1) (cs ++ [b]) := by
      rw [hc]; exact transfer_payload hk
    obtain ⟨y, h2⟩ := h2
    obtain ⟨x, hx⟩ := ih (v := { v with rx := y, upc := v.upc + 2 }) (rs := rs.tail) (cs ++ [b]) (k + 1) hc
    refine ⟨x, ?_⟩
    rw [h1, h2, h3, hx]
    simp only [List.length_cons, List.drop_tail, List.append_assoc, List.cons_append, List.nil_append]
    rw [show v.upc + 2 + 2 * bs.length = v.upc + 2 * (bs.length + 1) by omega,
      show k + 1 + 1 + bs.length = k + 1 + (bs.length + 1) by omega]

theorem quietRun_txPayloadFrame {b : Payload} {r0 r1 r2 r3 r4 r5 r6 r7 r8 : Byte}
    (hd : decodeWireCmd p p.opcWTxPayload = some .writeTxPayload) (hr : q.txf.length < fifoDepth) :
    ∃ x, quietRun (txPayloadFrame p b ++ ms) (r0 :: r1 :: r2 :: r3 :: r4 :: r5 :: r6 :: r7 :: r8 :: rs) v q =
      quietRun ms rs (afterFrame x 22 v) (q.withTxf (q.txf ++ [b])) := by
  subst hp
  simp only [txPayloadFrame, List.append_assoc]
  simp only [frameBegin, frameByte, frameEnd, List.cons_append, List.nil_append, quietRun_wait, quietRun_csn, quietRun_send,
    onCsn_open hk, transfer_command hk hd (show WireCmd.writeTxPayload ≠ _ by simp) (by simp)]
  obtain ⟨x, hx⟩ := quietRun_payloadBytes (p := v.cfg) (ms := .csn true :: ms)
    (v := { v with csn := false, rx := q.status, upc := v.upc + 1 + 1 + 1 + 1 + 1 })
    (rs := r1 :: r2 :: r3 :: r4 :: r5 :: r6 :: r7 :: r8 :: rs) hk b.toList [] 0 rfl
  refine ⟨x, hx.trans ?_⟩
  rw [quietRun_csn, payload_toList]
  simp only [List.nil_append]
  rw [onCsn_txPayload hk hr]
  rfl

/-- A status frame returns the status byte and changes nothing (R109, R60). -/
theorem quietRun_statusFrame {r0 : Byte} (hd : decodeWireCmd p p.opcNop = some .nop) :
    quietRun (statusFrame p ++ ms) (r0 :: rs) v q = quietRun ms rs (afterFrame q.status 6 v) q.closed := by
  subst hp
  simp only [statusFrame, frameBegin, frameByte, frameEnd, List.cons_append, List.nil_append, quietRun_wait, quietRun_csn,
    quietRun_send, onCsn_open hk, transfer_command hk hd (show WireCmd.nop ≠ _ by simp) (by simp)]
  rw [onCsn_close (by exact hk) (by simp) (by simp)]
  rfl

/-- The writes of an address field at the reference peer (R59): its five cells take the five bytes. -/
theorem quietRun_addrWrite {a : Addr} {b : DeviceAddress} {r0 r1 r2 r3 r4 r5 : Byte}
    (hd : decodeWireCmd p (writeCommand p a) = some (.writeReg a)) (ha : a ≠ p.regStatus) :
    quietRun (addrWrite p a b ++ ms) (r0 :: r1 :: r2 :: r3 :: r4 :: r5 :: rs) v q =
      quietRun ms rs (afterFrame r5 16 v)
        (((((q.stored (regCell a 0) b[0]).stored (regCell a 1) b[1]).stored (regCell a 2) b[2]).stored (regCell a 3) b[3]).stored
          (regCell a 4) b[4]) := by
  subst hp
  simp only [addrWrite, frameBytes, deviceAddress_toList, frameBegin, frameByte, frameEnd, List.map_cons, List.map_nil,
    List.flatten_cons, List.flatten_nil, List.append_nil, List.cons_append, List.nil_append, quietRun_wait, quietRun_csn,
    quietRun_send, onCsn_open hk, transfer_command hk hd (by simp) (by simp)]
  rw [transfer_write (k := 0) (by exact hk) ha (by omega), transfer_write (k := 1) (by exact hk) ha (by omega),
    transfer_write (k := 2) (by exact hk) ha (by omega), transfer_write (k := 3) (by exact hk) ha (by omega),
    transfer_write (k := 4) (by exact hk) ha (by omega), onCsn_close (by exact hk) (by simp) (by simp)]
  rfl

variable (hn : p.regConfig ≠ p.regStatus)
  (hr : decodeWireCmd p (readCommand p p.regConfig) = some (.readReg p.regConfig))
  (hw : decodeWireCmd p (writeCommand p p.regConfig) = some (.writeReg p.regConfig))
  (hs : decodeWireCmd p (writeCommand p p.regStatus) = some (.writeReg p.regStatus))
include hn hr hw

/-- A read-modify-write of the configuration register (R144). -/
theorem quietRun_cfgRmw {keep set r0 r1 r2 r3 : Byte} :
    quietRun (cfgRmw p keep set ++ ms) (r0 :: r1 :: r2 :: r3 :: rs) v q =
      quietRun ms rs { v with tmp := q.config p, rx := r3, csn := true, upc := v.upc + 17 }
        (q.stored (regCell p.regConfig 0) (rmwByte (q.config p) keep set)) := by
  simp only [cfgRmw, List.append_assoc, List.cons_append, List.nil_append]
  rw [quietRun_regRead hp hk hr hn, quietRun_storeTmp, quietRun_regWriteRmw (by exact hp) (by exact hk) hw hn]
  rfl

include hs

/-- ENTER_TX at the reference peer (R146). -/
theorem quietRun_enterTxBody {r0 r1 r2 r3 r4 r5 r6 r7 r8 r9 r10 r11 r12 r13 r14 : Byte}
    (hf : decodeWireCmd p p.opcFlushTx = some .flushTx) :
    ∃ w : BlockView, w.cfg = v.cfg ∧ w.ce = false ∧ w.mode = .transmitting
      ∧ quietRun (enterTxBody p ++ ms)
          (r0 :: r1 :: r2 :: r3 :: r4 :: r5 :: r6 :: r7 :: r8 :: r9 :: r10 :: r11 :: r12 :: r13 :: r14 :: rs) v q =
        (let q1 := q.stored (regCell p.regConfig 0) (rmwByte (q.config p) (~~~p.mPrimRx) 0)
         let q2 := q1.stored (regCell p.regConfig 0) (rmwByte (q1.config p) 0xFF p.mPwrUp)
         let q3 := (q2.withTxf []).cleared p (mStAll p)
         quietRun ms rs w (q3.stored (regCell p.regConfig 0) (rmwByte (q3.config p) 0xFF (mMaskTxIrq p)))) := by
  have hce : q.onCe v.cfg false = q := by simp [Peer.onCe, hk]
  simp only [enterTxBody, clearFlags, maskTxIrqOn, List.append_assoc, List.cons_append, List.nil_append, quietRun_ce, hce]
  rw [quietRun_cfgRmw (by exact hp) hk hn hr hw, quietRun_cfgRmw (by exact hp) (by exact hk) hn hr hw,
    quietRun_flushTx (by exact hp) (by exact hk) hf, quietRun_statusWrite (by exact hp) (by exact hk) hs,
    quietRun_cfgRmw (by exact hp) (by exact hk) hn hr hw, quietRun_wait, quietRun_setMode]
  refine ⟨_, ?_, ?_, ?_, rfl⟩ <;> rfl

/-- ENTER_RX at the reference peer (R149): CE(1) in receive triggers no send. -/
theorem quietRun_enterRxBody {r0 r1 r2 r3 r4 r5 r6 r7 r8 r9 r10 : Byte}
    (hf : decodeWireCmd p p.opcFlushRx = some .flushRx) :
    ∃ w : BlockView, w.cfg = v.cfg ∧ w.ce = true ∧ w.mode = .listening
      ∧ quietRun (enterRxBody p ++ ms) (r0 :: r1 :: r2 :: r3 :: r4 :: r5 :: r6 :: r7 :: r8 :: r9 :: r10 :: rs) v q =
        (let q1 := q.stored (regCell p.regConfig 0) (rmwByte (q.config p) 0xFF (p.mPwrUp ||| p.mPrimRx))
         let q2 := (q1.withRxf []).cleared p (mStAll p)
         quietRun ms rs w
          ((q2.stored (regCell p.regConfig 0) (rmwByte (q2.config p) 0xFF (mMaskTxIrq p))).onCe p true)) := by
  have hce : q.onCe v.cfg false = q := by simp [Peer.onCe, hk]
  simp only [enterRxBody, clearFlags, maskTxIrqOn, List.append_assoc, List.cons_append, List.nil_append, quietRun_ce, hce]
  rw [quietRun_cfgRmw (by exact hp) hk hn hr hw,
    quietRun_flushRx (by exact hp) (by exact hk) hf, quietRun_statusWrite (by exact hp) (by exact hk) hs,
    quietRun_cfgRmw (by exact hp) (by exact hk) hn hr hw, quietRun_ce, quietRun_wait, quietRun_setMode]
  subst hp
  refine ⟨_, ?_, ?_, ?_, rfl⟩ <;> rfl

omit hp hn hr hw hs in
/-- The handler's work on one byte of the oldest payload (R216, R60). -/
theorem quietRun_captureByte {i : Fin payloadLen} {r : Byte} {k : Nat} {pl : Payload} {rest : List Payload}
    (hc : v.csn = false) (hx : q.rxf = pl :: rest) (h : k < 8) :
    ∃ w : BlockView, w.cfg = v.cfg ∧ w.csn = false ∧ w.rxbuf = v.rxbuf.set i pl[k] ∧ w.ce = v.ce
      ∧ quietRun (captureByte p i ++ ms) (r :: rs) v (q.inFrame .readRxPayload (k + 1) []) =
        quietRun ms rs w (q.inFrame .readRxPayload (k + 2) []) := by
  have h1 : (q.inFrame .readRxPayload (k + 1) []).transfer v.cfg v.csn p.opcNop =
      (some (pl[k]), q.inFrame .readRxPayload (k + 2) []) := by
    rw [hc]; exact transfer_rxPayload hk hx h
  have h2 : captureByte p i ++ ms = .send p.opcNop :: .wait p.tSettle :: .storeTmp :: .storeRx i :: .echo :: .count :: ms := rfl
  have h0 : ∀ v : BlockView, ∃ c f n, viewMicro .count 0 v = { v with rxcnt := c, fault := f, upc := n } := by
    intro v
    by_cases h1 : v.tmp = Config.sentinel <;> by_cases h2 : countHasRoom v.rxcnt = true <;>
      exact ⟨_, _, _, by simp only [viewMicro, viewEffect, h1, h2, if_true, if_false, Bool.false_eq_true]; rfl⟩
  obtain ⟨c, f, n, h3⟩ := h0 (viewMicro .echo 0 (viewMicro (.storeRx i) 0 { v with rx := pl[k], tmp := pl[k], upc := v.upc + 1 + 1 + 1 }))
  rw [h2, quietRun_send, quietRun_wait, quietRun_storeTmp, h1]
  refine ⟨viewMicro .count 0 (viewMicro .echo 0 (viewMicro (.storeRx i) 0
    { v with rx := pl[k], tmp := pl[k], upc := v.upc + 1 + 1 + 1 })), ?_, ?_, ?_, ?_, ?_⟩
  · exact (congrArg BlockView.cfg h3).trans rfl
  · exact (congrArg BlockView.csn h3).trans hc
  · exact (congrArg BlockView.rxbuf h3).trans rfl
  · exact (congrArg BlockView.ce h3).trans rfl
  · rw [quietRun, quietRun, quietRun]; rfl

omit hn hr hw hs in
/-- The handler's frame with a payload waiting: RXBUF takes the oldest payload, which leaves the FIFO (R216, R60). -/
theorem quietRun_rxPayloadFrame {r0 r1 r2 r3 r4 r5 r6 r7 r8 : Byte} {pl : Payload} {rest : List Payload}
    (hd : decodeWireCmd p p.opcRRxPayload = some .readRxPayload) (hx : q.rxf = pl :: rest) :
    ∃ w : BlockView, w.cfg = v.cfg ∧ w.rxbuf = pl ∧ w.ce = v.ce
      ∧ quietRun (rxPayloadFrame p ++ ms) (r0 :: r1 :: r2 :: r3 :: r4 :: r5 :: r6 :: r7 :: r8 :: rs) v q =
        quietRun ms rs w (q.withRxf rest) := by
  have h0 : quietRun (frameBegin p ++ (frameByte p p.opcRRxPayload ++ (captureByte p 0 ++ (captureByte p 1 ++ (captureByte p 2
      ++ (captureByte p 3 ++ (captureByte p 4 ++ (captureByte p 5 ++ (captureByte p 6 ++ (captureByte p 7
      ++ (frameEnd ++ ms)))))))))))
      (r0 :: r1 :: r2 :: r3 :: r4 :: r5 :: r6 :: r7 :: r8 :: rs) v q =
    quietRun (captureByte p 0 ++ (captureByte p 1 ++ (captureByte p 2 ++ (captureByte p 3 ++ (captureByte p 4
      ++ (captureByte p 5 ++ (captureByte p 6 ++ (captureByte p 7 ++ (frameEnd ++ ms)))))))))
      (r1 :: r2 :: r3 :: r4 :: r5 :: r6 :: r7 :: r8 :: rs) { v with csn := false, rx := q.status, upc := v.upc + 5 }
      (q.inFrame .readRxPayload 1 []) := by
    subst hp
    simp only [frameBegin, frameByte, List.cons_append, List.nil_append, quietRun_wait, quietRun_csn, quietRun_send,
      onCsn_open hk, transfer_command hk hd (show WireCmd.readRxPayload ≠ _ by simp) (by simp)]
    rfl
  simp only [rxPayloadFrame, List.append_assoc]
  rw [h0]
  generalize hv0 : ({ v with csn := false, rx := q.status, upc := v.upc + 5 } : BlockView) = v0
  have c0 : v0.cfg = v.cfg := by rw [← hv0]
  have n0 : v0.csn = false := by rw [← hv0]
  have k0 : v0.ce = v.ce := by rw [← hv0]
  obtain ⟨v1, c1, n1, x1, k1, e1⟩ := quietRun_captureByte (i := 0) (k := 0) (r := r1) (rs := r2 :: r3 :: r4 :: r5 :: r6 :: r7 :: r8 :: rs)
    (ms := (captureByte p 1 ++ (captureByte p 2 ++ (captureByte p 3 ++ (captureByte p 4 ++ (captureByte p 5 ++ (captureByte p 6 ++ (captureByte p 7 ++ (frameEnd ++ ms))))))))) hk n0 hx (by omega)
  obtain ⟨v2, c2, n2, x2, k2, e2⟩ := quietRun_captureByte (i := 1) (k := 1) (r := r2) (rs := r3 :: r4 :: r5 :: r6 :: r7 :: r8 :: rs)
    (ms := (captureByte p 2 ++ (captureByte p 3 ++ (captureByte p 4 ++ (captureByte p 5 ++ (captureByte p 6 ++ (captureByte p 7 ++ (frameEnd ++ ms)))))))) hk n1 hx (by omega)
  obtain ⟨v3, c3, n3, x3, k3, e3⟩ := quietRun_captureByte (i := 2) (k := 2) (r := r3) (rs := r4 :: r5 :: r6 :: r7 :: r8 :: rs)
    (ms := (captureByte p 3 ++ (captureByte p 4 ++ (captureByte p 5 ++ (captureByte p 6 ++ (captureByte p 7 ++ (frameEnd ++ ms))))))) hk n2 hx (by omega)
  obtain ⟨v4, c4, n4, x4, k4, e4⟩ := quietRun_captureByte (i := 3) (k := 3) (r := r4) (rs := r5 :: r6 :: r7 :: r8 :: rs)
    (ms := (captureByte p 4 ++ (captureByte p 5 ++ (captureByte p 6 ++ (captureByte p 7 ++ (frameEnd ++ ms)))))) hk n3 hx (by omega)
  obtain ⟨v5, c5, n5, x5, k5, e5⟩ := quietRun_captureByte (i := 4) (k := 4) (r := r5) (rs := r6 :: r7 :: r8 :: rs)
    (ms := (captureByte p 5 ++ (captureByte p 6 ++ (captureByte p 7 ++ (frameEnd ++ ms))))) hk n4 hx (by omega)
  obtain ⟨v6, c6, n6, x6, k6, e6⟩ := quietRun_captureByte (i := 5) (k := 5) (r := r6) (rs := r7 :: r8 :: rs)
    (ms := (captureByte p 6 ++ (captureByte p 7 ++ (frameEnd ++ ms)))) hk n5 hx (by omega)
  obtain ⟨v7, c7, n7, x7, k7, e7⟩ := quietRun_captureByte (i := 6) (k := 6) (r := r7) (rs := r8 :: rs)
    (ms := (captureByte p 7 ++ (frameEnd ++ ms))) hk n6 hx (by omega)
  obtain ⟨v8, c8, n8, x8, k8, e8⟩ := quietRun_captureByte (i := 7) (k := 7) (r := r8) (rs := rs)
    (ms := (frameEnd ++ ms)) hk n7 hx (by omega)
  rw [e1, e2, e3, e4, e5, e6, e7, e8]
  have hend : frameEnd ++ ms = .csn true :: ms := rfl
  rw [hend, quietRun_csn, onCsn_rxPayload hk]
  refine ⟨{ v8 with csn := true, upc := v8.upc + 1 }, by simp [*], ?_, by simp [*], ?_⟩
  · show v8.rxbuf = pl
    rw [x8, x7, x6, x5, x4, x3, x2, x1]
    generalize v0.rxbuf = b
    rcases pl with ⟨⟨l⟩, hl⟩
    rcases b with ⟨⟨l'⟩, hl'⟩
    match l, hl, l', hl' with
    | [_, _, _, _, _, _, _, _], _, [_, _, _, _, _, _, _, _], _ => rfl
  · rw [hx]; rfl

omit hn hr hw hs hp hk in
/-- A command whose waits complete, in a quiet environment: the block and the peer are what `quietRun` says. -/
theorem command_quiet {op : Byte} {addr : Addr} {val : Byte} {prog : State → List Micro} {s : State} {n : Nat}
    (hy : s.ready = true) (hu : Unwatched s) (hg : (prog (accept op addr val s)).all goesOn = true)
    (hn : (prog (accept op addr val s)).countP transfersByte = n)
    (he : (prog (accept op addr val s)).countP echoesByte = 0) (ht : TransfersComplete n s) (hq : s.env = []) :
    ∃ (t : State) (d : Nat → Byte), command op addr val prog s = .next (toIdle t)
      ∧ (t.block, t.peer) =
        quietRun (prog (accept op addr val s)) ((List.range n).map d) (accept op addr val s).block s.peer
      ∧ t.env = [] ∧ t.answers = s.answers.drop n := by
  subst hn
  obtain ⟨t, rs, hs, hl, h1, h2, h3⟩ := runList_quiet (prog (accept op addr val s)) (accept op addr val s) hu hg ht
    (by rw [he]; simp [EchoesComplete]) hq
  obtain ⟨d, rfl⟩ := list_as_bytes hl
  exact ⟨t, d, by simp [command, hy, runMicros, hs], h1, h2, h3⟩

end

end Sys2Proof.Machine
end

