-- ==== Sys2Proof/Laws/PeerKeeps.lean ====
section
/-! SUPPORT. What the peer's operations keep: canonical register bytes, flags within M_ST_ALL, ST_LOW outside it, FIFOs within their depth. -/

namespace Sys2Proof.Machine

/-- What PeerInv says of a peer under the parameters p. -/
def Peer.Bounded (p : Params) (q : Peer) : Prop :=
  Memory.wf q.mem = true ∧ q.st &&& ~~~mStAll p = 0 ∧ q.stLow &&& mStAll p = 0 ∧ q.txf.length ≤ fifoDepth ∧ q.rxf.length ≤ fifoDepth

/-- A transfer keeps it bounded (R57 to R60). -/
theorem bounded_transfer {p : Params} {c : Bool} {b : Byte} {q : Peer} (h : Peer.Bounded p q) : Peer.Bounded p (q.transfer p c b).2 := by
  obtain ⟨h1, h2, h5, h3, h4⟩ := h
  unfold Peer.transfer
  split
  · exact ⟨h1, h2, h5, h3, h4⟩
  · split
    · exact ⟨h1, h2, h5, h3, h4⟩
    · split
      · unfold Peer.command
        simp only
        split <;> exact ⟨h1, h2, h5, by simp_all, by simp_all⟩
      · refine ⟨?_, ?_, ?_, ?_, ?_⟩ <;> simp only [Peer.dataEffect]
        · split <;> try exact h1
          split
          · exact h1
          · split
            · exact write_wf _ h1 (regCell_lt _ (by omega))
            · exact h1
        · split <;> try exact h2
          split
          · show q.st &&& ~~~(b &&& mStAll p) &&& ~~~mStAll p = 0
            rw [BitVec.and_assoc, BitVec.and_comm (~~~ _), ← BitVec.and_assoc, h2]; simp
          · split <;> exact h2
        · split <;> try exact h5
          split
          · exact h5
          · split <;> exact h5
        · split <;> try exact h3
          split
          · exact h3
          · split <;> exact h3
        · split <;> try exact h4
          split
          · exact h4
          · split <;> exact h4

/-- So do the ends of a frame (R60). -/
theorem bounded_onCsn {p : Params} {l : Bool} {q : Peer} (h : Peer.Bounded p q) : Peer.Bounded p (q.onCsn l) := by
  obtain ⟨h1, h2, h5, h3, h4⟩ := h
  unfold Peer.onCsn
  split
  · exact ⟨h1, h2, h5, h3, h4⟩
  · split
    · exact ⟨h1, h2, h5, h3, h4⟩
    · split <;> try exact ⟨h1, h2, h5, h3, h4⟩
      · split
        · split
          · rename_i hl
            exact ⟨h1, h2, h5, by simp [Peer.closed]; omega, h4⟩
          · exact ⟨h1, h2, h5, h3, h4⟩
        · exact ⟨h1, h2, h5, h3, h4⟩
      · exact ⟨h1, h2, h5, h3, by simp [Peer.closed, fifoDepth] at *; omega⟩

/-- So does an edge of CE (R61). -/
theorem bounded_onCe {p : Params} {l : Bool} {q : Peer} (h : Peer.Bounded p q) : Peer.Bounded p (q.onCe p l) := by
  unfold Peer.onCe
  split
  · exact h
  · split <;> exact h

/-- A status flag set stays within M_ST_ALL. -/
theorem mask_or {p : Params} {x m : Byte} (hx : x &&& ~~~mStAll p = 0) (hm : m = p.mRxDr ∨ m = p.mTxDs ∨ m = p.mMaxRt) :
    (x ||| m) &&& ~~~mStAll p = 0 := by
  apply BitVec.eq_of_getLsbD_eq
  intro i hi
  have := congrArg (·.getLsbD i) hx
  simp [mStAll, hi] at *
  rcases hm with rfl | rfl | rfl <;> intro h1 <;> rcases h1 with h1 | h1 <;> simp_all

/-- A radio event keeps the reference peer bounded (R61). -/
theorem bounded_env {s : State} (m : EnvMove) (h : Peer.Bounded s.cfg s.peer) : Peer.Bounded s.cfg (applyEnv m s).peer := by
  cases m with
  | quiet => exact h
  | irq l => exact h
  | deliver pl =>
    obtain ⟨h1, h2, h5, h3, h4⟩ := h
    show Peer.Bounded s.cfg (s.peer.deliver s.cfg s.ce pl)
    unfold Peer.deliver
    split
    · exact ⟨h1, h2, h5, h3, h4⟩
    · split
      · rename_i hc
        simp at hc
        refine ⟨h1, mask_or h2 (.inl rfl), h5, h3, ?_⟩
        simp; omega
      · exact ⟨h1, h2, h5, h3, h4⟩
  | sendDone ok =>
    obtain ⟨h1, h2, h5, h3, h4⟩ := h
    show Peer.Bounded s.cfg (s.peer.sendDone s.cfg ok)
    unfold Peer.sendDone
    split
    · exact ⟨h1, h2, h5, h3, h4⟩
    · split
      · split
        · exact ⟨h1, mask_or h2 (.inr (.inl rfl)), h5, by simp; omega, h4⟩
        · exact ⟨h1, mask_or h2 (.inr (.inr rfl)), h5, h3, h4⟩
      · exact ⟨h1, h2, h5, h3, h4⟩

theorem bounded_elapse {s : State} (h : Peer.Bounded s.cfg s.peer) : Peer.Bounded s.cfg (elapse s).peer := by
  unfold elapse
  split
  · exact h
  · exact bounded_env (s := {s with env := _}) _ h

theorem bounded_xfer {b : Byte} {s : State} (h : Peer.Bounded s.cfg s.peer) : Peer.Bounded s.cfg (xfer b s).state.peer := by
  unfold xfer
  split
  · exact bounded_transfer h
  · exact h
  · exact h
  · exact bounded_transfer h

/-- So does the loss of the peer over a CE left high (R263). -/
theorem bounded_leftWithCe {p : Params} {c : Bool} {q : Peer} (h : Peer.Bounded p q) : Peer.Bounded p (q.leftWithCe p c) := by
  unfold Peer.leftWithCe
  split <;> exact h

/-- A transfer inside a sequence keeps PeerInv. -/
theorem peerInv_transfer {b : Byte} {s : State} (h : PeerInv s) : PeerInv (transfer b s).state := by
  have hc : (xfer b s).state.cfg = s.cfg := by
    rcases xfer_block b s with ⟨r, t, hx, hb, -⟩ | ⟨t, hx, hb, -⟩ <;> rw [hx] <;> exact congrArg BlockView.cfg hb
  have h1 : PeerInv (xfer b s).state := by unfold PeerInv; rw [hc]; exact bounded_xfer (b := b) (s := s) h
  unfold transfer
  split <;> rename_i hx <;> rw [hx] at h1 <;> exact h1

/-- Every micro-operation keeps PeerInv. -/
theorem peerInv_micro {m : Micro} {s : State} (h : PeerInv s) : PeerInv (micro m s).state := by
  have he : PeerInv (elapse s) := by unfold PeerInv; rw [elapse_cfg]; exact bounded_elapse (s := s) h
  have key : ∀ n (f : Flow), PeerInv f.state → PeerInv (afterMicro n f).state := by
    intro n f hf; cases f <;> exact hf
  unfold micro
  apply key
  generalize elapse s = u at he
  cases m
  case send b => exact peerInv_transfer he
  case sendRmw k t => exact peerInv_transfer he
  case csn l => exact bounded_onCsn (p := u.cfg) he
  case ce l => exact bounded_onCe (p := u.cfg) he
  case echo =>
    show PeerInv (dbgOut u.tmp u).state
    unfold dbgOut; split <;> exact he
  case count =>
    show PeerInv (if _ then _ else _)
    split
    · unfold countUp; split <;> exact he
    · exact he
  case pollTest =>
    show PeerInv (pollTest u).state
    unfold pollTest; split <;> exact he
  all_goals exact he

end Sys2Proof.Machine
end

