-- ==== Sys2Proof/Laws/PerInstr.lean ====
section
/-! SUPPORT. For every instruction: its encoding matches its row of spec/opcode_table.json. -/

namespace Sys2Proof.Laws.TableMatch

open Sys2Proof

/-- A row of spec/opcode_table.json: how many bits its encoding has, which of them are fixed, and their values. -/
structure Row where
  bits : Nat
  mask : Nat
  value : Nat
  deriving DecidableEq, Repr

/-- The row of an instruction, as the table writes it. -/
def row : Instr → Row
  | .rdreg _ _ => ⟨24, 0xFF0000, 0x010000⟩
  | .wrreg _ _ => ⟨24, 0xFF0000, 0x020000⟩
  | .wraddr _ _ => ⟨24, 0xFF0000, 0x030000⟩
  | .getStatus _ _ => ⟨24, 0xFF0000, 0x040000⟩
  | .flushTx _ _ => ⟨24, 0xFF0000, 0x050000⟩
  | .flushRx _ _ => ⟨24, 0xFF0000, 0x060000⟩
  | .resetStatus _ _ => ⟨24, 0xFF0000, 0x070000⟩
  | .enterTx _ _ => ⟨24, 0xFF0000, 0x080000⟩
  | .enterRx _ _ => ⟨24, 0xFF0000, 0x090000⟩
  | .send _ _ => ⟨24, 0xFF0000, 0x0A0000⟩
  | .isSending _ _ => ⟨24, 0xFF0000, 0x0B0000⟩
  | .configure _ _ => ⟨24, 0xFF0000, 0x0C0000⟩
  | .ceSet _ _ => ⟨24, 0xFF0000, 0x100000⟩
  | .ceClr _ _ => ⟨24, 0xFF0000, 0x110000⟩
  | .irqOn _ _ => ⟨24, 0xFF0000, 0x120000⟩
  | .irqOff _ _ => ⟨24, 0xFF0000, 0x130000⟩
  | .cntClr _ _ => ⟨24, 0xFF0000, 0x140000⟩
  | .abufWr _ _ => ⟨24, 0xFF0000, 0x150000⟩
  | .txbufWr _ _ => ⟨24, 0xFF0000, 0x160000⟩
  | .run _ _ => ⟨24, 0xFF0000, 0x200000⟩
  | .wRRegister _ => ⟨8, 0xE0, 0x00⟩
  | .wWRegister _ => ⟨8, 0xE0, 0x20⟩
  | .wRRxPayload => ⟨8, 0xFF, 0x61⟩
  | .wWTxPayload => ⟨8, 0xFF, 0xA0⟩
  | .wFlushTx => ⟨8, 0xFF, 0xE1⟩
  | .wFlushRx => ⟨8, 0xFF, 0xE2⟩
  | .wNop => ⟨8, 0xFF, 0xFF⟩

/-- The number of bits of an encoding and its value as a number. -/
def bitsOf : Encoded → Nat × Nat
  | .command w => (24, w.toNat)
  | .wire b => (8, b.toNat)

/-- The encoding of the instruction under the default opcode table has the row's length and its fixed bits. -/
def Statement (i : Instr) : Prop :=
  (bitsOf (encode Params.default i)).1 = (row i).bits ∧ (bitsOf (encode Params.default i)).2 &&& (row i).mask = (row i).value

/-- The fixed bits of a command word are its operation code (R71). -/
theorem commandWord_fixed (op : Byte) (addr : Addr) (val : Byte) :
    (commandWord op addr val).toNat &&& 0xFF0000 = op.toNat <<< 16 := by
  have h : (commandWord op addr val : BitVec 24) &&& (0xFF0000 : BitVec 24) = op.setWidth 24 <<< 16 := by
    have hm : ∀ i, i < 24 → (0xFF0000 : BitVec 24).getLsbD i = decide (16 ≤ i) := by decide
    ext i hi
    rw [← BitVec.getLsbD_eq_getElem hi, ← BitVec.getLsbD_eq_getElem hi, BitVec.getLsbD_and, hm i hi]
    by_cases h : 16 ≤ i
    · simp [commandWord, h, BitVec.getLsbD_of_ge addr (i - 8) (by omega), BitVec.getLsbD_of_ge val i (by omega)]
    · simp [h, show i < 16 by omega]
  have := congrArg BitVec.toNat h
  rw [BitVec.toNat_and] at this
  rw [show (0xFF0000 : Nat) = (0xFF0000 : BitVec 24).toNat from rfl, this, BitVec.toNat_shiftLeft, BitVec.toNat_setWidth]
  have h8 := op.isLt
  rw [Nat.mod_eq_of_lt (by rw [Nat.mod_eq_of_lt (by omega), Nat.shiftLeft_eq]; omega), Nat.mod_eq_of_lt (by omega)]

theorem rdreg (addr : Addr) (val : Byte) : Statement (.rdreg addr val) :=
  ⟨rfl, commandWord_fixed codeRdreg addr val⟩
theorem wrreg (addr : Addr) (val : Byte) : Statement (.wrreg addr val) :=
  ⟨rfl, commandWord_fixed codeWrreg addr val⟩
theorem wraddr (addr : Addr) (val : Byte) : Statement (.wraddr addr val) :=
  ⟨rfl, commandWord_fixed codeWraddr addr val⟩
theorem getStatus (addr : Addr) (val : Byte) : Statement (.getStatus addr val) :=
  ⟨rfl, commandWord_fixed codeGetStatus addr val⟩
theorem flushTx (addr : Addr) (val : Byte) : Statement (.flushTx addr val) :=
  ⟨rfl, commandWord_fixed codeFlushTx addr val⟩
theorem flushRx (addr : Addr) (val : Byte) : Statement (.flushRx addr val) :=
  ⟨rfl, commandWord_fixed codeFlushRx addr val⟩
theorem resetStatus (addr : Addr) (val : Byte) : Statement (.resetStatus addr val) :=
  ⟨rfl, commandWord_fixed codeResetStatus addr val⟩
theorem enterTx (addr : Addr) (val : Byte) : Statement (.enterTx addr val) :=
  ⟨rfl, commandWord_fixed codeEnterTx addr val⟩
theorem enterRx (addr : Addr) (val : Byte) : Statement (.enterRx addr val) :=
  ⟨rfl, commandWord_fixed codeEnterRx addr val⟩
theorem send (addr : Addr) (val : Byte) : Statement (.send addr val) :=
  ⟨rfl, commandWord_fixed codeSend addr val⟩
theorem isSending (addr : Addr) (val : Byte) : Statement (.isSending addr val) :=
  ⟨rfl, commandWord_fixed codeIsSending addr val⟩
theorem configure (addr : Addr) (val : Byte) : Statement (.configure addr val) :=
  ⟨rfl, commandWord_fixed codeConfigure addr val⟩
theorem ceSet (addr : Addr) (val : Byte) : Statement (.ceSet addr val) :=
  ⟨rfl, commandWord_fixed codeCeSet addr val⟩
theorem ceClr (addr : Addr) (val : Byte) : Statement (.ceClr addr val) :=
  ⟨rfl, commandWord_fixed codeCeClr addr val⟩
theorem irqOn (addr : Addr) (val : Byte) : Statement (.irqOn addr val) :=
  ⟨rfl, commandWord_fixed codeIrqOn addr val⟩
theorem irqOff (addr : Addr) (val : Byte) : Statement (.irqOff addr val) :=
  ⟨rfl, commandWord_fixed codeIrqOff addr val⟩
theorem cntClr (addr : Addr) (val : Byte) : Statement (.cntClr addr val) :=
  ⟨rfl, commandWord_fixed codeCntClr addr val⟩
theorem abufWr (addr : Addr) (val : Byte) : Statement (.abufWr addr val) :=
  ⟨rfl, commandWord_fixed codeAbufWr addr val⟩
theorem txbufWr (addr : Addr) (val : Byte) : Statement (.txbufWr addr val) :=
  ⟨rfl, commandWord_fixed codeTxbufWr addr val⟩
theorem run (addr : Addr) (val : Byte) : Statement (.run addr val) :=
  ⟨rfl, commandWord_fixed codeRun addr val⟩
theorem wRRegister (a : Addr) : Statement (.wRRegister a) := by
  revert a; unfold Statement; decide
theorem wWRegister (a : Addr) : Statement (.wWRegister a) := by
  revert a; unfold Statement; decide
theorem wRRxPayload : Statement .wRRxPayload := by unfold Statement; decide
theorem wWTxPayload : Statement .wWTxPayload := by unfold Statement; decide
theorem wFlushTx : Statement .wFlushTx := by unfold Statement; decide
theorem wFlushRx : Statement .wFlushRx := by unfold Statement; decide
theorem wNop : Statement .wNop := by unfold Statement; decide

end Sys2Proof.Laws.TableMatch
end

