-- ==== Sys2Proof/Laws/Phases.lean ====
section
/-! SUPPORT. Every micro-sequence keeps the frame discipline of R110: `whole_active` says that the one in progress goes from
between frames to between frames. -/

namespace Sys2Proof.Machine

theorem programPhase_append (st : Nat) (ph : FramePhase) (a b : List Micro) :
    programPhase st ph (a ++ b) = (programPhase st ph a).bind fun ph => programPhase st ph b := by
  induction a generalizing ph with
  | nil => rfl
  | cons m ms ih =>
    simp only [List.cons_append, programPhase]
    cases microPhase st ph m with
    | none => rfl
    | some ph' => exact ih ph'

/-- A micro-sequence that goes from between frames to between frames (R110), for the settle time st. -/
def Whole (st : Nat) (ms : List Micro) : Prop := ∀ b, ∃ b', programPhase st (.closed b) ms = some (.closed b')

theorem whole_append {st : Nat} {a b : List Micro} (ha : Whole st a) (hb : Whole st b) : Whole st (a ++ b) := by
  intro x
  obtain ⟨y, hy⟩ := ha x
  obtain ⟨z, hz⟩ := hb y
  exact ⟨z, by rw [programPhase_append, hy]; exact hz⟩

/-- A piece of a micro-sequence inside an open frame, with at least one transfer. -/
def Inside (st : Nat) (ms : List Micro) : Prop := ∀ m, programPhase st (.opened m) ms = some (.opened true)

theorem inside_append {st : Nat} {a b : List Micro} (ha : Inside st a) (hb : Inside st b) : Inside st (a ++ b) := by
  intro m; rw [programPhase_append, ha m]; exact hb true

theorem inside_frameByte (p : Params) (b : Byte) : Inside p.tSettle (frameByte p b) := by
  intro m; simp [frameByte, programPhase, microPhase, framePhase]

theorem inside_frameRmw (p : Params) (k t : Byte) : Inside p.tSettle (frameRmw p k t) := by
  intro m; simp [frameRmw, programPhase, microPhase, framePhase]

theorem inside_captureByte (p : Params) (i : Fin payloadLen) : Inside p.tSettle (captureByte p i) := by
  intro m; rw [captureByte, programPhase_append, inside_frameByte]; rfl

theorem inside_frameBytes (p : Params) (b : Byte) (bs : List Byte) : Inside p.tSettle (frameBytes p (b :: bs)) := by
  induction bs generalizing b with
  | nil =>
    have : frameBytes p [b] = frameByte p b := List.append_nil _
    rw [this]; exact inside_frameByte p b
  | cons c cs ih => exact inside_append (inside_frameByte p b) (ih c)

theorem whole_frame {p : Params} {ms : List Micro} (h : Inside p.tSettle ms) : Whole p.tSettle (frameBegin p ++ ms ++ frameEnd) := by
  intro b
  refine ⟨false, ?_⟩
  have hb : programPhase p.tSettle (.closed b) (frameBegin p) = some (.opened false) := by
    simp [frameBegin, programPhase, microPhase, framePhase]
  rw [programPhase_append, programPhase_append, hb, Option.bind_some, h false]
  rfl

theorem whole_regRead (p : Params) (a : Addr) : Whole p.tSettle (regRead p a) := by
  have := whole_frame (inside_append (inside_frameByte p (readCommand p a)) (inside_frameByte p p.opcNop))
  rwa [← List.append_assoc] at this

theorem whole_regWrite (p : Params) (a : Addr) (v : Byte) : Whole p.tSettle (regWrite p a v) := by
  have := whole_frame (inside_append (inside_frameByte p (writeCommand p a)) (inside_frameByte p v))
  rwa [← List.append_assoc] at this

theorem whole_regWriteRmw (p : Params) (a : Addr) (k t : Byte) : Whole p.tSettle (regWriteRmw p a k t) := by
  have := whole_frame (inside_append (inside_frameByte p (writeCommand p a)) (inside_frameRmw p k t))
  rwa [← List.append_assoc] at this

theorem whole_status (p : Params) : Whole p.tSettle (statusFrame p) := whole_frame (inside_frameByte p _)

theorem whole_flush (p : Params) (o : Byte) : Whole p.tSettle (flushFrame p o) := whole_frame (inside_frameByte p _)

theorem whole_addr (p : Params) (a : Addr) (v : DeviceAddress) : Whole p.tSettle (addrWrite p a v) := by
  have hv : v.toList ≠ [] := by intro h; have := congrArg List.length h; simp at this
  obtain ⟨x, xs, hx⟩ := List.exists_cons_of_ne_nil hv
  have := whole_frame (inside_append (inside_frameByte p (writeCommand p a)) (inside_frameBytes p x xs))
  rw [← List.append_assoc, ← hx] at this
  exact this

theorem whole_payload (p : Params) (v : Payload) : Whole p.tSettle (txPayloadFrame p v) := by
  have hv : v.toList ≠ [] := by intro h; have := congrArg List.length h; simp at this
  obtain ⟨x, xs, hx⟩ := List.exists_cons_of_ne_nil hv
  have := whole_frame (inside_append (inside_frameByte p p.opcWTxPayload) (inside_frameBytes p x xs))
  rw [← List.append_assoc, ← hx] at this
  exact this

theorem whole_rx (p : Params) : Whole p.tSettle (rxPayloadFrame p) := by
  have := whole_frame (inside_append (inside_append (inside_append (inside_append (inside_append (inside_append (inside_append (inside_append
    (inside_frameByte p p.opcRRxPayload)
    (inside_captureByte p 0)) (inside_captureByte p 1)) (inside_captureByte p 2)) (inside_captureByte p 3))
    (inside_captureByte p 4)) (inside_captureByte p 5)) (inside_captureByte p 6)) (inside_captureByte p 7))
  simp only [← List.append_assoc] at this
  exact this

theorem whole_nil (st : Nat) : Whole st [] := fun b => ⟨b, rfl⟩

/-- A micro-operation that may stand between frames. -/
def standsAlone (m : Micro) : Bool :=
  match m with
  | .csn _ => false
  | .send _ => false
  | .sendRmw _ _ => false
  | .echo => false
  | .wait _ => true
  | .ce _ => true
  | .resultTmp => true
  | .resultSending => true
  | .setMode _ => true
  | .setIrqEn _ => true
  | .clearCount => true
  | .setAbuf _ _ => true
  | .setTxbuf _ _ => true
  | .raise _ => true
  | .storeRx _ => true
  | .count => true
  | .storeTmp => true
  | .setRunning _ => true
  | .setNlpc _ => true
  | .clearPolls => true
  | .poll => true
  | .pollTest => true

theorem alone_phase {st : Nat} {m : Micro} (hm : standsAlone m = true) (b : Bool) : ∃ c, microPhase st (.closed b) m = some (.closed c) := by
  cases m
  case csn | send | sendRmw | echo => exact absurd hm Bool.false_ne_true
  all_goals cases b <;> exact ⟨_, rfl⟩

theorem whole_cons {st : Nat} {m : Micro} {ms : List Micro} (hm : standsAlone m = true) (h : Whole st ms) : Whole st (m :: ms) := by
  intro b
  obtain ⟨c, hc⟩ := alone_phase (st := st) hm b
  obtain ⟨d, hd⟩ := h c
  exact ⟨d, by rw [programPhase, hc, Option.bind_some, hd]⟩

theorem whole_one {st : Nat} {m : Micro} (hm : standsAlone m = true) : Whole st [m] := whole_cons hm (whole_nil st)

theorem whole_two {st : Nat} {m n : Micro} (hm : standsAlone m = true) (hn : standsAlone n = true) : Whole st [m, n] := whole_cons hm (whole_one hn)

theorem whole_cfgRmw (p : Params) (k t : Byte) : Whole p.tSettle (cfgRmw p k t) := whole_append (whole_append (whole_regRead _ _) (whole_one rfl)) (whole_regWriteRmw _ _ _ _)

theorem whole_clear (p : Params) (m : Byte) : Whole p.tSettle (clearFlags p m) := whole_regWrite _ _ _

theorem whole_mask (p : Params) : Whole p.tSettle (maskTxIrqOn p) := whole_cfgRmw _ _ _

theorem whole_enterTx (p : Params) : Whole p.tSettle (enterTxBody p) :=
  whole_append (whole_append (whole_append (whole_append (whole_append (whole_append (whole_one rfl) (whole_cfgRmw _ _ _)) (whole_cfgRmw _ _ _))
    (whole_flush _ _)) (whole_clear _ _)) (whole_mask _)) (whole_two rfl rfl)

theorem whole_enterRx (p : Params) : Whole p.tSettle (enterRxBody p) :=
  whole_append (whole_append (whole_append (whole_append (whole_append (whole_one rfl) (whole_cfgRmw _ _ _))
    (whole_flush _ _)) (whole_clear _ _)) (whole_mask _)) (whole_cons rfl (whole_two rfl rfl))

theorem whole_send (p : Params) (b : Payload) : Whole p.tSettle (sendBody p b) :=
  whole_append (whole_append (whole_flush _ _) (whole_payload _ _)) (whole_cons rfl (whole_cons rfl (whole_two rfl rfl)))

theorem whole_capture (p : Params) : Whole p.tSettle (captureProgram p) :=
  whole_append (whole_append (whole_one rfl) (whole_rx _)) (whole_clear _ _)

theorem whole_cycle (p : Params) (b : Payload) : Whole p.tSettle (cycleProgram p b) :=
  whole_append (whole_append (whole_append (whole_one rfl) (whole_enterTx _)) (whole_send _ _)) (whole_cons rfl (whole_two rfl rfl))

theorem whole_poll (p : Params) : Whole p.tSettle (pollProgram p) :=
  whole_append (whole_append (whole_append (whole_append (whole_status _) (whole_two rfl rfl)) (whole_clear _ _)) (whole_enterRx _))
    (whole_cons rfl (whole_cons rfl (whole_two rfl rfl)))

theorem whole_timeout (st : Nat) : Whole st timeoutProgram := whole_cons rfl (whole_cons rfl (whole_two rfl rfl))

theorem whole_configure (s : State) : Whole s.cfg.tSettle (configureProgram s) :=
  whole_append (whole_append (whole_append (whole_append (whole_append (whole_append (whole_append (whole_append
    (whole_regWrite _ _ _) (whole_regWrite _ _ _)) (whole_regWrite _ _ _)) (whole_regWrite _ _ _)) (whole_addr _ _ _)) (whole_addr _ _ _))
    (whole_regWrite _ _ _)) (whole_regWrite _ _ _)) (whole_enterRx _)

end Sys2Proof.Machine
end

