-- ==== Sys2Proof/Laws/Resume.lean ====
section
/-! SUPPORT. What a held sequence's proof cites: no micro-operation reads what is left to do or where the host looks, a held transfer
goes on as one that starts, a run goes on over the end of its first part, and a pending interrupt stays pending inside a sequence. -/

namespace Sys2Proof.Machine

/-! ## todo and looks -/

/-- The same flow with other rests and looks. -/
def Flow.withRest (todo : List Micro) (looks : List Nat) : Flow → Flow
  | .more t => .more { t with todo := todo, looks := looks }
  | .hold t => .hold { t with todo := todo, looks := looks }
  | .jump t target => .jump { t with todo := todo, looks := looks } target

/-- Time passes the same whatever is left to do and wherever the host looks. -/
theorem elapse_withRest (s : State) (todo : List Micro) (looks : List Nat) :
    elapse { s with todo := todo, looks := looks } = { elapse s with todo := todo, looks := looks } := by
  rcases hs : s.env with _ | ⟨m, rest⟩
  · simp only [elapse, hs]; rw [← hs]; rfl
  · simp only [elapse, hs]; cases m <;> rfl

/-- So does a transfer (R101). -/
theorem transfer_withRest (b : Byte) (s : State) (todo : List Micro) (looks : List Nat) :
    transfer b { s with todo := todo, looks := looks } = (transfer b s).withRest todo looks := by
  unfold transfer xfer
  cases s.answers with
  | nil => rfl
  | cons a rest => cases a <;> rfl

/-- So does every micro-operation. -/
theorem micro_withRest (m : Micro) (s : State) (todo : List Micro) (looks : List Nat) :
    micro m { s with todo := todo, looks := looks } = (micro m s).withRest todo looks := by
  have after : ∀ n f, afterMicro n (Flow.withRest todo looks f) = (afterMicro n f).withRest todo looks := by
    intro n f; cases f <;> rfl
  unfold micro
  rw [elapse_withRest, ← after]
  congr 1
  generalize elapse s = u
  cases m
  case send b => exact transfer_withRest b u todo looks
  case sendRmw keep set => exact transfer_withRest _ u todo looks
  case echo =>
    rcases hu : u.dbg with _ | ⟨a, rest⟩
    · simp only [effect, dbgOut, hu]; rw [← hu]; rfl
    · cases a <;> simp only [effect, dbgOut, hu] <;> first | rfl | (rw [← hu]; rfl)
  case count => simp only [effect, countUp, Flow.withRest]; split <;> (try split) <;> rfl
  case pollTest => simp only [effect, pollTest]; split <;> rfl
  all_goals rfl

/-- What stands in todo when a run begins does not matter: the run writes it where it pauses and at its end. -/
theorem runMicros_withRest (ms : List Micro) (s : State) (todo : List Micro) :
    runMicros ms { s with todo := todo } = runMicros ms s := by
  induction ms generalizing s with
  | nil => rfl
  | cons m ms ih =>
    have h1 : towardsLook { s with todo := todo } = { towardsLook s with todo := todo, looks := (towardsLook s).looks } := rfl
    have h2 : lookDue { s with todo := todo } = lookDue s := rfl
    rw [runMicros_cons, runMicros_cons, h1, h2, micro_withRest]
    split
    · rfl
    · have hl := (micro_looks m (towardsLook s)).1
      cases hm : micro m (towardsLook s) with
      | more t => rw [hm] at hl; simp only [Flow.withRest, ← hl]; exact ih t
      | hold t => rw [hm] at hl; simp only [Flow.withRest, ← hl]; rfl
      | jump t target => rw [hm] at hl; simp only [Flow.withRest, ← hl]; rfl

/-! ## Going on after a wait -/

/-- A second sample of the same level changes nothing (R212). -/
theorem sample_sample (s : State) : sample (sample s) = sample s := by
  have h : ∀ a b l e i : Bool, pendAfterSample (pendAfterSample a b l e i) l l e i = pendAfterSample a b l e i := by decide
  show ({ sample s with irqPend := pendAfterSample _ _ _ _ _, irqPrev := _ } : State) = _
  rw [show irqLine (sample s) = irqLine s from rfl]
  simp only [sample, h]

/-- A transfer held so far goes on as one that starts (R101, R103). -/
theorem transfer_busOut (b : Byte) (s : State) (o : Option Byte) : transfer b { s with busOut := o } = transfer b s := by
  unfold transfer xfer
  cases s.answers with
  | nil => rfl
  | cons a r => cases a <;> rfl

/-! ## Parts of a run -/

/-- A run over two lists whose first is done goes on with the second. -/
theorem runMicros_append {a : List Micro} (b : List Micro) {s t : State} (h : runList a s = .finished t) :
    runMicros (a ++ b) s = runMicros b t := by
  rw [runMicros, runList_append _ _ h]; rfl

/-- A run only adds to the trace (R8). -/
theorem runMicros_trace (ms : List Micro) (s : State) : s.trace <+: (runMicros ms s).trace := by
  induction ms generalizing s with
  | nil => exact List.prefix_refl _
  | cons m ms ih =>
    rw [runMicros_cons]
    split
    · exact List.prefix_refl _
    · have h0 : (towardsLook s).trace = s.trace := rfl
      rcases micro_cases m (towardsLook s) with ⟨-, r, t, he, -, ht, -⟩ | ⟨-, t, he, -, ht⟩ | ⟨-, t, he, ht, -⟩ | ⟨-, -, t, ht, -, he⟩ <;>
        rw [he] <;> simp only
      · exact (ht ▸ h0 ▸ List.prefix_append _ _ : s.trace <+: t.trace).trans (ih t)
      · rw [ht]; exact List.prefix_refl _
      · rw [ht]; exact List.prefix_refl _
      · rw [ht]; exact List.prefix_refl _

/-! ## A pending interrupt inside a sequence -/

/-- No micro-operation clears IRQ_PEND (R211). -/
theorem micro_keeps_pending {m : Micro} {s : State} (h : s.irqPend = true) : (micro m s).state.irqPend = true := by
  have after : ∀ n f, (Flow.state f).irqPend = true → (afterMicro n f).state.irqPend = true := by
    intro n f hf; cases f <;> exact sample_keeps_pending hf
  have exchanged : ∀ b u, u.irqPend = true → (transfer b u).state.irqPend = true := by
    intro b u hu
    rcases xfer_block b u with ⟨r, t, hx, -, h1, -⟩ | ⟨t, hx, -, h1, -⟩ <;> simp only [transfer, hx] <;> exact h1.trans hu
  unfold micro
  apply after
  have he : (elapse s).irqPend = true := elapse_keeps_pending h
  generalize elapse s = u at he
  cases m
  case send b => exact exchanged b u he
  case sendRmw keep set => exact exchanged _ u he
  case echo => show (dbgOut _ u).state.irqPend = true; unfold dbgOut; split <;> exact he
  case count =>
    show State.irqPend (if _ then _ else _) = true
    split
    · unfold countUp; split <;> exact he
    · exact he
  case pollTest => show (pollTest u).state.irqPend = true; unfold pollTest; split <;> exact he
  all_goals exact he

/-- No run of a sequence clears IRQ_PEND (R211). -/
theorem runMicros_keeps_pending {ms : List Micro} {s : State} (h : s.irqPend = true) : (runMicros ms s).irqPend = true :=
  runMicros_keeps (P := fun s => s.irqPend = true) ⟨fun _ _ h => h, fun _ _ h => h, fun _ _ h => h⟩
    (fun _ _ h => micro_keeps_pending h) (fun _ h => h) h

end Sys2Proof.Machine
end

