-- ==== Sys2Proof/Laws/Sequencer.lean ====
section
/-! SUPPORT. The sequencer's invariant over a run of micro-operations: `run_inv` for the rest of a micro-sequence, `start_inv` for
a new one, `exec_cases` for an instruction's. -/

namespace Sys2Proof.Machine

/-! ## The micro-sequences that can be started or jumped to -/

/-- A micro-sequence as an operation runs it: it has a step, it keeps the frame discipline (R110), and it leaves nlpc at
NL_CHECK (R13). -/
structure Sound (st : Nat) (ms : List Micro) : Prop where
  pos : ms ≠ []
  whole : Whole st ms
  nlpc : nlpcAtEnd .check ms = .check

theorem sound_capture (p : Params) : Sound p.tSettle (captureProgram p) := ⟨nofun, whole_capture p, rfl⟩

theorem sound_cycle (p : Params) (b : Payload) : Sound p.tSettle (cycleProgram p b) :=
  ⟨nofun, whole_cycle p b, by
    simp only [cycleProgram, sendBody, txPayloadFrame, frameBytes, payload_toList]; rfl⟩

theorem sound_poll (p : Params) : Sound p.tSettle (pollProgram p) := ⟨nofun, whole_poll p, rfl⟩

theorem sound_timeout (st : Nat) : Sound st timeoutProgram := ⟨nofun, whole_timeout st, rfl⟩

theorem sound_one {st : Nat} {m : Micro} (h : standsAlone m = true) (hn : nlpcAtEnd .check [m] = .check) : Sound st [m] :=
  ⟨nofun, whole_one h, hn⟩

theorem sound_wraddr (s : State) : Sound s.cfg.tSettle (wraddrProgram s) :=
  ⟨nofun, whole_addr _ _ _, by simp only [wraddrProgram, addrWrite, frameBytes, deviceAddress_toList]; rfl⟩

theorem sound_send (s : State) : Sound s.cfg.tSettle (sendProgram s) := by
  unfold sendProgram
  split
  · exact ⟨nofun, whole_send _ _, by simp only [sendBody, txPayloadFrame, frameBytes, payload_toList]; rfl⟩
  · exact sound_one rfl rfl

theorem sound_configure (s : State) : Sound s.cfg.tSettle (configureProgram s) :=
  ⟨nofun, whole_configure s, by simp only [configureProgram, addrWrite, frameBytes, deviceAddress_toList]; rfl⟩

theorem sound_abufWr (s : State) : Sound s.cfg.tSettle (abufWrProgram s) := by
  unfold abufWrProgram; split <;> exact sound_one rfl rfl

theorem sound_txbufWr (s : State) : Sound s.cfg.tSettle (txbufWrProgram s) := by
  unfold txbufWrProgram; split <;> exact sound_one rfl rfl

/-- An instruction is a command with a sound micro-sequence, or one exchange of a wire byte. -/
theorem exec_cases (i : Instr) (s : State) :
    (∃ op addr val prog, exec i s = command op addr val prog s ∧ ∀ u : State, Sound u.cfg.tSettle (prog u))
      ∨ ∃ b, encode s.cfg i = .wire b ∧ exec i s = exchangeByte b s := by
  cases i
  case rdreg => exact .inl ⟨_, _, _, rdregProgram, rfl, fun u => ⟨nofun, whole_append (whole_regRead _ _) (whole_two rfl rfl), rfl⟩⟩
  case wrreg => exact .inl ⟨_, _, _, wrregProgram, rfl, fun u => ⟨nofun, whole_regWrite _ _ _, rfl⟩⟩
  case wraddr => exact .inl ⟨_, _, _, _, rfl, sound_wraddr⟩
  case getStatus => exact .inl ⟨_, _, _, getStatusProgram, rfl, fun u => ⟨nofun, whole_append (whole_status _) (whole_two rfl rfl), rfl⟩⟩
  case flushTx => exact .inl ⟨_, _, _, flushTxProgram, rfl, fun u => ⟨nofun, whole_flush _ _, rfl⟩⟩
  case flushRx => exact .inl ⟨_, _, _, flushRxProgram, rfl, fun u => ⟨nofun, whole_flush _ _, rfl⟩⟩
  case resetStatus => exact .inl ⟨_, _, _, resetStatusProgram, rfl, fun u => ⟨nofun, whole_clear _ _, rfl⟩⟩
  case enterTx => exact .inl ⟨_, _, _, enterTxProgram, rfl, fun u => ⟨nofun, whole_enterTx _, rfl⟩⟩
  case enterRx => exact .inl ⟨_, _, _, enterRxProgram, rfl, fun u => ⟨nofun, whole_enterRx _, rfl⟩⟩
  case send => exact .inl ⟨_, _, _, _, rfl, sound_send⟩
  case isSending => exact .inl ⟨_, _, _, isSendingProgram, rfl, fun u => ⟨nofun, whole_append (whole_status _) (whole_two rfl rfl), rfl⟩⟩
  case configure => exact .inl ⟨_, _, _, _, rfl, sound_configure⟩
  case abufWr => exact .inl ⟨_, _, _, _, rfl, sound_abufWr⟩
  case txbufWr => exact .inl ⟨_, _, _, _, rfl, sound_txbufWr⟩
  case ceSet => exact .inl ⟨_, _, _, ceSetProgram, rfl, fun _ => sound_one rfl rfl⟩
  case ceClr => exact .inl ⟨_, _, _, ceClrProgram, rfl, fun _ => sound_one rfl rfl⟩
  case irqOn => exact .inl ⟨_, _, _, irqOnProgram, rfl, fun _ => sound_one rfl rfl⟩
  case irqOff => exact .inl ⟨_, _, _, irqOffProgram, rfl, fun _ => sound_one rfl rfl⟩
  case cntClr => exact .inl ⟨_, _, _, cntClrProgram, rfl, fun _ => sound_one rfl rfl⟩
  case run => exact .inl ⟨_, _, _, runProgram, rfl, fun _ => ⟨nofun, whole_cons rfl (whole_two rfl rfl), rfl⟩⟩
  all_goals exact .inr ⟨_, rfl, rfl⟩

/-! ## One micro-operation -/

/-- The phase of the trace follows the events of a micro-operation, and CSN with it (R110). -/
theorem phase_events {st : Nat} {ph ph' : FramePhase} {m : Micro} {r : Byte} {v : BlockView} (h : microPhase st ph m = some ph')
    (hc : v.csn = ph.isClosed) :
    tracePhase st ph (eventsMicro m r v) = some ph' ∧ (viewEffect m r v).csn = ph'.isClosed := by
  cases m
  case wait t =>
    simp only [microPhase] at h
    refine ⟨by simp [eventsMicro, tracePhase, h], ?_⟩
    rcases ph with b | _ | b | _ <;> simp [framePhase] at h
    · subst h; exact hc
    · rw [← h.2]; exact hc
    · subst h; exact hc
    · rw [← h.2]; exact hc
  case csn l =>
    simp only [microPhase] at h
    refine ⟨by simp [eventsMicro, tracePhase, h], ?_⟩
    rcases ph with (_ | _) | _ | (_ | _) | _ <;> cases l <;> simp [framePhase] at h <;> subst h <;> rfl
  case ce l =>
    simp only [microPhase] at h
    refine ⟨by simp [eventsMicro, tracePhase, h], ?_⟩
    rcases ph with (_ | _) | _ | (_ | _) | _ <;> simp [framePhase] at h <;> subst h <;> exact hc
  case send x =>
    have h2 : framePhase st ph (.x x r) = some ph' := by rw [← h]; rcases ph with (_ | _) | _ | (_ | _) | _ <;> rfl
    refine ⟨by simp [eventsMicro, tracePhase, h2], ?_⟩
    rcases ph with (_ | _) | _ | (_ | _) | _ <;> simp [framePhase] at h2 <;> subst h2 <;> exact hc
  case sendRmw k t =>
    have h2 : framePhase st ph (.x (rmwByte v.tmp k t) r) = some ph' := by rw [← h]; rcases ph with (_ | _) | _ | (_ | _) | _ <;> rfl
    refine ⟨by simp [eventsMicro, tracePhase, h2], ?_⟩
    rcases ph with (_ | _) | _ | (_ | _) | _ <;> simp [framePhase] at h2 <;> subst h2 <;> exact hc
  case echo =>
    have h2 : framePhase st ph (.d v.tmp) = some ph' := by rw [← h]; rcases ph with (_ | _) | _ | (_ | _) | _ <;> rfl
    refine ⟨by simp [eventsMicro, tracePhase, h2], ?_⟩
    rcases ph with (_ | _) | _ | (_ | _) | _ <;> simp [framePhase] at h2 <;> subst h2 <;> exact hc
  case poll =>
    simp only [microPhase] at h; split at h <;> cases h; exact ⟨rfl, hc⟩
  case pollTest =>
    simp only [microPhase] at h; split at h <;> cases h; exact ⟨rfl, hc⟩
  case count =>
    simp only [microPhase, Option.some.injEq] at h; subst h
    refine ⟨rfl, ?_⟩
    simp only [viewEffect]; split
    · split <;> exact hc
    · exact hc
  all_goals
    simp only [microPhase, Option.some.injEq] at h; subst h; exact ⟨rfl, hc⟩

theorem tracePhase_append (st : Nat) (ph : FramePhase) (a b : List Event) :
    tracePhase st ph (a ++ b) = (tracePhase st ph a).bind fun ph => tracePhase st ph b := by
  induction a generalizing ph with
  | nil => rfl
  | cons m ms ih =>
    simp only [List.cons_append, tracePhase]
    cases framePhase st ph m with
    | none => rfl
    | some ph' => exact ih ph'

/-- An exchange in progress after a micro-operation is its own transfer's (R103). -/
theorem micro_bus (m : Micro) (s : State) (h : s.busOut = none ∨ transfersByte m = true) :
    ∀ t, (micro m s = .more t → t.busOut = none) ∧ (∀ target, micro m s = .jump t target → t.busOut = none)
      ∧ (micro m s = .hold t → t.busOut = none ∨ transfersByte m = true) := by
  have k2 : ∀ n (f : Flow), (afterMicro n f).state.busOut = f.state.busOut := by intro n f; cases f <;> rfl
  by_cases ht : transfersByte m = true
  · obtain ⟨he, -⟩ := micro_transfer ht s
    refine fun t => ⟨fun hx => ?_, fun _ hx => ?_, fun _ => .inr ht⟩ <;> simp only [micro, he, transfer] at hx <;>
      rcases xfer_block _ (elapse s) with ⟨r, u, hu, -, -, -, hb, -⟩ | ⟨u, hu, -⟩ <;> rw [hu] at hx <;> cases hx
    exact hb
  · have hb : (elapse s).busOut = none := by rw [elapse_busOut]; exact h.resolve_right ht
    have key : (micro m s).state.busOut = none := by
      unfold micro; rw [k2]
      generalize elapse s = u at hb
      cases m <;> simp [transfersByte] at ht
      case echo => show (dbgOut u.tmp u).state.busOut = none; unfold dbgOut; split <;> exact hb
      case count => show State.busOut (if _ then _ else _) = none; split; (unfold countUp; split <;> exact hb); exact hb
      case pollTest => show (pollTest u).state.busOut = none; unfold pollTest; split <;> exact hb
      all_goals exact hb
    refine fun t => ⟨fun hx => ?_, fun _ hx => ?_, fun hx => .inl ?_⟩ <;> rw [hx] at key <;> exact key

/-- What no micro-operation that goes on changes; nlpc moves as `nlpcAtEnd` says. -/
theorem view_keeps {m : Micro} (hm : m ≠ .poll) (r : Byte) (v : BlockView) (ms : List Micro) :
    (viewEffect m r v).seq = v.seq ∧ (viewEffect m r v).cfg = v.cfg
      ∧ nlpcAtEnd (viewEffect m r v).nlpc ms = nlpcAtEnd v.nlpc (m :: ms) := by
  cases m
  case poll => exact absurd rfl hm
  case count => simp only [viewEffect]; split <;> [split; skip] <;> exact ⟨rfl, rfl, rfl⟩
  all_goals exact ⟨rfl, rfl, rfl⟩

/-! ## A whole run -/

/-- A state that stands before the rest `ms` of a micro-sequence: the trace keeps the frame discipline and `ms` goes on keeping it
(R110), it ends at NL_CHECK (R13), an exchange in progress is its first transfer (R103). -/
structure Before (ms : List Micro) (u : State) : Prop where
  frames : ∃ ph, tracePhase u.cfg.tSettle (.closed false) u.trace = some ph ∧ u.csn = ph.isClosed
    ∧ ∃ b, programPhase u.cfg.tSettle ph ms = some (.closed b)
  nlpc : nlpcAtEnd u.nlpc ms = .check
  bus : ∀ b, u.busOut = some b → ∃ m, ms.head? = some m ∧ transfersByte m = true
  owned : u.seq ≠ .idle

/-- Where a step ends inside a micro-sequence, the invariant holds. -/
theorem Before.paused {ms : List Micro} {u : State} (h : Before ms u) (hp : ms ≠ []) : SequencerInv { u with todo := ms } :=
  ⟨h.frames, fun hs => absurd hs h.owned, fun _ => hp, h.nlpc, h.bus⟩

/-- A sound micro-sequence can be started or jumped to between frames. -/
theorem before_sound {ms : List Micro} {u : State} {c : Bool} (hs : Sound u.cfg.tSettle ms)
    (ht : tracePhase u.cfg.tSettle (.closed false) u.trace = some (.closed c)) (hc : u.csn = true)
    (hn : nlpcAtEnd u.nlpc ms = .check) (hb : u.busOut = none) (ho : u.seq ≠ .idle) : Before ms u :=
  ⟨⟨_, ht, hc, hs.whole c⟩, hn, fun b h => (by rw [hb] at h; cases h), ho⟩

/-- The next micro-operation leaves the state before what follows it. -/
theorem Before.next {m : Micro} {ms : List Micro} {u t : State} {r : Byte} (h : Before (m :: ms) u) (hm : m ≠ .poll)
    (hb : t.block = viewMicro m r u.block) (htr : t.trace = u.trace ++ eventsMicro m r u.block) (hbus : t.busOut = none) :
    Before ms t := by
  obtain ⟨ph, h1, h2, b, h3⟩ := h.frames
  obtain ⟨ph', hph, h3⟩ := Option.bind_eq_some_iff.mp h3
  obtain ⟨p1, p2⟩ := phase_events (r := r) (v := u.block) hph h2
  obtain ⟨k1, k2, k3⟩ := view_keeps hm r u.block ms
  have e0 : ∀ {α : Type} (f : BlockView → α), f t.block = f (viewMicro m r u.block) := fun f => by rw [hb]
  have tcfg : t.cfg = u.cfg := (e0 BlockView.cfg).trans k2
  have tn : t.nlpc = (viewEffect m r u.block).nlpc := e0 BlockView.nlpc
  refine ⟨⟨ph', ?_, (e0 BlockView.csn).trans p2, b, by rw [tcfg]; exact h3⟩, by rw [tn, k3]; exact h.nlpc,
    fun x hx => (by rw [hbus] at hx; cases hx), fun hs => h.owned (((e0 BlockView.seq).trans k1).symm.trans hs)⟩
  rw [tcfg, htr, tracePhase_append, h1]; exact p1

/-- A label and its test stand between frames. -/
theorem Before.closed {m : Micro} {ms : List Micro} {u : State} (h : Before (m :: ms) u) (hm : m = .poll ∨ m = .pollTest) :
    ∃ c, tracePhase u.cfg.tSettle (.closed false) u.trace = some (.closed c) ∧ u.csn = true := by
  obtain ⟨ph, h1, h2, b, h3⟩ := h.frames
  obtain ⟨ph', hph, -⟩ := Option.bind_eq_some_iff.mp h3
  have hc : ph.isClosed = true := by
    rcases hm with rfl | rfl <;> simp only [microPhase] at hph <;> split at hph <;> first | assumption | cases hph
  cases ph <;> simp [FramePhase.isClosed] at hc
  exact ⟨_, h1, h2⟩

/-- A run of the rest of a micro-sequence ends in a state with the sequencer's invariant (R12, R103, R110). -/
theorem run_inv {ms : List Micro} {u : State} (h : Before ms u) : SequencerInv (runMicros ms u) := by
  induction ms generalizing u with
  | nil =>
    have hb : u.busOut = none := by
      cases hh : u.busOut with
      | none => rfl
      | some x => obtain ⟨m, hm, -⟩ := h.bus x hh; cases hm
    obtain ⟨ph, h1, h2, h3⟩ := h.frames
    exact ⟨⟨ph, h1, h2, h3⟩, fun _ => ⟨rfl, rfl, hb⟩, fun h => absurd rfl h, h.nlpc, fun b hx => by
      rw [runMicros_nil, show (toIdle u).busOut = u.busOut from rfl, hb] at hx; cases hx⟩
  | cons m ms ih =>
    rw [runMicros_cons]
    split
    · exact Before.paused (u := lookDone u) ⟨h.frames, h.nlpc, h.bus, h.owned⟩ nofun
    have hl : Before (m :: ms) (towardsLook u) := ⟨h.frames, h.nlpc, h.bus, h.owned⟩
    generalize towardsLook u = w at hl
    have hbm : w.busOut = none ∨ transfersByte m = true := by
      cases hh : w.busOut with
      | none => exact .inl rfl
      | some x => obtain ⟨m', hm, ht⟩ := hl.bus x hh; simp at hm; subst hm; exact .inr ht
    rcases micro_cases m w with ⟨hne, r, t, he, hb, htr, -⟩ | ⟨hwt, t, he, hb, htr⟩ | ⟨rfl, t, he, htr, hb⟩ | ⟨rfl, -, t, htr, hb, he⟩
    · simp only [he]
      exact ih (hl.next hne hb htr ((micro_bus m w hbm t).1 he))
    · simp only [he]
      have e0 : ∀ {α : Type} (f : BlockView → α), f t.block = f w.block := fun f => by rw [hb]
      have e1 : t.cfg = w.cfg := e0 BlockView.cfg
      have e2 : t.csn = w.csn := e0 BlockView.csn
      refine Before.paused (u := t) ⟨by rw [e1, e2, htr]; exact hl.frames, by rw [show t.nlpc = w.nlpc from e0 BlockView.nlpc]; exact hl.nlpc,
        fun b hx => ⟨m, rfl, ?_⟩, by rw [show t.seq = w.seq from e0 BlockView.seq]; exact hl.owned⟩ nofun
      rcases (micro_bus m w hbm t).2.2 he with h | h
      · rw [h] at hx; cases hx
      · exact h
    · simp only [he]
      obtain ⟨c, h1, h2⟩ := hl.closed (.inl rfl)
      have e0 : ∀ {α : Type} (f : BlockView → α), f t.block = f w.block := fun f => by rw [hb]
      have e1 : t.cfg = w.cfg := e0 BlockView.cfg
      rw [← e1]
      exact (before_sound (sound_poll t.cfg) (by rw [e1, htr]; exact h1) ((e0 BlockView.csn).trans h2) rfl
        ((micro_bus _ w hbm t).2.1 _ he) (by rw [show t.seq = w.seq from e0 BlockView.seq]; exact hl.owned)).paused nofun
    · simp only [he]
      obtain ⟨c, h1, h2⟩ := hl.closed (.inr rfl)
      have e0 : ∀ {α : Type} (f : BlockView → α), f t.block = f { w.block with pollcnt := w.pollcnt + 1, upc := w.upc + 1 } := fun f => by rw [hb]
      have e1 : t.cfg = w.cfg := e0 BlockView.cfg
      have hx : ∀ target, Sound t.cfg.tSettle target → nlpcAtEnd t.nlpc target = .check → SequencerInv { t with todo := target } :=
        fun target hs hn => (before_sound hs (by rw [e1, htr]; exact h1) ((e0 BlockView.csn).trans h2) hn
          ((micro_bus _ w hbm t).2.1 _ he) (by rw [show t.seq = w.seq from e0 BlockView.seq]; exact hl.owned)).paused hs.pos
      split
      · exact hx _ (sound_timeout _) rfl
      · rw [← e1]; exact hx _ (sound_poll _) rfl

/-- A sound micro-sequence started between frames ends in a state with the sequencer's invariant. -/
theorem start_inv {ms : List Micro} {u : State} (hi : SequencerInv u) (hu : u.seq = .idle) {v : State}
    (hs : Sound u.cfg.tSettle ms) (hc : v.cfg = u.cfg) (ht : v.trace = u.trace) (hn : v.nlpc = u.nlpc) (hb : v.busOut = u.busOut)
    (hcs : v.csn = u.csn) (hv : v.seq ≠ .idle) : SequencerInv (runMicros ms v) := by
  obtain ⟨⟨ph, h1, h2, b, h3⟩, hi1, -, hi3, -⟩ := hi
  obtain ⟨e1, -, e2⟩ := hi1 hu
  rw [e1] at h3 hi3
  simp only [programPhase, Option.some.injEq] at h3; subst h3
  refine run_inv (before_sound (c := b) (by rw [hc]; exact hs) (by rw [hc, ht]; exact h1) (hcs.trans h2) ?_ (hb.trans e2) hv)
  rw [hn, show u.nlpc = .check from hi3]; exact hs.nlpc

end Sys2Proof.Machine
end

