-- ==== Sys2Proof/Laws/Stores.lean ====
section
/-! SUPPORT. Which bytes of the peer's registers a run of micro-operations can change: `runList_stores` says that every other byte
reads as before, completed or not. -/

namespace Sys2Proof.Machine

/-- The cells that the k-th transfer after a frame's command byte can change (R59). -/
def cellsOf (p : Params) (cmd : Option WireCmd) (k : Nat) : List Nat :=
  match cmd with
  | some (.writeReg a) => if a = p.regStatus ∧ k = 1 then [] else if k ≤ 5 then [regCell a (k - 1)] else []
  | some (.readReg _) => []
  | some .readRxPayload => []
  | some .writeTxPayload => []
  | some .flushTx => []
  | some .flushRx => []
  | some .nop => []
  | none => []

/-- The cells that a list of micro-operations can change, from the place in a frame: none outside one, else the
frame's command and the transfers since it opened. Outside a frame a transfer counts as changing any cell. -/
def storedCells (p : Params) : Option (Option WireCmd × Nat) → List Micro → List Nat
  | _, [] => []
  | _, .csn false :: ms => storedCells p (some (none, 0)) ms
  | _, .csn true :: ms => storedCells p none ms
  | none, .send _ :: ms => List.range memSize ++ storedCells p none ms
  | none, .sendRmw _ _ :: ms => List.range memSize ++ storedCells p none ms
  | some (_, 0), .send b :: ms => storedCells p (some (decodeWireCmd p b, 1)) ms
  | some (_, 0), .sendRmw _ _ :: ms => List.range memSize ++ storedCells p none ms
  | some (cmd, k + 1), .send _ :: ms => cellsOf p cmd (k + 1) ++ storedCells p (some (cmd, k + 2)) ms
  | some (cmd, k + 1), .sendRmw _ _ :: ms => cellsOf p cmd (k + 1) ++ storedCells p (some (cmd, k + 2)) ms
  | fr, .wait _ :: ms => storedCells p fr ms
  | fr, .ce _ :: ms => storedCells p fr ms
  | fr, .resultTmp :: ms => storedCells p fr ms
  | fr, .resultSending :: ms => storedCells p fr ms
  | fr, .setMode _ :: ms => storedCells p fr ms
  | fr, .setIrqEn _ :: ms => storedCells p fr ms
  | fr, .clearCount :: ms => storedCells p fr ms
  | fr, .setAbuf _ _ :: ms => storedCells p fr ms
  | fr, .setTxbuf _ _ :: ms => storedCells p fr ms
  | fr, .raise _ :: ms => storedCells p fr ms
  | fr, .storeRx _ :: ms => storedCells p fr ms
  | fr, .echo :: ms => storedCells p fr ms
  | fr, .count :: ms => storedCells p fr ms
  | fr, .storeTmp :: ms => storedCells p fr ms
  | fr, .setRunning _ :: ms => storedCells p fr ms
  | fr, .setNlpc _ :: ms => storedCells p fr ms
  | fr, .clearPolls :: ms => storedCells p fr ms
  | fr, .poll :: ms => storedCells p fr ms
  | fr, .pollTest :: ms => storedCells p fr ms

/-- The reference peer stands at a known place in a frame. -/
def AtPlace (fr : Option (Option WireCmd × Nat)) (q : Peer) : Prop :=
  ∀ cmd k, fr = some (cmd, k) → q.kind = .reference → q.idx = k ∧ (k ≠ 0 → q.cmd = cmd)

/-- Time passing changes neither the peer's registers nor its place in a frame (R61). -/
theorem elapse_peer (s : State) : (elapse s).peer.kind = s.peer.kind ∧ (elapse s).peer.mem = s.peer.mem
    ∧ (elapse s).peer.idx = s.peer.idx ∧ (elapse s).peer.cmd = s.peer.cmd := by
  unfold elapse
  split
  · exact ⟨rfl, rfl, rfl, rfl⟩
  · rename_i m rest _
    cases m with
    | quiet => exact ⟨rfl, rfl, rfl, rfl⟩
    | irq => exact ⟨rfl, rfl, rfl, rfl⟩
    | deliver pl =>
      simp only [applyEnv, sample_peer, Peer.deliver]
      split
      · exact ⟨rfl, rfl, rfl, rfl⟩
      · split <;> exact ⟨rfl, rfl, rfl, rfl⟩
    | sendDone ok =>
      simp only [applyEnv, sample_peer, Peer.sendDone]
      split
      · exact ⟨rfl, rfl, rfl, rfl⟩
      · split
        · split <;> exact ⟨rfl, rfl, rfl, rfl⟩
        · exact ⟨rfl, rfl, rfl, rfl⟩

/-- Time passing keeps the peer's place in a frame. -/
theorem elapse_place {fr : Option (Option WireCmd × Nat)} {s : State} (h : AtPlace fr s.peer) : AtPlace fr (elapse s).peer := by
  obtain ⟨h1, -, h3, h4⟩ := elapse_peer s
  intro cmd k hf hk
  rw [h3, h4]; exact h cmd k hf (h1 ▸ hk)

/-- An edge of CSN closes or opens the frame and changes no register (R57, R60). -/
theorem onCsn_place (level : Bool) (q : Peer) : AtPlace (some (none, 0)) (q.onCsn level) ∧ (q.onCsn level).mem = q.mem := by
  have hc : ∀ x : Peer, AtPlace (some (none, 0)) x.closed := by
    intro x cmd k hf _
    simp only [Option.some.injEq, Prod.mk.injEq] at hf
    obtain ⟨-, rfl⟩ := hf
    exact ⟨rfl, fun h => absurd rfl h⟩
  have ho : ∀ x : Peer, x.kind = .oracle → AtPlace (some (none, 0)) x := by
    intro x h _ _ _ hk; rw [h] at hk; cases hk
  unfold Peer.onCsn
  split
  · rename_i hk; exact ⟨ho _ hk, rfl⟩
  · split
    · exact ⟨hc _, rfl⟩
    · split
      · split
        · split
          · exact ⟨hc _, rfl⟩
          · exact ⟨ho _ rfl, rfl⟩
        · exact ⟨ho _ rfl, rfl⟩
      · exact ⟨hc { q with rxf := q.rxf.tail }, rfl⟩
      all_goals exact ⟨hc q, rfl⟩

/-- What a transfer changes of the peer's registers, by its place in the frame. -/
theorem transfer_stores (p : Params) (csn : Bool) (b : Byte) (q : Peer) (cmd : Option WireCmd) (k : Nat)
    (h : AtPlace (some (cmd, k)) q) :
    (k = 0 → (q.transfer p csn b).2.mem = q.mem
        ∧ (csn = false → AtPlace (some (decodeWireCmd p b, 1)) (q.transfer p csn b).2))
      ∧ (k ≠ 0 → (∀ a, a ∉ cellsOf p cmd k → Memory.read (q.transfer p csn b).2.mem a = Memory.read q.mem a)
        ∧ (csn = false → AtPlace (some (cmd, k + 1)) (q.transfer p csn b).2)) := by
  unfold Peer.transfer
  split
  · rename_i hk
    refine ⟨fun _ => ⟨rfl, fun _ => ?_⟩, fun _ => ⟨fun _ _ => rfl, fun _ => ?_⟩⟩ <;> (intro _ _ _ hr; rw [hk] at hr; cases hr)
  · rename_i hk
    obtain ⟨hi, hc⟩ := h cmd k rfl hk
    split
    · rename_i hcs
      exact ⟨fun _ => ⟨rfl, fun hn => by rw [hn] at hcs; cases hcs⟩, fun _ => ⟨fun _ _ => rfl, fun hn => by rw [hn] at hcs; cases hcs⟩⟩
    · split
      · rename_i h0
        refine ⟨fun _ => ?_, fun hn => absurd (hi.symm.trans h0) hn⟩
        unfold Peer.command
        simp only
        split <;> refine ⟨rfl, fun _ => ?_⟩ <;> intro c j hf _ <;>
          (simp only [Option.some.injEq, Prod.mk.injEq] at hf; obtain ⟨rfl, rfl⟩ := hf; exact ⟨rfl, fun _ => by simp_all⟩)
      · rename_i h0
        refine ⟨fun hn => absurd (hi.trans hn) h0, fun hn => ⟨?_, fun _ => ?_⟩⟩
        · intro a ha
          rw [← hi, ← hc hn] at ha
          show Memory.read (q.dataEffect p b q.idx).mem a = _
          unfold Peer.dataEffect
          unfold cellsOf at ha
          split
          · rename_i r hr
            rw [hr] at ha
            simp only at ha
            split
            · rfl
            · rename_i hne
              rw [if_neg hne] at ha
              split
              · rename_i h5
                rw [if_pos h5] at ha
                simp only [List.mem_singleton] at ha
                exact read_write_other _ _ ha
              · rfl
          all_goals rfl
        · intro c j hf _
          simp only [Option.some.injEq, Prod.mk.injEq] at hf
          obtain ⟨rfl, rfl⟩ := hf
          refine ⟨by show q.idx + 1 = k + 1; rw [hi], fun _ => ?_⟩
          show (q.dataEffect p b q.idx).cmd = cmd
          rw [← hc hn]
          unfold Peer.dataEffect
          split
          · split
            · rfl
            · split <;> rfl
          all_goals rfl

/-- A run stands at a known place in a frame that is open. -/
def InPlace (fr : Option (Option WireCmd × Nat)) (s : State) : Prop := (fr.isSome = true → s.csn = false) ∧ AtPlace fr s.peer

/-- Outside a frame nothing is said of the place. -/
theorem none_place (s : State) : InPlace none s := by
  refine ⟨fun h => Bool.noConfusion h, ?_⟩
  intro cmd k hf _
  cases hf

/-- Every byte outside the cells reads as before. -/
def Reads (cells : List Nat) (m n : Memory) : Prop := ∀ a, a ∉ cells → Memory.read n a = Memory.read m a

/-- One byte over the bus and the peer: the transfer has been made, or nothing has. -/
theorem xfer_peer_cases (b : Byte) (s : State) :
    (∃ r t, xfer b s = .done r t ∧ t.peer = (s.peer.transfer s.cfg s.csn b).2)
      ∨ ∃ t, xfer b s = .held t ∧ t.peer = s.peer := by
  unfold xfer
  split
  · exact .inl ⟨_, _, rfl, rfl⟩
  · exact .inr ⟨_, rfl, rfl⟩
  · exact .inr ⟨_, rfl, rfl⟩
  · exact .inl ⟨_, _, rfl, rfl⟩

/-- No transfer changes anything outside the register file. -/
theorem transfer_inside (p : Params) (csn : Bool) (b : Byte) (q : Peer) :
    Reads (List.range memSize) q.mem (q.transfer p csn b).2.mem := by
  intro a ha
  have ha : ¬ a < memSize := by simpa using ha
  unfold Peer.transfer
  split
  · rfl
  · split
    · rfl
    · split
      · unfold Peer.command; simp only; split <;> rfl
      · show Memory.read (q.dataEffect p b q.idx).mem a = _
        unfold Peer.dataEffect
        split
        · rename_i r _
          split
          · rfl
          · split
            · have := regCell_lt r (k := q.idx - 1) (by omega)
              exact read_write_other _ _ (by omega)
            · rfl
        all_goals rfl

/-- A rise or fall of CE changes neither the peer's registers nor its place in a frame (R61). -/
theorem onCe_place {p : Params} {level : Bool} {q : Peer} {fr : Option (Option WireCmd × Nat)} (h : AtPlace fr q) :
    AtPlace fr (q.onCe p level) ∧ (q.onCe p level).mem = q.mem := by
  unfold Peer.onCe
  split
  · exact ⟨h, rfl⟩
  · split <;> exact ⟨h, rfl⟩

/-- A micro-operation that touches neither the bus nor a pin of the peer leaves the peer to time alone. -/
theorem micro_peer {m : Micro} {s : State} (ht : transfersByte m = false) (hc : ∀ l, m ≠ .csn l) (he : ∀ l, m ≠ .ce l) :
    (micro m s).state.peer = (elapse s).peer ∧ (micro m s).state.csn = s.csn := by
  have key : ∀ n (f : Flow), (afterMicro n f).state.peer = f.state.peer ∧ (afterMicro n f).state.csn = f.state.csn := by
    intro n f; cases f <;> exact ⟨rfl, rfl⟩
  unfold micro
  rw [(key _ _).1, (key _ _).2, ← elapse_csn s]
  generalize elapse s = u
  cases m
  case send | sendRmw => simp [transfersByte] at ht
  case csn l => exact absurd rfl (hc l)
  case ce l => exact absurd rfl (he l)
  case echo => show (dbgOut u.tmp u).state.peer = _ ∧ (dbgOut u.tmp u).state.csn = _; unfold dbgOut; split <;> exact ⟨rfl, rfl⟩
  case count =>
    show State.peer (if _ then _ else _) = _ ∧ State.csn (if _ then _ else _) = _
    split
    · unfold countUp; split <;> exact ⟨rfl, rfl⟩
    · exact ⟨rfl, rfl⟩
  case pollTest =>
    show (pollTest u).state.peer = _ ∧ (pollTest u).state.csn = _
    unfold pollTest; split <;> exact ⟨rfl, rfl⟩
  all_goals exact ⟨rfl, rfl⟩

/-- A transferring micro-operation and the peer: the transfer has been made and the sequence goes on, or nothing has. -/
theorem micro_transfer_peer {m : Micro} {s : State} (ht : transfersByte m = true) :
    (∃ t, micro m s = .more t ∧ t.csn = s.csn
        ∧ t.peer = ((elapse s).peer.transfer s.cfg s.csn (sentByte s.tmp m)).2)
      ∨ ∃ t, micro m s = .hold t ∧ t.peer = (elapse s).peer := by
  obtain ⟨he, h1, -⟩ := micro_transfer ht s
  have hx := xfer_peer_cases (sentByte s.tmp m) (elapse s)
  have hb := xfer_block (sentByte s.tmp m) (elapse s)
  rw [elapse_cfg, elapse_csn] at hx
  simp only [micro, he, h1, transfer]
  rcases hx with ⟨r, t, h2, h3⟩ | ⟨t, h2, h3⟩ <;> rw [h2] at hb ⊢
  · rcases hb with ⟨r', t', h4, h5, -⟩ | ⟨t', h4, -⟩ <;> cases h4
    exact .inl ⟨_, rfl, (congrArg BlockView.csn h5).trans (elapse_csn s), h3⟩
  · exact .inr ⟨_, rfl, h3⟩

/-- One micro-operation: the bytes it can change, and the place it leaves the frame at. -/
theorem micro_stores (p : Params) (m : Micro) (s : State) (fr : Option (Option WireCmd × Nat)) (ms : List Micro) (hp : s.cfg = p)
    (h : InPlace fr s) : ∃ fr', (∀ a ∈ storedCells p fr' ms, a ∈ storedCells p fr (m :: ms))
      ∧ Reads (storedCells p fr (m :: ms)) s.peer.mem (micro m s).state.peer.mem
      ∧ (∀ t, micro m s = .more t → InPlace fr' t) := by
  subst hp
  obtain ⟨hcs, hpl⟩ := h
  obtain ⟨-, e2, -, -⟩ := elapse_peer s
  have hel := elapse_place hpl
  by_cases ht : transfersByte m = true
  · rcases micro_transfer_peer (s := s) ht with ⟨t, hm, h1, h2⟩ | ⟨t, hm, h2⟩
    · have hmem : (micro m s).state.peer.mem = t.peer.mem := by rw [hm]; rfl
      have hin : Reads (List.range memSize) s.peer.mem (micro m s).state.peer.mem := by
        intro a ha
        rw [hmem, h2, ← e2]
        exact transfer_inside _ _ _ _ a ha
      rcases fr with _ | ⟨cmd, k⟩
      · have hsc : storedCells s.cfg none (m :: ms) = List.range memSize ++ storedCells s.cfg none ms := by
          cases m <;> first | rfl | (simp [transfersByte] at ht; done)
        refine ⟨none, fun a h => by rw [hsc]; exact List.mem_append_right _ h, fun a h => hin a fun h' => h ?_, fun t _ => none_place t⟩
        rw [hsc]; exact List.mem_append_left _ h'
      · have hc : s.csn = false := hcs rfl
        obtain ⟨k0, k1⟩ := transfer_stores s.cfg s.csn (sentByte s.tmp m) (elapse s).peer cmd k hel
        rcases k with _ | k
        · by_cases hrmw : ∃ x y, m = .sendRmw x y
          · obtain ⟨x, y, rfl⟩ := hrmw
            refine ⟨none, fun a h => List.mem_append_right _ h, fun a h => hin a fun h' => h (List.mem_append_left _ h'), fun t _ => none_place t⟩
          · have hsc : storedCells s.cfg (some (cmd, 0)) (m :: ms) = storedCells s.cfg (some (decodeWireCmd s.cfg (sentByte s.tmp m), 1)) ms := by
              cases m <;> first | rfl | (simp [transfersByte] at ht; done) | exact absurd ⟨_, _, rfl⟩ hrmw
            obtain ⟨q1, q2⟩ := k0 rfl
            refine ⟨_, fun a h => by rw [hsc]; exact h, fun a _ => by rw [hmem, h2, q1, e2], ?_⟩
            intro u hu; rw [hm] at hu; injection hu with hu; subst hu
            exact ⟨fun _ => h1.trans hc, by rw [h2]; exact q2 hc⟩
        · have hsc : storedCells s.cfg (some (cmd, k + 1)) (m :: ms) = cellsOf s.cfg cmd (k + 1) ++ storedCells s.cfg (some (cmd, k + 2)) ms := by
            cases m <;> first | rfl | (simp [transfersByte] at ht; done)
          obtain ⟨q1, q2⟩ := k1 (Nat.succ_ne_zero k)
          refine ⟨_, fun a h => by rw [hsc]; exact List.mem_append_right _ h, fun a h => ?_, ?_⟩
          · rw [hmem, h2, q1 a (fun h' => h (by rw [hsc]; exact List.mem_append_left _ h')), e2]
          · intro u hu; rw [hm] at hu; injection hu with hu; subst hu
            exact ⟨fun _ => h1.trans hc, by rw [h2]; exact q2 hc⟩
    · have hmem : (micro m s).state.peer.mem = s.peer.mem := by
        rw [hm]; show t.peer.mem = _; rw [h2, e2]
      have hno : ∀ u, micro m s = .more u → False := by intro u hu; rw [hm] at hu; cases hu
      rcases fr with _ | ⟨cmd, k⟩
      · have hsc : storedCells s.cfg none (m :: ms) = List.range memSize ++ storedCells s.cfg none ms := by
          cases m <;> first | rfl | (simp [transfersByte] at ht; done)
        exact ⟨none, fun a h => by rw [hsc]; exact List.mem_append_right _ h, fun a _ => by rw [hmem], fun u hu => (hno u hu).elim⟩
      · rcases k with _ | k
        · by_cases hrmw : ∃ x y, m = .sendRmw x y
          · obtain ⟨x, y, rfl⟩ := hrmw
            exact ⟨none, fun a h => List.mem_append_right _ h, fun a _ => by rw [hmem], fun u hu => (hno u hu).elim⟩
          · have hsc : storedCells s.cfg (some (cmd, 0)) (m :: ms) = storedCells s.cfg (some (decodeWireCmd s.cfg (sentByte s.tmp m), 1)) ms := by
              cases m <;> first | rfl | (simp [transfersByte] at ht; done) | exact absurd ⟨_, _, rfl⟩ hrmw
            exact ⟨_, fun a h => by rw [hsc]; exact h, fun a _ => by rw [hmem], fun u hu => (hno u hu).elim⟩
        · have hsc : storedCells s.cfg (some (cmd, k + 1)) (m :: ms) = cellsOf s.cfg cmd (k + 1) ++ storedCells s.cfg (some (cmd, k + 2)) ms := by
            cases m <;> first | rfl | (simp [transfersByte] at ht; done)
          exact ⟨_, fun a h => by rw [hsc]; exact List.mem_append_right _ h, fun a _ => by rw [hmem], fun u hu => (hno u hu).elim⟩
  · simp only [Bool.not_eq_true] at ht
    by_cases hc : ∃ l, m = .csn l
    · obtain ⟨l, rfl⟩ := hc
      have hm : micro (.csn l) s = .more (sample { driveCsn l (elapse s) with upc := (driveCsn l (elapse s)).upc + 1 }) := rfl
      obtain ⟨o1, o2⟩ := onCsn_place l (elapse s).peer
      have hmem : (micro (.csn l) s).state.peer.mem = s.peer.mem := by
        rw [hm]; exact o2.trans e2
      cases l
      · refine ⟨some (none, 0), fun a h => h, fun a _ => by rw [hmem], ?_⟩
        intro t htt; rw [hm] at htt; injection htt with htt; subst htt
        exact ⟨fun _ => rfl, o1⟩
      · refine ⟨none, fun a h => h, fun a _ => by rw [hmem], ?_⟩
        intro t _; exact none_place t
    · by_cases he : ∃ l, m = .ce l
      · obtain ⟨l, rfl⟩ := he
        have hm : micro (.ce l) s = .more (sample { driveCe l (elapse s) with upc := (driveCe l (elapse s)).upc + 1 }) := rfl
        obtain ⟨o1, o2⟩ := onCe_place (p := (elapse s).cfg) (level := l) hel
        have hmem : (micro (.ce l) s).state.peer.mem = s.peer.mem := by
          rw [hm]; exact o2.trans e2
        have hsc : storedCells s.cfg fr (.ce l :: ms) = storedCells s.cfg fr ms := by
          rcases fr with _ | ⟨c, k⟩ <;> rfl
        refine ⟨fr, fun a h => by rw [hsc]; exact h, fun a _ => by rw [hmem], ?_⟩
        intro t htt; rw [hm] at htt; injection htt with htt; subst htt
        exact ⟨fun h => (elapse_csn s).trans (hcs h), o1⟩
      · obtain ⟨o1, o2⟩ := micro_peer (s := s) ht (fun l hl => hc ⟨l, hl⟩) (fun l hl => he ⟨l, hl⟩)
        have hsc : storedCells s.cfg fr (m :: ms) = storedCells s.cfg fr ms := by
          rcases fr with _ | ⟨c, k⟩ <;> (try cases k) <;> cases m <;> first | rfl | (simp [transfersByte] at ht; done) | exact absurd ⟨_, rfl⟩ hc
        refine ⟨fr, fun a h => by rw [hsc]; exact h, fun a _ => by rw [o1, e2], ?_⟩
        intro t htt
        rw [htt] at o1 o2
        exact ⟨fun h => (show t.csn = s.csn from o2).trans (hcs h), by rw [show t.peer = _ from o1]; exact hel⟩

/-- A run of micro-operations, completed or not: every byte outside `storedCells` reads as before. -/
theorem runList_stores (p : Params) (ms : List Micro) (s : State) (fr : Option (Option WireCmd × Nat)) (hp : s.cfg = p)
    (h : InPlace fr s) : Reads (storedCells p fr ms) s.peer.mem (runList ms s).state.peer.mem := by
  induction ms generalizing s fr with
  | nil => intro a _; rfl
  | cons m ms ih =>
    simp only [runList]
    split
    · intro a _; rfl
    obtain ⟨fr', h1, h2, h3⟩ := micro_stores p m (towardsLook s) fr ms hp h
    cases hm : micro m (towardsLook s) with
    | hold t => rw [hm] at h2; exact h2
    | jump t target => rw [hm] at h2; exact h2
    | more t =>
      rw [hm] at h2
      have hc : t.cfg = p := by
        rcases micro_cases m (towardsLook s) with ⟨hn, r, u, he, hb, -⟩ | ⟨-, u, he, -⟩ | ⟨-, u, he, -⟩ | ⟨-, -, u, -, -, he⟩ <;>
          rw [hm] at he <;> cases he
        rw [show t.cfg = (viewMicro m r (towardsLook s).block).cfg from congrArg BlockView.cfg hb]
        cases m <;> first | exact hp | (simp only [viewMicro, viewEffect]; split; (split <;> exact hp); exact hp)
      intro a ha
      exact (ih t fr' hc (h3 t hm) a (fun h' => ha (h1 a h'))).trans (h2 a ha)

/-- The end of a sequence changes no register of the peer. -/
theorem toIdle_mem (s : State) : (toIdle s).peer.mem = s.peer.mem := by
  show (s.peer.leftWithCe s.cfg s.ce).mem = _
  unfold Peer.leftWithCe; split <;> rfl

/-- A command, completed or not or not yet accepted. -/
theorem command_stores {op : Byte} {addr : Addr} {val : Byte} {prog : State → List Micro} {s t : State}
    (hx : command op addr val prog s = .next t) :
    Reads (storedCells s.cfg none (prog (accept op addr val s))) s.peer.mem t.peer.mem := by
  unfold command at hx
  split at hx
  · injection hx with hx; subst hx
    have := runList_stores s.cfg (prog (accept op addr val s)) (accept op addr val s) none rfl (none_place _)
    unfold runMicros
    split <;> rename_i h <;> rw [h] at this
    · intro a ha
      rw [toIdle_mem]
      exact this a ha
    · exact this
  · injection hx with hx; subst hx; intro a _; rfl

end Sys2Proof.Machine
end

