-- ==== Sys2Proof/Machine/Assembler.lean ====
section
/-! DEFINITION. Assembler operands (R81) and pseudo-operations (R82). -/

namespace Sys2Proof.Machine

/-- An operation as R81 writes it: its mnemonic and its operands. -/
structure AsmLine where
  mnemonic : String
  operands : List Nat
  deriving DecidableEq, Repr

/-- A number that fits in an address field. -/
def asmAddr (n : Nat) : Option Addr := if n < 32 then some (BitVec.ofNat 5 n) else none

/-- A number that fits in a byte. -/
def asmByte (n : Nat) : Option Byte := if n < 256 then some (BitVec.ofNat 8 n) else none

/-- The operations that take no operand, by mnemonic (R81). -/
def asmPlain : List (String × (Addr → Byte → Instr)) :=
  [("GET_STATUS", .getStatus), ("FLUSH_TX", .flushTx), ("FLUSH_RX", .flushRx), ("RESET_STATUS", .resetStatus),
    ("ENTER_TX", .enterTx), ("ENTER_RX", .enterRx), ("SEND", .send), ("IS_SENDING", .isSending),
    ("CONFIGURE", .configure), ("CE_SET", .ceSet), ("CE_CLR", .ceClr), ("IRQ_ON", .irqOn), ("IRQ_OFF", .irqOff),
    ("CNT_CLR", .cntClr), ("RUN", .run)]

/-- The operations that take an address or index alone (R81). -/
def asmAddrOnly : List (String × (Addr → Byte → Instr)) := [("RDREG", .rdreg), ("WRADDR", .wraddr)]

/-- The operations that take an address or index and a byte (R81). -/
def asmAddrByte : List (String × (Addr → Byte → Instr)) :=
  [("WRREG", .wrreg), ("ABUF_WR", .abufWr), ("TXBUF_WR", .txbufWr)]

/-- The operation a line stands for, unused fields zero (R81). -/
def assemble (l : AsmLine) : Option Instr :=
  match l.operands with
  | [] => (asmPlain.lookup l.mnemonic).map fun mk => mk 0 0
  | [a] => (asmAddrOnly.lookup l.mnemonic).bind fun mk => (asmAddr a).map fun a => mk a 0
  | [a, v] =>
    (asmAddrByte.lookup l.mnemonic).bind fun mk => (asmAddr a).bind fun a => (asmByte v).map fun v => mk a v
  | _ => none

/-- LDADDR b0, ..., b4 (R82). -/
def ldaddr (b : DeviceAddress) : List Instr :=
  [.abufWr 0 b[0], .abufWr 1 b[1], .abufWr 2 b[2], .abufWr 3 b[3], .abufWr 4 b[4]]

/-- LDTX p0, ..., p7 (R82). -/
def ldtx (p : Payload) : List Instr :=
  [.txbufWr 0 p[0], .txbufWr 1 p[1], .txbufWr 2 p[2], .txbufWr 3 p[3],
    .txbufWr 4 p[4], .txbufWr 5 p[5], .txbufWr 6 p[6], .txbufWr 7 p[7]]

/-- WRADDR5 a, b0, ..., b4 (R82). -/
def wraddr5 (a : Addr) (b : DeviceAddress) : List Instr := ldaddr b ++ [.wraddr a 0]

/-- BOOT (R82, R256). -/
def boot : List Instr := [.configure 0 0, .cntClr 0 0, .irqOn 0 0, .run 0 0]

/-- The host's moves that issue a list of operations in order, each after the one before it has completed (R81, R273). -/
def hostProgram (is : List Instr) : List HostMove :=
  is.filterMap fun i =>
    match encode Params.default i with
    | .command w => some (.command w)
    | .wire _ => none

/-- TXCYCLE (R82, R196), as the host's moves: after SEND it issues IS_SENDING, and again until RESULT reads 0x00. -/
def txcycle : List HostMove :=
  hostProgram [.cntClr 0 0, .enterTx 0 0, .send 0 0, .isSending 0 0]
    ++ [.again (commandWord codeIsSending 0 0)]
    ++ hostProgram [.resetStatus 0 0, .enterRx 0 0, .ceSet 0 0, .irqOn 0 0]

end Sys2Proof.Machine
end

