-- ==== Sys2Proof/Tests/Slice0.lean ====
section
/-! SUPPORT. Tests: ill-formed terms, the spec's encodings (R70, R71, R76), its vectors T10 to T50, P1 and P2, and a state that
meets the hypotheses of each statement. Expected values are the spec's own. -/

namespace Sys2Proof.Tests

open Sys2Proof Sys2Proof.Machine

/-! ## Well-formedness (R6, R74): one ill-formed term for each check -/

theorem test_abuf_index : (Instr.abufWr 4 0).wellFormed = true ∧ (Instr.abufWr 5 0).wellFormed = false := by decide

theorem test_txbuf_index : (Instr.txbufWr 7 0).wellFormed = true ∧ (Instr.txbufWr 8 0).wellFormed = false := by decide

theorem test_default_config : Params.default.wellFormed = true := by decide

theorem test_opcodes_distinct :
    { Params.default with opcFlushRx := 0xE1 }.opcodesDistinct = false
      ∧ { Params.default with opcFlushRx := 0xE1 }.wellFormed = false := by decide

theorem test_register_opcodes_clear :
    { Params.default with opcWRegister := 0x21 }.registerOpcodesClear = false
      ∧ { Params.default with opcRRegister := 0x10 }.registerOpcodesClear = false
      ∧ { Params.default with opcWRegister := 0x21 }.wellFormed = false := by decide

theorem test_addresses_distinct :
    { Params.default with regTxAddr := 0x11 }.addressesDistinct = false
      ∧ { Params.default with regTxAddr := 0x11 }.wellFormed = false := by decide

theorem test_masks_one_bit :
    { Params.default with mRxDr := 0x60 }.masksOneBit = false ∧ { Params.default with mPwrUp := 0 }.masksOneBit = false
      ∧ { Params.default with mPwrUp := 0 }.wellFormed = false := by decide

theorem test_times_in_bounds :
    { Params.default with tCePulse := 9 }.timesInBounds = false ∧ { Params.default with tCePulse := 4001 }.timesInBounds = false
      ∧ { Params.default with tPrePulse := 9 }.timesInBounds = false
      ∧ { Params.default with tSettle := 9 }.timesInBounds = false
      ∧ { Params.default with tSettle := 25 }.wellFormed = true := by decide

/-! ## Decoding: the words of T10 to T45 and the bytes of R76, written out -/

theorem test_decode_register_access :
    decodeTableWord 24 0x010700 = some (.rdreg 0x07 0x00) ∧ decodeTableWord 24 0x020569 = some (.wrreg 0x05 0x69)
      ∧ decodeTableWord 24 0x021FFF = some (.wrreg 0x1F 0xFF) ∧ decodeTableWord 24 0x031000 = some (.wraddr 0x10 0x00) := by
  decide

theorem test_decode_transceiver_control :
    decodeTableWord 24 0x040000 = some (.getStatus 0 0) ∧ decodeTableWord 24 0x050000 = some (.flushTx 0 0)
      ∧ decodeTableWord 24 0x060000 = some (.flushRx 0 0) ∧ decodeTableWord 24 0x070000 = some (.resetStatus 0 0)
      ∧ decodeTableWord 24 0x080000 = some (.enterTx 0 0) ∧ decodeTableWord 24 0x090000 = some (.enterRx 0 0)
      ∧ decodeTableWord 24 0x0A0000 = some (.send 0 0) ∧ decodeTableWord 24 0x0B0000 = some (.isSending 0 0)
      ∧ decodeTableWord 24 0x0C0000 = some (.configure 0 0) := by decide

theorem test_decode_host_control :
    decodeTableWord 24 0x100000 = some (.ceSet 0 0) ∧ decodeTableWord 24 0x110000 = some (.ceClr 0 0)
      ∧ decodeTableWord 24 0x120000 = some (.irqOn 0 0) ∧ decodeTableWord 24 0x130000 = some (.irqOff 0 0)
      ∧ decodeTableWord 24 0x140000 = some (.cntClr 0 0) ∧ decodeTableWord 24 0x150455 = some (.abufWr 4 0x55)
      ∧ decodeTableWord 24 0x160708 = some (.txbufWr 7 0x08) ∧ decodeTableWord 24 0x200000 = some (.run 0 0) := by decide

theorem test_decode_wire_bytes :
    decodeTableWord 8 0b00010101 = some (.wRRegister 0b10101) ∧ decodeTableWord 8 0b00110101 = some (.wWRegister 0b10101)
      ∧ decodeTableWord 8 0b01100001 = some .wRRxPayload ∧ decodeTableWord 8 0b10100000 = some .wWTxPayload
      ∧ decodeTableWord 8 0b11100001 = some .wFlushTx ∧ decodeTableWord 8 0b11100010 = some .wFlushRx
      ∧ decodeTableWord 8 0b11111111 = some .wNop := by decide

/-- R74's reserved codes at the ends of their ranges (T45), and a byte that is no wire command (R78). -/
theorem test_decode_refuses :
    decodeTableWord 24 0x000000 = none ∧ decodeTableWord 24 0x0D0000 = none ∧ decodeTableWord 24 0x0F1234 = none
      ∧ decodeTableWord 24 0x170000 = none ∧ decodeTableWord 24 0x1F0000 = none ∧ decodeTableWord 24 0x210000 = none
      ∧ decodeTableWord 24 0xFF0000 = none ∧ decodeWire Params.default 0x40 = .error (.unknownWire 0x40) := by decide

/-- T14: bits 15:13 are ignored, and val is kept even where RDREG ignores it. -/
theorem test_decode_ignored_bits :
    decodeCommand 0x01E700 = .ok (.rdreg 0x07 0x00) ∧ decodeCommand 0x0107FF = .ok (.rdreg 0x07 0xFF) := by decide

/-- R81: the assembler's operands, and P4's expansion. -/
theorem test_assemble :
    assemble ⟨"WRREG", [0x05, 0x69]⟩ = some (.wrreg 0x05 0x69) ∧ assemble ⟨"RDREG", [0x07]⟩ = some (.rdreg 0x07 0)
      ∧ assemble ⟨"RDREG", [32]⟩ = none ∧ assemble ⟨"SEND", []⟩ = some (.send 0 0)
      ∧ hostProgram (wraddr5 0x0A #v[0xE7, 0xE6, 0xE5, 0xE4, 0xE3]) =
        [.command 0x1500E7, .command 0x1501E6, .command 0x1502E5, .command 0x1503E4, .command 0x1504E3, .command 0x030A00] := by
  decide

/-! ## Small states -/

/-- The reset state with the reference peer of R56: its configuration register and ST as given, its line sampled, and 0x00 for
every byte it leaves unspecified (`_` in the vectors). -/
def bench (config st : Byte) : State :=
  { State.reset with
    peer := { Peer.initial with kind := .reference, mem := Memory.write [] 0 config, st := st }
    answers := List.replicate 40 (.byte 0) }

/-- The reset state with an oracle peer that answers as given. -/
def oracleBench (bytes : List Byte) : State := { State.reset with answers := bytes.map .byte }

/-- The state an outcome gives, if it is a next state. -/
def after : Host.Outcome State Fault Refusal → Option State
  | .next t => some t
  | .fault _ => none
  | .refused _ => none

/-- An outcome is a next state with a property. -/
def gives (o : Host.Outcome State Fault Refusal) (p : State → Bool) : Bool := (after o).any p

theorem of_gives {o : Host.Outcome State Fault Refusal} {p : State → Bool} (h : gives o p = true) :
    ∃ t, o = .next t ∧ p t = true := by
  cases o with
  | next t => exact ⟨t, rfl, by simpa [gives, after] using h⟩
  | fault r => simp [gives, after] at h
  | refused r => simp [gives, after] at h

/-- The state after a list of instructions, each run in the state before it. -/
def execAll : List Instr → State → Option State
  | [], s => some s
  | i :: is, s => (after (exec i s)).bind (execAll is)

/-- A frame summary of 95_test_vectors.md, in full. -/
def frame (transfers : List (Byte × Byte)) : List Event :=
  [.w 10, .csn false, .w 10] ++ transfers.flatMap (fun x => [Event.x x.1 x.2, Event.w 10]) ++ [.csn true]

/-! ## The register access layer -/

/-- T10. -/
theorem test_rdreg :
    gives (exec (.rdreg 0x07 0x00) (bench 0 0)) (fun t =>
      t.trace = [.w 10, .csn false, .w 10, .x 0x07 0x0E, .w 10, .x 0xFF 0x0E, .w 10, .csn true]
        && t.result == 0x0E && t.tmp == 0x0E && t.op == 0x01 && t.argAddr == 0x07 && t.argVal == 0x00) = true := by
  decide +kernel

/-- T16: only byte 0 of a five-byte register is read. -/
theorem test_rdreg_five_byte :
    gives (exec (.rdreg 0x0A 0) { bench 0 0 with
      peer := { (bench 0 0).peer with mem := [(50, 0xE7), (51, 0xE6), (52, 0xE5), (53, 0xE4), (54, 0xE3)] } }) (fun t =>
      t.trace = frame [(0x0A, 0x0E), (0xFF, 0xE7)] && t.result == 0xE7) = true := by decide +kernel

/-- T11. -/
theorem test_wrreg :
    gives (exec (.wrreg 0x05 0x69) (bench 0 0)) (fun t =>
      t.trace = frame [(0x25, 0x0E), (0x69, 0)] && t.result == 0 && t.peer.mem == [(25, 0x69)]) = true := by decide +kernel

/-- T15: the flag written with 1 is cleared, the other stays. -/
theorem test_wrreg_status :
    ((execAll [.wrreg 0x07 0x40, .rdreg 0x07 0] (bench 0 0x60)).any fun t =>
      t.trace = frame [(0x27, 0x6E), (0x40, 0)] ++ frame [(0x07, 0x2E), (0xFF, 0x2E)] && t.result == 0x2E) = true := by
  decide +kernel

/-- T12. -/
theorem test_wraddr :
    gives (exec (.wraddr 0x10 0) { bench 0 0 with abuf := #v[0x11, 0x22, 0x33, 0x44, 0x55] }) (fun t =>
      t.trace = frame [(0x30, 0x0E), (0x11, 0), (0x22, 0), (0x33, 0), (0x44, 0), (0x55, 0)]
        && t.peer.mem == [(80, 0x11), (81, 0x22), (82, 0x33), (83, 0x44), (84, 0x55)]) = true := by decide +kernel

/-! ## Transceiver control -/

/-- T26: the flags stay. -/
theorem test_get_status :
    gives (exec (.getStatus 0 0) (bench 0 0x40)) (fun t =>
      t.trace = frame [(0xFF, 0x4E)] && t.result == 0x4E && t.peer.st == 0x40) = true := by decide +kernel

/-- T27. -/
theorem test_flush_tx :
    gives (exec (.flushTx 0 0)
      { bench 0 0 with peer := { (bench 0 0x40).peer with txf := [#v[1, 2, 3, 4, 5, 6, 7, 8]] } }) (fun t =>
      t.trace = frame [(0xE1, 0x4E)] && t.peer.txf == [] && t.peer.st == 0x40) = true := by decide +kernel

/-- T27. -/
theorem test_flush_rx :
    gives (exec (.flushRx 0 0)
      { bench 0 0 with peer := { (bench 0 0x40).peer with rxf := [#v[1, 2, 3, 4, 5, 6, 7, 8]] } }) (fun t =>
      t.trace = frame [(0xE2, 0x4E)] && t.peer.rxf == [] && t.peer.st == 0x40) = true := by decide +kernel

/-- T28. -/
theorem test_reset_status :
    gives (exec (.resetStatus 0 0) (bench 0 0x20)) (fun t =>
      t.trace = frame [(0x27, 0x2E), (0x70, 0)] && t.peer.st == 0) = true := by decide +kernel

/-- T20. -/
theorem test_enter_tx :
    gives (exec (.enterTx 0 0) { bench 0x0B 0 with mode := .listening, ce := true }) (fun t =>
      t.trace = [.ce false] ++ frame [(0x00, 0x0E), (0xFF, 0x0B)] ++ frame [(0x20, 0x0E), (0x0A, 0)]
          ++ frame [(0x00, 0x0E), (0xFF, 0x0A)] ++ frame [(0x20, 0x0E), (0x0A, 0)] ++ frame [(0xE1, 0x0E)]
          ++ frame [(0x27, 0x0E), (0x70, 0)] ++ frame [(0x00, 0x0E), (0xFF, 0x0A)] ++ frame [(0x20, 0x0E), (0x3A, 0)] ++ [.w 150]
        && t.trace.length == 64 && t.mode == .transmitting && !t.ce && t.csn && t.tmp == 0x0A && t.peer.mem == [(0, 0x3A)]) =
      true := by decide +kernel

/-- T20a: an adversarial peer shows that each round trip uses its own read. -/
theorem test_enter_tx_two_round_trips :
    gives (exec (.enterTx 0 0) (oracleBench [0, 0xFF, 0, 0, 0, 0x00, 0, 0, 0, 0, 0, 0, 0, 0, 0])) (fun t =>
      t.trace[14]? = some (.x 0xFE 0) && t.trace[30]? = some (.x 0x02 0)) = true := by decide +kernel

/-- T21. -/
theorem test_enter_rx :
    gives (exec (.enterRx 0 0) (bench 0x08 0)) (fun t =>
      t.trace = [.ce false] ++ frame [(0x00, 0x0E), (0xFF, 0x08)] ++ frame [(0x20, 0x0E), (0x0B, 0)] ++ frame [(0xE2, 0x0E)]
          ++ frame [(0x27, 0x0E), (0x70, 0)] ++ frame [(0x00, 0x0E), (0xFF, 0x0B)] ++ frame [(0x20, 0x0E), (0x3B, 0)]
          ++ [.ce true, .w 150]
        && t.trace.length == 49 && t.mode == .listening && t.ce && t.tmp == 0x0B && t.peer.mem == [(0, 0x3B)]) = true := by
  decide +kernel

/-- T22. -/
theorem test_send :
    gives (exec (.send 0 0) { bench 0x3A 0 with mode := .transmitting, txbuf := #v[1, 2, 3, 4, 5, 6, 7, 8] }) (fun t =>
      t.trace = frame [(0xE1, 0x0E)]
          ++ frame [(0xA0, 0x0E), (1, 0), (2, 0), (3, 0), (4, 0), (5, 0), (6, 0), (7, 0), (8, 0)]
          ++ [.w 10, .ce true, .w 15, .ce false]
        && t.trace.length == 32 && t.mode == .transmitting && !t.ce && t.peer.txf == [#v[1, 2, 3, 4, 5, 6, 7, 8]]
        && t.peer.pulse) = true := by decide +kernel

/-- T23, T24. -/
theorem test_send_bad_mode :
    gives (exec (.send 0 0) (bench 0 0)) (fun t =>
      t.trace = [] && t.fault == 0x2 && t.seq == .idle && t.op == 0x0A) = true
      ∧ gives (exec (.send 0 0) { bench 0 0 with mode := .listening, ce := true }) (fun t =>
        t.trace = [] && t.fault == 0x2 && t.ce) = true := by decide +kernel

/-- T25. -/
theorem test_is_sending :
    ([(0x0E, 0x01), (0x2E, 0x00), (0x1E, 0x00), (0x3E, 0x00), (0x4E, 0x01), (0x00, 0x01), (0xFF, 0x00)].all
      fun (x : Byte × Byte) => gives (exec (.isSending 0 0) (oracleBench [x.1])) fun t =>
        t.trace = frame [(0xFF, x.1)] && t.result == x.2 && t.tmp == x.1) = true := by decide +kernel

/-- P2: what CONFIGURE leaves in the reference peer. -/
theorem test_configure :
    gives (exec (.configure 0 0) { bench 0x08 0 with
      cfg := { Params.default with
        ownAddr := #v[0xE7, 0xE7, 0xE7, 0xE7, 0xE7], peerAddr := #v[0xC2, 0xC2, 0xC2, 0xC2, 0xC2] } }) (fun t =>
      t.trace.length == 129 && t.mode == .listening && t.ce && !t.irqEn && t.tmp == 0x0B && t.result == 0 && t.fault == 0
        && t.peer.mem == [(0, 0x3B), (10, 0x01), (15, 0x03), (20, 0x2F), (25, 0x69), (30, 0x26),
            (50, 0xE7), (51, 0xE7), (52, 0xE7), (53, 0xE7), (54, 0xE7),
            (80, 0xC2), (81, 0xC2), (82, 0xC2), (83, 0xC2), (84, 0xC2), (85, 0x08)]) = true := by decide +kernel

/-! ## Host control -/

/-- T40. -/
theorem test_chip_enable :
    ((execAll [.ceSet 0 0, .ceSet 0 0, .ceClr 0 0] State.reset).any fun t =>
      t.trace = [.ce true, .ce true, .ce false] && !t.ce && t.mode == .standby) = true := by decide +kernel

/-- T41. -/
theorem test_interrupt_enable :
    gives (exec (.irqOn 0 0) State.reset) (fun t => t.irqEn && obs 0x00 t == 0x08 && t.trace = [] && !t.irqPend) = true
      ∧ gives (exec (.irqOff 0 0) { State.reset with irqPend := true }) (fun t => !t.irqEn && t.irqPend) = true := by
  decide +kernel

/-- T42. -/
theorem test_cnt_clr :
    gives (exec (.cntClr 0 0) { State.reset with rxcnt := 5, fault := 0x4 }) (fun t =>
      t.rxcnt == 0 && t.fault == 0x4 && t.trace = []) = true := by decide +kernel

/-- T43. -/
theorem test_abuf_wr :
    ((execAll [.abufWr 0 0x11, .abufWr 1 0x22, .abufWr 2 0x33, .abufWr 3 0x44, .abufWr 4 0x55] State.reset).any fun t =>
      t.abuf == #v[0x11, 0x22, 0x33, 0x44, 0x55] && t.fault == 0) = true := by decide +kernel

/-- T43. -/
theorem test_abuf_wr_outside :
    ([.abufWr 5 0x66, .abufWr 31 0x00].all fun i => gives (exec i State.reset) fun t =>
      t.fault == 0x1 && t.abuf == #v[0, 0, 0, 0, 0] && t.trace = []) = true := by decide +kernel

/-- T44. -/
theorem test_txbuf_wr :
    gives (exec (.txbufWr 7 0x08) { State.reset with txbuf := #v[1, 2, 3, 4, 5, 6, 7, 0] }) (fun t =>
        t.txbuf == #v[1, 2, 3, 4, 5, 6, 7, 8] && t.fault == 0) = true
      ∧ gives (exec (.txbufWr 8 0x09) { State.reset with txbuf := #v[1, 2, 3, 4, 5, 6, 7, 8] }) (fun t =>
        t.txbuf == #v[1, 2, 3, 4, 5, 6, 7, 8] && t.fault == 0x1) = true := by decide +kernel

/-- T46: STAT under RUN. -/
theorem test_run :
    gives (exec (.run 0 0) { State.reset with mode := .listening, ce := true, irqEn := true }) (fun t =>
      t.running && obs 0x00 t == 0x4D && t.trace = [] && !t.ready) = true := by decide +kernel

/-- T45: each reserved code raises BAD_OP, and a second one leaves FAULT at 0x01. -/
theorem test_reserved :
    ([0x000000, 0x0D0000, 0x0F1234, 0x170000, 0x1F0000, 0x210000, 0xFF0000].all fun (w : CmdWord) =>
      gives (step { State.reset with host := [.command w], fault := 0x1 }) fun t =>
        t.fault == 0x1 && t.trace = [] && t.op == w.op && t.seq == .idle && t.host == []) = true := by decide +kernel

/-! ## The wire command bytes -/

/-- R57, R60: the first byte of a frame at the reference peer. -/
theorem test_wire_first_byte :
    ([(.wRRegister 0x15, 0x15), (.wWRegister 0x15, 0x35), (.wRRxPayload, 0x61), (.wWTxPayload, 0xA0), (.wNop, 0xFF)].all
      fun (x : Instr × Byte) => gives (exec x.1 { bench 0 0x40 with csn := false }) fun t =>
        t.trace = [.x x.2 0x4E] && t.peer.idx == 1) = true := by decide +kernel

/-- A payload. -/
def onePayload : Payload := #v[1, 1, 1, 1, 1, 1, 1, 1]

/-- R60: a flush empties its FIFO at the command byte. -/
theorem test_wire_flushes :
    gives (exec .wFlushTx { bench 0 0 with csn := false, peer := { (bench 0 0).peer with txf := [onePayload], rxf := [onePayload] } })
        (fun t => t.trace = [.x 0xE1 0x0E] && t.peer.txf == [] && t.peer.rxf == [onePayload]) = true
      ∧ gives (exec .wFlushRx { bench 0 0 with csn := false, peer := { (bench 0 0).peer with txf := [onePayload], rxf := [onePayload] } })
        (fun t => t.trace = [.x 0xE2 0x0E] && t.peer.rxf == [] && t.peer.txf == [onePayload]) = true := by decide +kernel

/-! ## Steps: the interrupt, the Node Loop, reset, the observation map -/

/-- T30's start, with a given payload and count: an enabled interrupt is pending and the reference peer holds one payload. -/
def received (pl : Payload) (count : Counter) : State :=
  { bench 0x3B 0x40 with
    mode := .listening, ce := true, irqEn := true, irqPend := true, irqPrev := false, rxcnt := count
    peer := { (bench 0x3B 0x40).peer with rxf := [pl] } }

/-- T30, S4. -/
theorem test_capture :
    gives (step (received #v[0xAA, 0xAA, 0x01, 0xAA, 0x02, 0x03, 0xAA, 0xAA] 0)) (fun t =>
      t.rxcnt == 5 && t.rxbuf == #v[0xAA, 0xAA, 0x01, 0xAA, 0x02, 0x03, 0xAA, 0xAA] && !t.irqEn && !t.irqPend && !t.ce && t.csn
        && t.mode == .listening && t.tmp == 0xAA && t.fault == 0 && t.trace.length == 39 && t.peer.rxf == [] && t.peer.st == 0
        && t.irqPrev
        && t.trace.take 9 == [.ce false, .w 10, .csn false, .w 10, .x 0x61 0x4E, .w 10, .x 0xFF 0xAA, .w 10, .d 0xAA]
        && t.trace.drop 31 == frame [(0x27, 0x4E), (0x40, 0)]) = true := by decide +kernel

/-- T32: the fourth sentinel from RXCNT = 5 overruns. -/
theorem test_capture_overrun :
    gives (step (received #v[0xAA, 0xAA, 0xAA, 0xAA, 0xAA, 0x00, 0x00, 0x00] 5)) (fun t =>
      t.rxcnt == 8 && t.fault == 0x4 && t.trace.length == 39 && t.peer.st == 0) = true := by decide +kernel

/-- T34: the capture goes before a waiting command. -/
theorem test_priority :
    gives (step { received onePayload 0 with host := [.command 0x010700] }) (fun t =>
      t.host == [.command 0x010700] && t.trace.length == 39 && t.ready) = true := by decide +kernel

/-- T37: the debug channel never takes the third byte. -/
theorem test_stuck_debug_channel :
    gives (step { received #v[0xAA, 0xAA, 0x01, 0xAA, 0x02, 0x03, 0xAA, 0xAA] 0 with dbg := [.ready, .ready, .never] }) (fun t =>
      t.trace.length == 14 && t.trace.drop 12 == [.x 0xFF 0x01, .w 10] && t.rxbuf[2] == 0x01 && t.seq == .handler && !t.csn
        && !t.ce && !t.irqEn && t.rxcnt == 2) = true := by decide +kernel

/-- T5: the second transfer never completes. -/
theorem test_stuck_transfer :
    gives (step { State.reset with host := [.command 0x010500], answers := [.byte 0x0E, .never] }) (fun t =>
      t.trace = [.w 10, .csn false, .w 10, .x 0x05 0x0E, .w 10] && t.seq == .op && !t.csn && t.result == 0 && t.fault == 0
        && t.busOut == some 0xFF) = true := by decide +kernel

/-- The Node Loop inside its cycle, about to poll. -/
def polling (polls : Nat) (limit : Option Nat) (status : Byte) : State :=
  { oracleBench (status :: List.replicate 13 0) with
    cfg := { Params.default with maxPoll := limit }, seq := .op, running := true, nlpc := .poll, pollcnt := polls
    mode := .transmitting, todo := pollProgram Params.default }

/-- T47: the third poll with MAX_POLL = 3. -/
theorem test_poll_timeout :
    (((after (step (polling 2 (some 3) 0x0E))).bind fun t => after (step t)).any fun t =>
      t.fault == 0x8 && !t.running && t.seq == .idle && t.mode == .transmitting && !t.ce && !t.irqEn && t.nlpc == .check
        && t.pollcnt == 0 && t.trace = frame [(0xFF, 0x0E)]) = true := by decide +kernel

/-- T48: max-retries ends the poll. -/
theorem test_poll_finished :
    gives (step (polling 1 none 0x1E)) (fun t =>
      t.seq == .idle && t.running && t.nlpc == .check && t.pollcnt == 0 && t.mode == .listening && t.ce && t.irqEn
        && t.trace.length == 64) = true := by decide +kernel

/-- T49, T50: the observation map at reset. -/
theorem test_observation_at_reset :
    (List.range 14).map (fun k => obs k State.reset) = [0x00, 0x05, 0, 0, 0, 0, 0, 0, 0, 0, 0, 0, 0, 0] := by decide +kernel

/-- T51: reset in mid-frame. -/
theorem test_reset_in_mid_frame :
    gives (step { bench 0 0 with
      seq := .op, op := 0x03, upc := 9, csn := false, abuf := #v[1, 2, 3, 4, 5], fault := 0xF, host := [.rst] }) (fun t =>
      t.csn && t.abuf == #v[0, 0, 0, 0, 0] && t.fault == 0 && t.trace = [] && t.peer.kind == .oracle && t.host == []) = true := by
  decide +kernel

/-- P3, the cycle's first part: 96 events, RXCNT cleared before them. -/
theorem test_cycle_transmits :
    gives (step { bench 0x3B 0 with running := true, mode := .listening, rxcnt := 8, txbuf := #v[1, 2, 3, 4, 5, 6, 7, 8] }) (fun t =>
      t.trace.length == 96 && t.rxcnt == 0 && t.nlpc == .poll && t.mode == .transmitting && !t.ce && t.peer.pulse
        && t.peer.txf == [#v[1, 2, 3, 4, 5, 6, 7, 8]]) = true := by decide +kernel

/-- T33: an edge while IRQ_EN = 0 is remembered exactly when IRQ_LATCH holds. -/
theorem test_latch :
    gives (step { bench 0x3B 0 with ce := true, env := [.deliver onePayload] }) (fun t =>
        t.irqPend && !t.irqPrev && t.peer.st == 0x40 && obs 0x00 t == 0x10) = true
      ∧ gives (step { bench 0x3B 0 with
        cfg := { Params.default with irqLatch := false }, ce := true, env := [.deliver onePayload] }) (fun t =>
        !t.irqPend && !t.irqPrev && t.peer.st == 0x40) = true := by decide +kernel

/-- R215: an edge in the handler's first moment comes after IRQ_EN <- 0, so without the latch it is lost (R212, R226). -/
theorem test_edge_at_handler_entry :
    ([(false, false), (true, true)].all fun (x : Bool × Bool) =>
      gives (step { oracleBench (List.replicate 11 0) with
        cfg := { Params.default with irqLatch := x.1 }, irqEn := true, irqPend := true, env := [.irq false] }) fun t =>
        t.irqPend == x.2 && !t.irqEn) = true := by decide +kernel

/-- R12, R250, T51: between the two frames of a read-modify-write the host looks and asserts RST: upc is 10 after CE(0), the eight
events of RegRead and the write of TMP. -/
theorem test_reset_between_frames :
    gives (exec (.enterTx 0 0) { bench 0x0B 0 with looks := [10], host := [.rst] }) (fun t =>
      t.upc == 10 && t.seq == .op && t.csn && t.tmp == 0x0B && t.trace = .ce false :: frame [(0x00, 0x0E), (0xFF, 0x0B)]
        && gives (step t) fun u => u.seq == .idle && u.trace = [] && u.upc == 0 && u.peer.kind == .reference && u.todo == []) = true := by
  decide +kernel

/-- R72, R250: a word presented while a transfer never completes waits; RST lifts the wait, and the word is then accepted. -/
theorem test_rst_lifts_the_wait :
    gives (step { State.reset with
      seq := .op, csn := false, todo := [.send 0xFF], answers := [.never], host := [.rstAfter 1, .command 0x120000] }) (fun t =>
        t.host == [.rstAfter 0, .command 0x120000] && t.seq == .op && t.busOut == some 0xFF
          && gives (step t) fun u => u.ready && u.host == [.command 0x120000]
            && gives (step u) fun v => v.irqEn && v.host == [] && v.op == 0x12) = true := by decide +kernel

/-- R222: the debug channel takes the first byte late; it is an event once it is taken, and not twice. -/
theorem test_late_debug_channel :
    gives (step { received onePayload 0 with dbg := [.late] }) (fun t =>
      t.trace.length == 8 && t.seq == .handler && t.todo.head? == some .echo
        && gives (step t) fun u => u.trace.length == 39 && u.trace[8]? == some (.d 0x01) && u.seq == .idle) = true := by
  decide +kernel

/-- R212, T35: an edge in the middle of an operation is remembered. -/
theorem test_edge_inside_an_operation :
    gives (step { oracleBench [0x0E, 0x69] with
      host := [.command 0x010500], env := [.quiet, .quiet, .quiet, .irq false], irqEn := true }) (fun t =>
        t.irqPend && !t.irqPrev && t.result == 0x69 && t.seq == .idle && t.trace.length == 8) = true := by decide +kernel

/-- R82: IS_SENDING is presented until RESULT is 0x00. -/
theorem test_repeat_until_finished :
    (let s := { oracleBench [0x0E, 0x2E, 0x0E] with result := 0x01, host := [.again 0x0B0000] }
     ((after (step s)).bind fun t => (after (step t)).bind fun u => after (step u)).any fun v =>
      v.host == [] && v.answers == [.byte 0x0E] && v.trace = frame [(0xFF, 0x0E)] ++ frame [(0xFF, 0x2E)]) = true := by
  decide +kernel

/-- R263, U12: CE_SET in transmit configuration. -/
theorem test_ce_left_high :
    gives (exec (.ceSet 0 0) (bench 0x02 0)) (fun t => t.peer.kind == .oracle && t.ce) = true
      ∧ gives (exec (.ceSet 0 0) (bench 0x03 0)) (fun t => t.peer == (bench 0x03 0).peer && t.ce) = true := by decide +kernel

/-! ## Hypotheses that are met: a state and operands for each statement that has any -/

theorem default_no_collision : NoCollision Params.default := by unfold NoCollision; decide

theorem bench_completes (config st : Byte) {n : Nat} (h : n ≤ 40) : TransfersComplete n (bench config st) := by
  unfold TransfersComplete bench
  rw [List.take_replicate, Nat.min_eq_left h, List.all_replicate]
  simp [completing]

theorem witness_DecodeOfEncodeIsTheInstruction : Params.default.wellFormed = true ∧ NoCollision Params.default :=
  ⟨by decide, default_no_collision⟩

theorem witness_CommandWordsEncodeBack : decodeCommand 0x01E7FF = .ok (.rdreg 0x07 0xFF) := by decide

/-- Both sides of each end of R74's ranges, and a word with bits 15:13 set. -/
theorem witness_ReservedCodesAreExactlyThose :
    ([0x000000, 0x0D0000, 0x0F0000, 0x170000, 0x1F0000, 0x210000, 0xFF0000].all fun (w : CmdWord) =>
        decodeCommand w = .error (.reservedOp w.op)) = true
      ∧ ([0x010000, 0x0C0000, 0x100000, 0x160000, 0x200000].all fun (w : CmdWord) =>
        decodeCommand w ≠ .error (.reservedOp w.op)) = true
      ∧ (0x010700 : CmdWord) ^^^ ((0b111 : BitVec 3).setWidth 24 <<< 13) = 0x01E700 := by decide

/-- Mid-frame, between two frames of an operation, and with a word waiting. -/
theorem witness_RstGivesTheResetValues :
    (let s := { bench 0x3B 0 with csn := false, seq := .op, upc := 5, host := [.rst, .pause] }
     s.cfg.wellFormed = true ∧ rstDue s = true ∧ s.host = .rst :: [.pause])
      ∧ (let s := { bench 0x3B 0 with seq := .op, upc := 10, host := [.rstAfter 0, .command 0x120000] }
         s.cfg.wellFormed = true ∧ rstDue s = true ∧ s.csn = true ∧ s.host = .rstAfter 0 :: .command 0x120000 :: []) := by decide

theorem witness_StepRunsTheDecodedInstruction :
    (let s := { State.reset with host := [.command 0x020569] }
     s.cfg.wellFormed = true ∧ s.host = .command 0x020569 :: [] ∧ s.ready = true ∧ s.busOut = none
      ∧ decodeCommand 0x020569 = .ok (.wrreg 0x05 0x69))
      ∧ (let s := { State.reset with host := [.pause], busOut := some 0xE1 }
         s.cfg.wellFormed = true ∧ NoRst s ∧ s.seq = .idle ∧ s.busOut = some 0xE1
          ∧ decodeWire s.cfg 0xE1 = .ok .wFlushTx) := by
  refine ⟨by decide, by decide, ?_, by decide, rfl, by decide⟩
  unfold NoRst; decide

/-- Ready, and not ready for each of R72's three reasons, held in a transfer too; a repeated word with RESULT either way, and while the
block is busy; and with RST to come. -/
theorem witness_CommandAcceptedExactlyWhenReady :
    ([(State.reset, true), ({ State.reset with seq := .op, op := 0x01 }, false),
        ({ State.reset with seq := .op, busOut := some 0xFF }, false), ({ State.reset with running := true }, false),
        ({ State.reset with irqEn := true, irqPend := true }, false)].all fun (x : State × Bool) =>
      x.1.cfg.wellFormed && (!(x.1.seq == .idle) || x.1.busOut.isNone) && x.1.ready == x.2) = true
      ∧ { State.reset with result := 1 }.ready = true ∧ State.reset.busy = false ∧ State.reset.result = 0
      ∧ { State.reset with running := true }.busy = true
      ∧ (∀ b ∈ [false, true], let s := { State.reset with running := b, host := [.rstAfter 2, .command 0x010700] }
         s.cfg.wellFormed = true ∧ s.host = .rstAfter (1 + 1) :: .command 0x010700 :: [] ∧ s.busOut = none ∧ s.ready = !b) := by
  decide

theorem witness_ReservedCodeRaisesBadOp :
    let s := { State.reset with host := [.command 0x0F1234] }
    s.cfg.wellFormed = true ∧ s.host = .command 0x0F1234 :: [] ∧ s.ready = true ∧ Unwatched s ∧ s.busOut = none
      ∧ decodeCommand 0x0F1234 = .error (.reservedOp 0x0F) := by decide

theorem witness_StepAlwaysGoesOn :
    State.reset.cfg.wellFormed = true
      ∧ { State.reset with cfg := { Params.default with tCePulse := 4001 } }.cfg.wellFormed = false := by decide

theorem witness_RdregReturnsTheRegister :
    (bench 0 0).ready = true ∧ Unwatched (bench 0 0) ∧ TransfersComplete 2 (bench 0 0) :=
  ⟨by decide, rfl, bench_completes 0 0 (by decide)⟩

theorem witness_WrregSendsTheValue :
    (bench 0 0).ready = true ∧ Unwatched (bench 0 0) ∧ TransfersComplete 2 (bench 0 0) :=
  ⟨by decide, rfl, bench_completes 0 0 (by decide)⟩

theorem witness_WraddrStreamsTheFiveBytes :
    (bench 0 0).ready = true ∧ Unwatched (bench 0 0) ∧ TransfersComplete 6 (bench 0 0) :=
  ⟨by decide, rfl, bench_completes 0 0 (by decide)⟩

theorem witness_RdregReceivesWhatTheOracleAnswers :
    (oracleBench [0x0E, 0xE7, 0x11]).ready = true ∧ Unwatched (oracleBench [0x0E, 0xE7, 0x11])
      ∧ (oracleBench [0x0E, 0xE7, 0x11]).peer.kind = .oracle
      ∧ (oracleBench [0x0E, 0xE7, 0x11]).answers = .byte 0x0E :: .byte 0xE7 :: [.byte 0x11] := by decide

theorem witness_GetStatusReturnsTheStatusByte :
    (bench 0 0).ready = true ∧ Unwatched (bench 0 0) ∧ TransfersComplete 1 (bench 0 0) :=
  ⟨by decide, rfl, bench_completes 0 0 (by decide)⟩

theorem witness_FlushesSendTheirOpcode :
    (bench 0 0).ready = true ∧ Unwatched (bench 0 0) ∧ TransfersComplete 1 (bench 0 0) :=
  ⟨by decide, rfl, bench_completes 0 0 (by decide)⟩

theorem witness_ResetStatusWritesAllFlags :
    (bench 0 0).ready = true ∧ Unwatched (bench 0 0) ∧ TransfersComplete 2 (bench 0 0) :=
  ⟨by decide, rfl, bench_completes 0 0 (by decide)⟩

theorem witness_EnterTxFollowsItsSequence :
    (bench 0x0B 0).ready = true ∧ Unwatched (bench 0x0B 0) ∧ TransfersComplete 15 (bench 0x0B 0) :=
  ⟨by decide, rfl, bench_completes 0x0B 0 (by decide)⟩

theorem witness_EnterRxFollowsItsSequence :
    (bench 0x08 0).ready = true ∧ Unwatched (bench 0x08 0) ∧ TransfersComplete 11 (bench 0x08 0) :=
  ⟨by decide, rfl, bench_completes 0x08 0 (by decide)⟩

/-- A bench in Transmitting mode. -/
def sending (config st : Byte) : State := { bench config st with mode := .transmitting }

theorem witness_SendStreamsThePayload :
    (sending 0x3A 0).ready = true ∧ Unwatched (sending 0x3A 0) ∧ (sending 0x3A 0).mode = .transmitting
      ∧ TransfersComplete 10 (sending 0x3A 0) :=
  ⟨by decide, rfl, rfl, bench_completes 0x3A 0 (by decide)⟩

theorem witness_SendOutsideTransmittingRaisesBadMode :
    State.reset.ready = true ∧ Unwatched State.reset ∧ State.reset.mode ≠ .transmitting
      ∧ { State.reset with mode := .listening }.ready = true ∧ { State.reset with mode := .listening }.mode ≠ .transmitting := by
  decide

/-- A status byte for either value of RESULT, each flag alone among them. -/
theorem witness_IsSendingTestsTheTwoFlags :
    ((bench 0 0).ready = true ∧ Unwatched (bench 0 0) ∧ TransfersComplete 1 (bench 0 0))
      ∧ ((0x4E : Byte) &&& Params.default.mTxDs = 0 ∧ (0x4E : Byte) &&& Params.default.mMaxRt = 0)
      ∧ (0x20 : Byte) &&& Params.default.mTxDs ≠ 0 ∧ (0x10 : Byte) &&& Params.default.mMaxRt ≠ 0 :=
  ⟨⟨by decide, rfl, bench_completes 0 0 (by decide)⟩, by decide⟩

theorem witness_ConfigureWritesTheEightRegisters :
    (bench 0x08 0).ready = true ∧ Unwatched (bench 0x08 0) ∧ TransfersComplete 35 (bench 0x08 0) :=
  ⟨by decide, rfl, bench_completes 0x08 0 (by decide)⟩

theorem witness_ChipEnableOperationsDriveCe :
    State.reset.ready = true ∧ { State.reset with ce := true }.ready = true ∧ Unwatched State.reset := by decide

/-- Ready with an interrupt pending or not, and the premises of the step after IRQ_ON. -/
theorem witness_InterruptOperationsWriteTheEnable :
    State.reset.ready = true ∧ Unwatched State.reset ∧ { State.reset with irqPend := true }.ready = true
      ∧ { State.reset with irqPend := true }.irqPend = true ∧ Unwatched { State.reset with irqPend := true }
      ∧ { State.reset with irqPend := true }.cfg.wellFormed = true ∧ NoRst { State.reset with irqPend := true }
      ∧ { State.reset with irqPend := true }.busOut = none := by
  refine ⟨by decide, rfl, by decide, rfl, rfl, by decide, by unfold NoRst; decide, rfl⟩

theorem witness_CntClrZeroesTheCounter :
    { State.reset with rxcnt := 5, fault := 0x4 }.ready = true ∧ Unwatched { State.reset with rxcnt := 5, fault := 0x4 } := by decide

/-- Ready, with the last index inside ABUF and the first outside. -/
theorem witness_AbufWrWritesOneByte :
    State.reset.ready = true ∧ Unwatched State.reset ∧ (4 : Addr).toNat < 5 ∧ ¬ (5 : Addr).toNat < 5 ∧ ¬ (31 : Addr).toNat < 5 := by decide

/-- Ready, with the last index inside TXBUF and the first outside. -/
theorem witness_TxbufWrWritesOneByte :
    State.reset.ready = true ∧ Unwatched State.reset ∧ (7 : Addr).toNat < 8 ∧ ¬ (8 : Addr).toNat < 8 ∧ ¬ (31 : Addr).toNat < 8 := by decide

theorem witness_RunStartsTheNodeLoop :
    let s := { State.reset with irqEn := true, mode := .listening }
    s.ready = true ∧ Unwatched s := by decide

theorem witness_WireCommandsExchangeTheirByte : TransfersComplete 1 (bench 0 0) := bench_completes 0 0 (by decide)

/-- An open frame at the reference peer, with a payload in each FIFO. -/
def opened : State :=
  { bench 0 0x40 with csn := false, peer := { (bench 0 0x40).peer with txf := [onePayload], rxf := [onePayload] } }

/-- Each of the statement's three cases: the two flushes, and a command that is neither. -/
theorem witness_CommandByteAtTheReferencePeer :
    opened.cfg.wellFormed = true ∧ NoCollision opened.cfg
      ∧ (encode opened.cfg .wFlushTx = .wire 0xE1 ∧ decodeWireCmd opened.cfg 0xE1 = some .flushTx)
      ∧ (encode opened.cfg .wFlushRx = .wire 0xE2 ∧ decodeWireCmd opened.cfg 0xE2 = some .flushRx)
      ∧ (encode opened.cfg (.wWRegister 0x1F) = .wire 0x3F ∧ decodeWireCmd opened.cfg 0x3F = some (.writeReg 0x1F))
      ∧ opened.peer.kind = .reference ∧ opened.csn = false ∧ opened.peer.idx = 0 ∧ TransfersComplete 1 opened :=
  ⟨by decide, default_no_collision, by decide, by decide, by decide, rfl, rfl, rfl, bench_completes 0 0x40 (by decide)⟩

/-- The line falls with the interrupt enabled, with it disabled and edges latched, and with neither, with no word presented and in the
Node Loop; it falls in the middle of an operation, of the handler and of a cycle; a step that enters the handler clears IRQ_PEND; a
step from a state in which nothing falls, under either kind of peer. -/
theorem witness_FallingEdgeSetsPending :
    ([(true, true, false), (false, true, false), (false, false, true)].all fun (x : Bool × Bool × Bool) =>
      let s := { State.reset with
        cfg := { Params.default with irqLatch := x.2.1 }, irqEn := x.1, running := x.2.2, env := [.irq false] }
      s.cfg.wellFormed && !rstDue s && s.seq == .idle && s.busOut.isNone && !s.irqDue && s.nlpc == .check && s.rxcnt == 0
        && presented s == none && s.peer.kind == .oracle && s.env == .irq false :: [] && s.irqPrev) = true
      ∧ ([(Seq.op, [Micro.wait 10, .csn false]), (.handler, [.echo, .count, .csn true]), (.op, pollProgram Params.default)].all
        fun (x : Seq × List Micro) =>
          let s := { State.reset with seq := x.1, todo := x.2, looks := [1], env := [.irq false] }
          s.cfg.wellFormed && !rstDue s && !(s.seq == .idle) && !s.todo.isEmpty && s.looks == 1 :: [] && s.peer.kind == .oracle
            && s.env == .irq false :: [] && s.irqPrev && s.cfg.irqLatch) = true
      ∧ (∃ t, step (received onePayload 0) = .next t ∧ t.irqPend = false) ∧ (received onePayload 0).irqPend = true
      ∧ (let s := { State.reset with env := [.irq true, .quiet] }
         NoFallComing s ∧ s.peer.kind = .oracle ∧ s.irqPend = false ∧ ∃ t, step s = .next t)
      ∧ NoFallComing (bench 0x3B 0) ∧ (bench 0x3B 0).peer.st = 0 ∧ ∃ t, step (bench 0x3B 0) = .next t := by
  refine ⟨by decide, by decide, (of_gives (p := fun t => !t.irqPend) (by decide +kernel)).imp fun _ h => ⟨h.1, by simpa using h.2⟩,
    rfl, ⟨by unfold NoFallComing; decide, rfl, rfl, (of_gives (p := fun _ => true) (by decide +kernel)).imp fun _ h => h.1⟩,
    by unfold NoFallComing; decide, rfl, (of_gives (p := fun _ => true) (by decide +kernel)).imp fun _ h => h.1⟩

theorem witness_DueInterruptGoesFirst :
    let s := { State.reset with running := true, irqEn := true, irqPend := true, host := [.command 0x010700] }
    s.cfg.wellFormed = true ∧ NoRst s ∧ s.seq = .idle ∧ s.busOut = none ∧ s.irqEn = true ∧ s.irqPend = true :=
  ⟨by decide, by unfold NoRst; decide, rfl, rfl, rfl, rfl⟩

/-- RXCNT at the bound and below; the sentinels of T30 and T32, without and with an overrun. -/
theorem witness_CaptureReadsEightBytes :
    (bench 0x3B 0x40).seq = .idle ∧ Unwatched (bench 0x3B 0x40) ∧ (bench 0x3B 0x40).rxcnt.toNat ≤ 8 ∧ TransfersComplete 11 (bench 0x3B 0x40)
      ∧ EchoesComplete 8 (bench 0x3B 0x40) ∧ ({ bench 0x3B 0x40 with rxcnt := 8 }).rxcnt.toNat ≤ 8
      ∧ ¬ 8 < 0 + sentinels (fun k => if k = 3 ∨ k = 5 ∨ k = 6 then 0 else 0xAA)
      ∧ 8 < 5 + sentinels (fun k => if k ≤ 5 then 0xAA else 0)
      ∧ (received onePayload 0).cfg.wellFormed = true ∧ NoFallComing (received onePayload 0) :=
  ⟨rfl, rfl, by decide, bench_completes _ _ (by decide), by unfold EchoesComplete; decide, by decide, by decide, by decide, by decide,
    by unfold NoFallComing; decide⟩

/-- A step from a state with RXCNT at its bound. -/
theorem witness_CounterStaysWithinPayloadLength :
    (received onePayload 8).rxcnt.toNat ≤ 8 ∧ ∃ t, step (received onePayload 8) = .next t :=
  ⟨by decide, (of_gives (p := fun _ => true) (by decide +kernel)).imp fun _ h => h.1⟩

/-- RUN after a full capture, before the cycle. -/
def counted : State := { bench 0x3B 0 with running := true, mode := .listening, rxcnt := 8 }

theorem witness_CycleTransmitsThePayload :
    counted.cfg.wellFormed = true ∧ NoRst counted ∧ counted.seq = .idle ∧ counted.busOut = none ∧ counted.running = true
      ∧ counted.nlpc = .check ∧ counted.irqDue = false ∧ counted.rxcnt = 8 ∧ Unwatched counted
      ∧ TransfersComplete 25 counted :=
  ⟨by decide, by unfold NoRst; decide, rfl, rfl, rfl, rfl, by decide, rfl, rfl, bench_completes 0x3B 0 (by decide)⟩

/-- Still sending with the poll not the last, the last, and with polls unbounded; then `timeout:`. -/
theorem witness_PollStillSendingCountsOrTimesOut :
    (∀ x ∈ [(1, some 3), (2, some 3), (2, none)],
      let s := polling x.1 x.2 0x0E
      s.cfg.wellFormed = true ∧ NoRst s ∧ s.seq = .op ∧ s.todo = pollProgram s.cfg ∧ Unwatched s ∧ TransfersComplete 1 s)
      ∧ (0x0E : Byte) &&& (Params.default.mTxDs ||| Params.default.mMaxRt) = 0 ∧ ¬ 3 ≤ 1 + 1 ∧ 3 ≤ 2 + 1
      ∧ (let s := { polling 3 (some 3) 0 with todo := timeoutProgram }
         s.cfg.wellFormed = true ∧ NoRst s ∧ s.seq = .op ∧ s.todo = timeoutProgram ∧ Unwatched s) := by
  unfold NoRst TransfersComplete; decide

theorem witness_PollFinishedReturnsToListening :
    (∀ d0 ∈ [(0x2E : Byte), 0x1E],
      let s := polling 1 none d0
      s.cfg.wellFormed = true ∧ NoRst s ∧ s.seq = .op ∧ s.todo = pollProgram s.cfg ∧ Unwatched s ∧ TransfersComplete 14 s
        ∧ d0 &&& (s.cfg.mTxDs ||| s.cfg.mMaxRt) ≠ 0) := by
  unfold NoRst TransfersComplete; decide

/-- Listening (R189), with RXCNT below and above the trigger; and P5's end. -/
theorem witness_NodeLoopIdlesAndDeadEndIsForEver :
    (∀ c ∈ [(0 : Counter), 7, 9],
      let s := { State.reset with running := true, mode := .listening, irqEn := true, rxcnt := c, host := [.command 0x200000] }
      s.cfg.wellFormed = true ∧ NoRst s ∧ s.running = true ∧ s.seq = .idle ∧ s.busOut = none ∧ s.nlpc = .check
        ∧ s.irqDue = false ∧ s.rxcnt.toNat ≠ 8)
      ∧ (let s := { State.reset with running := true, mode := .listening, rxcnt := 5, host := [.command 0x200000] }
         s.cfg.wellFormed = true ∧ NoRst s ∧ DeadEnd s) := by
  unfold NoRst DeadEnd; decide

/-- T5, at the second transfer of RDREG. -/
def stuckRead : State :=
  { State.reset with
    seq := .op, upc := 5, op := 0x01, argAddr := 0x05, csn := false, answers := [.never]
    todo := [.send 0xFF, .wait 10, .csn true, .storeTmp, .resultTmp]
    trace := [.w 10, .csn false, .w 10, .x 0x05 0x0E, .w 10] }

theorem witness_WaitsThatNeverEndHoldTheSequencer :
    (stuckRead.cfg.wellFormed = true ∧ NoRst stuckRead ∧ stuckRead.seq ≠ .idle
      ∧ stuckRead.todo = .send 0xFF :: [.wait 10, .csn true, .storeTmp, .resultTmp] ∧ transfersByte (.send 0xFF) = true
      ∧ stuckRead.answers = .never :: [] ∧ Unwatched stuckRead)
      ∧ (let s := { State.reset with seq := .handler, csn := false, todo := [.echo, .count, .csn true], dbg := [.never] }
         s.cfg.wellFormed = true ∧ NoRst s ∧ s.seq ≠ .idle ∧ s.todo = .echo :: [.count, .csn true] ∧ s.dbg = .never :: []) := by
  unfold NoRst; decide

/-- RDREG looked at after its fifth micro-operation, and held by a late second transfer; the handler looked at, held by a late third
transfer and by a late second handshake; each then goes on. -/
theorem witness_HeldSequencesGoOnWhereTheyStopped :
    (let s := bench 0 0
     s.cfg.wellFormed = true ∧ s.ready = true ∧ s.host = [] ∧ Unwatched s ∧ s.answers.all completing = true ∧ s.env = []
      ∧ (∃ u, exec (.rdreg 0x07 0) s = .next u) ∧ ∃ t, exec (.rdreg 0x07 0) { s with looks := [5] } = .next t ∧ t.seq = .op)
      ∧ (let s := { State.reset with answers := [.byte 0x0E] ++ [.byte 0x69] }
         [Answer.byte 0x0E].all completing = true ∧ (∃ u, exec (.rdreg 0x05 0) s = .next u)
          ∧ ∃ t, exec (.rdreg 0x05 0) { s with answers := [.byte 0x0E] ++ .late :: [.byte 0x69] } = .next t ∧ t.seq = .op)
      ∧ (let s := oracleBench (List.replicate 11 0)
         s.cfg.wellFormed = true ∧ s.host = [] ∧ Unwatched s ∧ s.env = [] ∧ s.answers.all completing = true
          ∧ s.dbg.all accepting = true ∧ (capture { s with looks := [9] }).seq = .handler
          ∧ (capture { s with answers := [.byte 0x4E, .byte 0xAA] ++ .late :: s.answers }).seq = .handler
          ∧ (capture { s with dbg := [.ready] ++ .late :: [.ready] }).seq = .handler) := by
  refine ⟨⟨by decide, by decide, rfl, rfl, by decide, rfl,
      (of_gives (p := fun _ => true) (by decide +kernel)).imp fun _ h => h.1,
      (of_gives (p := fun t => t.seq == .op) (by decide +kernel)).imp fun _ h => ⟨h.1, by simpa using h.2⟩⟩,
    ⟨by decide, (of_gives (p := fun _ => true) (by decide +kernel)).imp fun _ h => h.1,
      (of_gives (p := fun t => t.seq == .op) (by decide +kernel)).imp fun _ h => ⟨h.1, by simpa using h.2⟩⟩,
    by decide, rfl, rfl, rfl, by decide, rfl, by decide +kernel, by decide +kernel, by decide +kernel⟩

/-- The invariant holds in the middle of a frame, and a step follows. -/
theorem witness_StepKeepsSequencerInvariant : SequencerInv stuckRead ∧ ∃ t, step stuckRead = .next t :=
  ⟨⟨⟨.opened true, by decide, by decide, false, by decide⟩, by decide, by decide, by decide, fun _ _ => ⟨.send 0xFF, rfl, rfl⟩⟩,
    (of_gives (p := fun _ => true) (by decide +kernel)).imp fun _ h => h.1⟩

/-- A reference peer with registers written, a full RX FIFO and flags set. -/
theorem witness_StepKeepsPeerInvariant :
    let s := { bench 0x3B 0x70 with peer := { (bench 0x3B 0x70).peer with rxf := [onePayload, onePayload, onePayload] } }
    PeerInv s ∧ ∃ t, step s = .next t := by
  refine ⟨by unfold PeerInv; decide, ?_⟩
  exact (of_gives (p := fun _ => true) (by decide +kernel)).imp fun _ h => h.1

theorem witness_FaultFlagsAreSticky :
    let s := { State.reset with fault := 0xF }
    NoRst s ∧ s.fault &&& faultBit .pollTimeout ≠ 0 ∧ ∃ t, step s = .next t :=
  ⟨by unfold NoRst; decide, by decide, (of_gives (p := fun _ => true) (by decide +kernel)).imp fun _ h => h.1⟩

theorem witness_ConfigurationNeverChanges : ∃ t, step State.reset = .next t :=
  (of_gives (p := fun _ => true) (by decide +kernel)).imp fun _ h => h.1

/-- CE_SET meets the premise of every clause. -/
theorem witness_OnlyTheirInstructionsWriteRegisters : ∃ t, exec (.ceSet 0 0) State.reset = .next t :=
  (of_gives (p := fun _ => true) (by decide +kernel)).imp fun _ h => h.1

/-- A command and a wire byte at a frame's start. -/
theorem witness_NonStoringInstructionsKeepPeerMemory :
    (bench 0x3B 0).cfg.wellFormed = true ∧ (∃ t, exec (.enterTx 0 0) (bench 0x3B 0) = .next t)
      ∧ (∃ t, exec (.getStatus 0 0) (bench 0x3B 0) = .next t)
      ∧ (∃ t, exec .wWTxPayload opened = .next t) ∧ opened.peer.idx = 0 :=
  ⟨by decide, (of_gives (p := fun _ => true) (by decide +kernel)).imp fun _ h => h.1,
    (of_gives (p := fun _ => true) (by decide +kernel)).imp fun _ h => h.1,
    (of_gives (p := fun _ => true) (by decide +kernel)).imp fun _ h => h.1, rfl⟩

theorem witness_StoringInstructionsKeepOtherPeerMemory :
    (bench 0x3B 0).cfg.wellFormed = true ∧ (∃ t, exec (.wrreg 0x1F 1) (bench 0x3B 0) = .next t)
      ∧ (∃ t, exec (.wraddr 0x1F 1) (bench 0x3B 0) = .next t) ∧ (∃ t, exec (.enterTx 0 0) (bench 0x3B 0) = .next t)
      ∧ (∃ t, exec (.enterRx 0 0) (bench 0x3B 0) = .next t) ∧ (∃ t, exec (.configure 0 0) (bench 0x3B 0) = .next t) :=
  ⟨by decide, (of_gives (p := fun _ => true) (by decide +kernel)).imp fun _ h => h.1,
    (of_gives (p := fun _ => true) (by decide +kernel)).imp fun _ h => h.1,
    (of_gives (p := fun _ => true) (by decide +kernel)).imp fun _ h => h.1,
    (of_gives (p := fun _ => true) (by decide +kernel)).imp fun _ h => h.1,
    (of_gives (p := fun _ => true) (by decide +kernel)).imp fun _ h => h.1⟩

/-- P1, and CE high in receive configuration. -/
theorem witness_WrittenRegisterReadsBack :
    ((bench 0 0).cfg.wellFormed = true ∧ NoCollision (bench 0 0).cfg ∧ (0x05 : Addr) ≠ (bench 0 0).cfg.regStatus
      ∧ Memory.wf (bench 0 0).peer.mem = true ∧ (bench 0 0).peer.kind = .reference ∧ (bench 0 0).env = []
      ∧ (bench 0 0).ready = true ∧ Unwatched (bench 0 0) ∧ TransfersComplete 4 (bench 0 0) ∧ (bench 0 0).ce = false
      ∧ ∃ t, exec (.wrreg 0x05 0x69) (bench 0 0) = .next t ∧ t.ready = true)
      ∧ { bench 0x3B 0 with ce := true }.peer.transmits Params.default = false
      ∧ (0x3B : Byte) &&& Params.default.mPrimRx ≠ 0 :=
  ⟨⟨by decide, default_no_collision, by decide, by decide, rfl, rfl, by decide, rfl, bench_completes 0 0 (by decide), rfl,
    of_gives (p := State.ready) (by decide +kernel)⟩, by decide, by decide⟩

/-- P4's and P2's starts. -/
theorem witness_WraddrAndConfigureStoreTheirValues :
    (bench 0x08 0).cfg.wellFormed = true ∧ NoCollision (bench 0x08 0).cfg ∧ (bench 0x08 0).peer.kind = .reference
      ∧ Memory.wf (bench 0x08 0).peer.mem = true ∧ (bench 0x08 0).env = [] ∧ (bench 0x08 0).ready = true ∧ Unwatched (bench 0x08 0)
      ∧ (0x0A : Addr) ≠ (bench 0x08 0).cfg.regStatus ∧ TransfersComplete 6 (bench 0x08 0) ∧ TransfersComplete 35 (bench 0x08 0) :=
  ⟨by decide, default_no_collision, rfl, by decide, rfl, by decide, rfl, by decide, bench_completes 0x08 0 (by decide),
    bench_completes 0x08 0 (by decide)⟩

/-- ST with flags set; its low bits outside M_ST_ALL. -/
theorem witness_StatusAndFlushesAtTheReferencePeer :
    (bench 0 0x60).cfg.wellFormed = true ∧ NoCollision (bench 0 0x60).cfg ∧ (bench 0 0x60).peer.kind = .reference
      ∧ (bench 0 0x60).env = [] ∧ (bench 0 0x60).ready = true ∧ Unwatched (bench 0 0x60)
      ∧ TransfersComplete 2 (bench 0 0x60)
      ∧ (bench 0 0x60).peer.stLow &&& ((bench 0 0x60).cfg.mRxDr ||| (bench 0 0x60).cfg.mTxDs ||| (bench 0 0x60).cfg.mMaxRt) = 0 :=
  ⟨by decide, default_no_collision, rfl, rfl, by decide, rfl, bench_completes 0 0x60 (by decide), by decide⟩

theorem witness_SendLoadsTheTransmitFifo :
    (sending 0x3A 0).cfg.wellFormed = true ∧ (sending 0x3A 0).peer.kind = .reference ∧ (sending 0x3A 0).env = []
      ∧ (sending 0x3A 0).ready = true ∧ Unwatched (sending 0x3A 0) ∧ (sending 0x3A 0).mode = .transmitting
      ∧ TransfersComplete 10 (sending 0x3A 0) :=
  ⟨by decide, rfl, rfl, by decide, rfl, rfl, bench_completes 0x3A 0 (by decide)⟩

theorem witness_CaptureTakesTheOldestPayload :
    let s := received onePayload 0
    s.cfg.wellFormed = true ∧ NoCollision s.cfg ∧ s.peer.kind = .reference ∧ s.env = [] ∧ s.seq = .idle ∧ Unwatched s
      ∧ s.peer.rxf = onePayload :: [] ∧ TransfersComplete 11 s ∧ EchoesComplete 8 s :=
  ⟨by decide, default_no_collision, rfl, rfl, rfl, rfl, rfl, bench_completes 0x3B 0x40 (by decide), by unfold EchoesComplete; decide⟩

theorem witness_EnterTxConfiguresTheReferencePeer :
    (bench 0x0B 0).cfg.wellFormed = true ∧ NoCollision (bench 0x0B 0).cfg ∧ (bench 0x0B 0).peer.kind = .reference
      ∧ Memory.wf (bench 0x0B 0).peer.mem = true ∧ (bench 0x0B 0).env = [] ∧ (bench 0x0B 0).ready = true ∧ Unwatched (bench 0x0B 0)
      ∧ TransfersComplete 15 (bench 0x0B 0) :=
  ⟨by decide, default_no_collision, rfl, by decide, rfl, by decide, rfl, bench_completes 0x0B 0 (by decide)⟩

/-- T21, T21b. -/
theorem witness_EnterRxIsIdempotent :
    (bench 0x08 0).cfg.wellFormed = true ∧ NoCollision (bench 0x08 0).cfg ∧ (bench 0x08 0).peer.kind = .reference
      ∧ Memory.wf (bench 0x08 0).peer.mem = true ∧ (bench 0x08 0).env = [] ∧ (bench 0x08 0).ready = true ∧ Unwatched (bench 0x08 0)
      ∧ TransfersComplete 22 (bench 0x08 0) ∧ ∃ t, exec (.enterRx 0 0) (bench 0x08 0) = .next t ∧ t.ready = true :=
  ⟨by decide, default_no_collision, rfl, by decide, rfl, by decide, rfl, bench_completes 0x08 0 (by decide),
    of_gives (p := State.ready) (by decide +kernel)⟩

/-- Each event enabled, and each not; the line pulled and not. -/
theorem witness_RadioEventsAtTheReferencePeer :
    ([{ bench 0x3B 0 with ce := true, env := [.deliver onePayload] }, { bench 0x3B 0 with env := [.deliver onePayload] },
      { bench 0x02 0 with env := [.sendDone true], peer := { (bench 0x02 0).peer with txf := [onePayload], pulse := true } },
      { bench 0x02 0 with env := [.sendDone false], peer := { (bench 0x02 0).peer with txf := [onePayload] } },
      { bench 0x7B 0x40 with env := [.quiet] }, { bench 0x3B 0x40 with env := [.quiet] }].all fun s =>
      s.cfg.wellFormed && s.host.isEmpty && s.seq == .idle && s.busOut.isNone && !s.running && !s.irqDue
        && s.peer.kind == .reference && s.env.length == 1) = true := by decide

/-- In transmit configuration, powered down, and in receive. -/
theorem witness_CeLeftHighInTransmitFreesThePeer :
    ([(0x02, true), (0x00, false), (0x03, false)].all fun (x : Byte × Bool) =>
      let s := bench x.1 0
      s.peer.kind == .reference && s.env.isEmpty && s.ready && s.looks.isEmpty && s.peer.transmits s.cfg == x.2) = true := by decide

/-- An operation's row, SEND's row, and CAPTURE. -/
theorem witness_EventCountsAreThoseOfTheTable :
    (State.reset.cfg = Params.default ∧ State.reset.answers = [] ∧ State.reset.dbg = [] ∧ State.reset.trace = []
        ∧ Unwatched State.reset)
      ∧ (State.reset.ready = true ∧ (∃ t, exec (.rdreg 0 0) State.reset = .next t)
        ∧ (.rdreg 0 0, 1, 2, 8, 40) ∈ operationCounts State.reset.mode 0 0)
      ∧ (let s := { State.reset with mode := .transmitting }
         s.ready = true ∧ (∃ t, exec (.send 0 0) s = .next t) ∧ (.send 0 0, 2, 10, 32, 165) ∈ operationCounts s.mode 0 0)
      ∧ ∃ t, t = capture State.reset :=
  ⟨⟨rfl, rfl, rfl, rfl, rfl⟩,
    ⟨by decide, (of_gives (p := fun _ => true) (by decide +kernel)).imp fun _ h => h.1, by decide⟩,
    ⟨by decide, (of_gives (p := fun _ => true) (by decide +kernel)).imp fun _ h => h.1, by decide⟩, ⟨_, rfl⟩⟩

end Sys2Proof.Tests
end

section
/-! PROOFS of the statements about the scope: a step always goes on (R6, R230), and it leaves the parameters alone (R5, R25). -/

namespace Sys2Proof.Machine

/-! ## Every part of a step has a next state -/

/-- An instruction is a command or an exchange of a wire byte, and neither ends in a fault or a refusal. -/
theorem exec_next (i : Instr) (s : State) : ∃ t, exec i s = .next t := by
  rcases exec_cases i s with ⟨op, addr, val, prog, he, -⟩ | ⟨b, -, he⟩ <;> rw [he]
  · exact command_next op addr val prog s
  · exact exchangeByte_next b s

/-- A presented word is an instruction, or a reserved code, which is a command of its own (R74). -/
theorem acceptWord_next (w : CmdWord) (s : State) : ∃ t, acceptWord w s = .next t := by
  unfold acceptWord
  split
  · exact exec_next _ s
  · exact command_next _ _ _ reservedProgram s

theorem acceptWire_next (b : Byte) (s : State) : ∃ t, acceptWire b s = .next t := by
  unfold acceptWire
  split
  · exact exec_next _ s
  · exact exchangeByte_next b s

/-- Whoever has the idle step goes on: an exchange, the handler, the Node Loop, a word, or nobody (R190, R213). -/
theorem idleStep_next (w : Option CmdWord) (s : State) : ∃ t, idleStep w s = .next t := by
  unfold idleStep
  split
  · exact acceptWire_next _ s
  · split
    · exact ⟨_, rfl⟩
    · split
      · exact ⟨_, rfl⟩
      · split
        · exact acceptWord_next _ _
        · exact ⟨_, rfl⟩

theorem stepBlock_next (w : Option CmdWord) (s : State) : ∃ t, stepBlock w s = .next t := by
  unfold stepBlock
  split
  · exact ⟨_, rfl⟩
  · exact ⟨_, rfl⟩
  · exact idleStep_next w s

/-- A well-formed configuration's step is RST or a step of the block, and each has a next state. -/
theorem step_next {s : State} (hw : s.cfg.wellFormed = true) : ∃ t, step s = .next t := by
  cases hr : rstDue s
  · rw [step_without_rst hw hr]; exact stepBlock_next _ _
  · exact ⟨_, step_rst hw hr⟩

/-- R6, U11 (log entry 16). -/
theorem step_refuses_illFormed {s : State} (hw : s.cfg.wellFormed = false) : step s = .refused .illFormedConfig := by
  simp [step, stepMachine, hw]

/-- Settles O10: each of a step's branches ends in a next state, and the configuration is tested before them all. -/
theorem stepAlwaysGoesOn : Obligations.StepAlwaysGoesOn :=
  fun _ => ⟨step_next, step_refuses_illFormed⟩

/-! ## The parameters -/

/-- No micro-operation writes a parameter (R5). -/
@[simp] theorem viewMicro_cfg (m : Micro) (r : Byte) (v : BlockView) : (viewMicro m r v).cfg = v.cfg := by
  cases m
  case count => simp only [viewMicro, viewEffect]; split <;> [split; skip] <;> rfl
  all_goals rfl

/-- Settles O46: the parameters are a part of the block's view, which neither RST nor any other part of a step writes. -/
theorem configurationNeverChanges : Obligations.ConfigurationNeverChanges := by
  intro s t hx
  refine step_keeps_view (Q := fun v => v.cfg = s.cfg) ?accept ?owner ?handler ?micro ?poll ?byte ?rst rfl hx
  case accept => exact fun _ h _ _ _ => h
  case owner => exact fun _ h _ => h
  case handler => exact fun _ h => h
  case micro => exact fun v h m r => (viewMicro_cfg m r v).trans h
  case poll => exact fun _ h => h
  case byte => exact fun _ h _ => h
  case rst => exact fun _ => rfl

end Sys2Proof.Machine
end

section
/-! PROOFS of the statements about reset (R33, R250) and about the observation map (R27). -/

namespace Sys2Proof.Machine

/-- Settles O5: the reset state's fields as R33 gives them, one by one. -/
theorem resetStateHoldsSpecValues : Obligations.ResetStateHoldsSpecValues :=
  ⟨rfl, rfl, rfl, rfl, rfl, rfl, rfl⟩

/-- RST leaves a peer with no frame open as it was (R251). -/
theorem resetBlock_peer {s : State} (h : s.csn = true) : (resetBlock s).peer = s.peer := by
  simp [resetBlock, h]

/-- IRQ_PREV after RST is the level of the line (R33), whether the peer's frame was cut short or not. -/
theorem resetBlock_irqPrev (s : State) : (resetBlock s).irqPrev = irqLine (resetBlock s) := by
  cases hc : s.csn <;> cases hk : s.peer.kind <;> simp [resetBlock, irqLine, Peer.unconstrained, hc, hk]

/-- RST samples the line and does not move it (R33). -/
theorem resetBlock_samples_line (s : State) : (resetBlock s).irqPrev = irqLine s := rfl

/-- Settles O6: the step is `resetBlock`, and a word behind the RST stays at the head of the host's moves. -/
theorem rstGivesTheResetValues : Obligations.RstGivesTheResetValues := by
  intro s hw hr
  refine ⟨_, step_rst hw hr, rfl, rfl, resetBlock_irqPrev _, rfl, rfl, rfl, rfl, rfl, rfl, rfl, ?_, ?_, ?_⟩
  · intro rest h
    simp [resetBlock, hostAfterRst, movesAfterRst, h]
  · intro w rest h
    have ht : (resetBlock { s with host := hostAfterRst s }).host = .command w :: rest := by
      simp [resetBlock, hostAfterRst, movesAfterRst, h]
    exact ⟨ht, by simp [presented, presentedBy, ht]⟩
  · intro hc
    have hp : (resetBlock { s with host := hostAfterRst s }).peer = s.peer := resetBlock_peer hc
    exact ⟨congrArg Peer.mem hp, congrArg Peer.st hp, congrArg Peer.txf hp, congrArg Peer.rxf hp,
      (resetBlock_irqPrev _).symm.trans (resetBlock_samples_line _)⟩

/-- Settles O44: at reset the trace is empty with CSN high, nothing is left to do, and the peer's register file and FIFOs are
empty. -/
theorem invariantsHoldAtReset : Obligations.InvariantsHoldAtReset := by
  have hseq : SequencerInv State.reset :=
    ⟨⟨.closed false, rfl, rfl, false, rfl⟩, fun _ => ⟨rfl, rfl, rfl⟩, fun h => absurd rfl h, rfl, nofun⟩
  have hpeer : PeerInv State.reset := by
    unfold PeerInv
    decide
  exact ⟨hseq, hpeer⟩

/-! ## The observation map -/

/-- The bits of STAT by place (R27). -/
theorem statByte_bits (busy inHandler running irqEn irqPend : Bool) (mode : Mode) :
    let b := statByte busy inHandler running irqEn irqPend mode
    b[0] = busy ∧ b[1] = inHandler ∧ b[2] = running ∧ b[3] = irqEn ∧ b[4] = irqPend
      ∧ b.extractLsb' 5 2 = modeBits mode ∧ b[7] = false := by
  cases mode <;> revert busy inHandler running irqEn irqPend <;> decide

/-- The bits of PINS by place (R27). -/
theorem pinsByte_bits (csn ce irqPrev : Bool) :
    let b := pinsByte csn ce irqPrev
    b[0] = csn ∧ b[1] = ce ∧ b[2] = irqPrev ∧ b.extractLsb' 3 5 = 0 := by
  revert csn ce irqPrev; decide

/-- From offset 0x08 on the map holds the three buffers, and 0 between and after them (R27). -/
theorem obs_buffers (s : State) {o : Nat} (h : 0x08 ≤ o) :
    obs o s =
      if o < 0x0D then s.abuf.toList.getD (o - 0x08) 0
      else if 0x10 ≤ o ∧ o < 0x18 then s.txbuf.toList.getD (o - 0x10) 0
      else if 0x18 ≤ o ∧ o < 0x20 then s.rxbuf.toList.getD (o - 0x18) 0
      else 0 := by
  simp only [obs, addrLen, payloadLen]
  iterate 8 rw [if_neg (by omega)]
  simp only [h, true_and]

theorem obs_abuf (s : State) (k : Fin 5) : obs (0x08 + k) s = s.abuf[k] := by
  rw [obs_buffers s (by omega), if_pos (by omega)]
  simp

theorem obs_txbuf (s : State) (k : Fin 8) : obs (0x10 + k) s = s.txbuf[k] := by
  rw [obs_buffers s (by omega), if_neg (by omega), if_pos (by omega)]
  simp

theorem obs_rxbuf (s : State) (k : Fin 8) : obs (0x18 + k) s = s.rxbuf[k] := by
  rw [obs_buffers s (by omega), if_neg (by omega), if_neg (by omega), if_pos (by omega)]
  simp

/-- An offset that R27 does not list reads 0. -/
theorem obs_unlisted (s : State) {o : Nat} (h : (0x0D ≤ o ∧ o < 0x10) ∨ 0x20 ≤ o) : obs o s = 0 := by
  rw [obs_buffers s (by omega), if_neg (by omega), if_neg (by omega), if_neg (by omega)]

/-- Settles O59: STAT and PINS bit by bit, the single bytes as they stand, the buffers by index. -/
theorem observationMapShowsTheState : Obligations.ObservationMapShowsTheState := by
  intro s
  obtain ⟨hbusy, hhandler, hrunning, hen, hpend, hmode, htop⟩ :=
    statByte_bits s.busy s.inHandler s.running s.irqEn s.irqPend s.mode
  obtain ⟨hcsn, hce, hprev, hrest⟩ := pinsByte_bits s.csn s.ce s.irqPrev
  have hfault : (obs 0x02 s).toNat = s.fault.toNat := BitVec.toNat_setWidth_of_le (b := s.fault) (by decide)
  have haddr : (obs 0x06 s).toNat = s.argAddr.toNat := BitVec.toNat_setWidth_of_le (b := s.argAddr) (by decide)
  refine ⟨hbusy, hhandler, hrunning, hen, hpend, hmode.trans ?_, htop, hcsn, hce, hprev, hrest, hfault, rfl, rfl, rfl, haddr, rfl,
    obs_abuf s, obs_txbuf s, obs_rxbuf s, fun _ => obs_unlisted s⟩
  cases s.mode <;> rfl

end Sys2Proof.Machine
end

section
/-! PROOFS of the statements about RXCNT's bound (R20) and the fault flags (R24), both invariants of the block's view. -/

namespace Sys2Proof.Machine

/-! ## The counter -/

/-- A counter with room is not at its width's end, so counting up is one more (R20, R224). -/
theorem count_up_within {c : Counter} (h : countHasRoom c = true) : (c + 1).toNat ≤ 8 := by
  have hc : c.toNat < 8 := by simpa [countHasRoom, payloadLen] using h
  have h1 : (c + 1).toNat = (c.toNat + 1) % 256 := rfl
  omega

/-- Only a clear and a count write RXCNT, and a count needs room (R224). -/
theorem viewMicro_rxcnt_within {m : Micro} {r : Byte} {v : BlockView} (h : v.rxcnt.toNat ≤ 8) :
    (viewMicro m r v).rxcnt.toNat ≤ 8 := by
  cases m
  case clearCount => exact Nat.zero_le 8
  case count =>
    simp only [viewMicro, viewEffect]
    split
    · split
      · exact count_up_within ‹_›
      · exact h
    · exact h
  all_goals exact h

/-- Settles O35: nothing but a clear, a count with room and RST writes RXCNT. -/
theorem counterStaysWithinPayloadLength : Obligations.CounterStaysWithinPayloadLength := by
  intro s t h hx
  refine step_keeps_view (Q := fun v => v.rxcnt.toNat ≤ 8) ?accept ?owner ?handler ?micro ?poll ?byte ?rst h hx
  case accept => exact fun _ h _ _ _ => h
  case owner => exact fun _ h _ => h
  case handler => exact fun _ h => h
  case micro => exact fun _ h _ _ => viewMicro_rxcnt_within h
  case poll => exact fun _ h => h
  case byte => exact fun _ h _ => h
  case rst => exact fun _ => Nat.zero_le 8

/-! ## The fault flags -/

/-- Setting a bit clears none. -/
theorem bits_or_ne_zero {w : Nat} {x m : BitVec w} (y : BitVec w) (h : x &&& m ≠ 0) : (x ||| y) &&& m ≠ 0 := by
  rw [BitVec.and_or_distrib_right]
  exact fun h0 => h (BitVec.or_eq_zero_iff.mp h0).1

/-- A micro-operation sets fault flags and clears none (R230). -/
theorem viewMicro_keeps_flag {m : Micro} {r : Byte} {v : BlockView} {flag : BitVec 4} (h : v.fault &&& flag ≠ 0) :
    (viewMicro m r v).fault &&& flag ≠ 0 := by
  cases m
  case raise k => exact bits_or_ne_zero _ h
  case count =>
    simp only [viewMicro, viewEffect]
    split
    · split
      · exact h
      · exact bits_or_ne_zero _ h
    · exact h
  all_goals exact h

/-- Settles O45: only a raise, a count without room and RST write FAULT, and there is no RST. -/
theorem faultFlagsAreSticky : Obligations.FaultFlagsAreSticky := by
  intro s t k hn h hx
  refine step_keeps_view (Q := fun v => v.fault &&& faultBit k ≠ 0) ?accept ?owner ?handler ?micro ?poll ?byte ?rst h hx
  case accept => exact fun _ h _ _ _ => h
  case owner => exact fun _ h _ => h
  case handler => exact fun _ h => h
  case micro => exact fun _ h _ _ => viewMicro_keeps_flag h
  case poll => exact fun _ h => h
  case byte => exact fun _ h _ => h
  case rst => exact fun hr => absurd (hn.symm.trans hr) Bool.false_ne_true

end Sys2Proof.Machine
end

section
/-! PROOFS of the statement about which instructions write which registers (R15 to R23): a micro-operation writes at most one of them,
and an instruction's micro-sequence holds only the writers its row allows. -/

namespace Sys2Proof.Machine

/-! ## What a micro-operation writes -/

/-- The registers of which the statement says which instructions write them; none writes RXBUF (R15, R17 to R21, R23). -/
inductive HostReg where
  | result
  | mode
  | rxcnt
  | irqEn
  | abuf
  | txbuf
  | rxbuf

/-- The register holds in `w` what it holds in `v`. -/
def HostReg.Kept : HostReg → BlockView → BlockView → Prop
  | .result, v, w => w.result = v.result
  | .mode, v, w => w.mode = v.mode
  | .rxcnt, v, w => w.rxcnt = v.rxcnt
  | .irqEn, v, w => w.irqEn = v.irqEn
  | .abuf, v, w => w.abuf = v.abuf
  | .txbuf, v, w => w.txbuf = v.txbuf
  | .rxbuf, v, w => w.rxbuf = v.rxbuf

/-- The register a micro-operation writes, if it is one of these. -/
def writtenReg : Micro → Option HostReg
  | .resultTmp => some .result
  | .resultSending => some .result
  | .setMode _ => some .mode
  | .clearCount => some .rxcnt
  | .count => some .rxcnt
  | .setIrqEn _ => some .irqEn
  | .setAbuf _ _ => some .abuf
  | .setTxbuf _ _ => some .txbuf
  | .storeRx _ => some .rxbuf
  | .wait _ => none
  | .csn _ => none
  | .ce _ => none
  | .send _ => none
  | .sendRmw _ _ => none
  | .storeTmp => none
  | .raise _ => none
  | .echo => none
  | .setRunning _ => none
  | .setNlpc _ => none
  | .clearPolls => none
  | .poll => none
  | .pollTest => none

/-- A micro-operation keeps every register but the one it writes. -/
theorem viewMicro_keeps_register {R : HostReg} {m : Micro} (h : writtenReg m ≠ some R) (r : Byte) (v : BlockView) :
    R.Kept v (viewMicro m r v) := by
  cases m
  case count =>
    cases R
    case rxcnt => exact absurd rfl h
    all_goals
      simp only [HostReg.Kept, viewMicro, viewEffect]
      split <;> [split; skip] <;> rfl
  all_goals cases R <;> simp_all [writtenReg, HostReg.Kept, viewMicro, viewEffect]

/-! ## What an instruction's micro-sequence is made of -/

/-- A micro-operation that an operation of the command word may hold: no label or test of the Node Loop's poll, no echo and no count of
a captured byte, which are the handler's. -/
def operational (m : Micro) : Bool := goesOn m && !echoesByte m && !(m = .count)

/-- The registers an instruction may write (R15, R17 to R21, R23). -/
def mayWrite : Instr → HostReg → Bool
  | .rdreg _ _, .result => true
  | .getStatus _ _, .result => true
  | .isSending _ _, .result => true
  | .enterTx _ _, .mode => true
  | .enterRx _ _, .mode => true
  | .configure _ _, .mode => true
  | .cntClr _ _, .rxcnt => true
  | .irqOn _ _, .irqEn => true
  | .irqOff _ _, .irqEn => true
  | .abufWr _ _, .abuf => true
  | .txbufWr _ _, .txbuf => true
  | _, _ => false

/-- A micro-operation of an operation that writes no register but the allowed ones. -/
def writesWithin (allowed : HostReg → Bool) (m : Micro) : Bool := operational m && (writtenReg m).all allowed

theorem goesOn_of_operational {m : Micro} (h : operational m = true) : goesOn m = true := by
  simp only [operational, Bool.and_eq_true] at h
  exact h.1.1

theorem operational_of_writesWithin {allowed : HostReg → Bool} {m : Micro} (h : writesWithin allowed m = true) :
    operational m = true :=
  (Bool.and_eq_true_iff.mp h).1

/-- The micro-sequence of an operation, as a function of the state at its acceptance: it writes no register but the allowed ones, and it
does not depend on the coming transfers and looks. -/
structure OperationProgram (allowed : HostReg → Bool) (prog : State → List Micro) : Prop where
  within : ∀ u, (prog u).all (writesWithin allowed) = true
  undisturbed : ∀ u answers looks, prog { u with answers := answers, looks := looks } = prog u

/-- Every instruction is a command whose micro-sequence writes what `mayWrite` says, or one exchange of a wire byte. -/
theorem exec_program (i : Instr) :
    (∃ op addr val prog, (∀ s, exec i s = command op addr val prog s) ∧ OperationProgram (mayWrite i) prog)
      ∨ ∀ s, ∃ b, exec i s = exchangeByte b s := by
  cases i
  case wRRegister | wWRegister | wRRxPayload | wWTxPayload | wFlushTx | wFlushRx | wNop => exact .inr fun _ => ⟨_, rfl⟩
  all_goals refine .inl ⟨_, _, _, _, fun _ => rfl, fun u => ?_, fun _ _ _ => rfl⟩
  case wraddr => simp only [wraddrProgram, addrWrite, frameBytes, deviceAddress_toList]; rfl
  case configure => simp only [configureProgram, addrWrite, frameBytes, deviceAddress_toList]; rfl
  case send =>
    unfold sendProgram
    split
    · simp only [sendBody, txPayloadFrame, frameBytes, payload_toList]; rfl
    · rfl
  case abufWr => unfold abufWrProgram; split <;> rfl
  case txbufWr => unfold txbufWrProgram; split <;> rfl
  all_goals rfl

/-! ## A run of such a micro-sequence -/

/-- What every micro-operation of a list keeps of the block's view, its run keeps, completed or held midway, when the list has no label
and no test of a poll. -/
theorem runMicros_keeps_view {Q : BlockView → Prop} {ms : List Micro} {s : State} (hg : ∀ m ∈ ms, goesOn m = true)
    (hm : ∀ m ∈ ms, ∀ r v, Q v → Q (viewMicro m r v)) (hi : ∀ v, Q v → Q { v with seq := .idle, upc := 0 }) (h : Q s.block) :
    Q (runMicros ms s).block := by
  induction ms generalizing s with
  | nil => exact hi _ h
  | cons m ms ih =>
    rw [runMicros_cons]
    split
    · exact h
    · rcases micro_cases m (towardsLook s) with ⟨-, r, t, he, hb, -⟩ | ⟨-, t, he, hb, -⟩ | ⟨rfl, -⟩ | ⟨rfl, -⟩
      · rw [he]
        exact ih (fun m' h' => hg m' (List.mem_cons_of_mem _ h')) (fun m' h' => hm m' (List.mem_cons_of_mem _ h'))
          (hb ▸ hm m List.mem_cons_self r _ h)
      · rw [he]
        exact hb ▸ h
      · exact absurd (hg _ List.mem_cons_self) (by decide)
      · exact absurd (hg _ List.mem_cons_self) (by decide)

/-- An exchange of a wire byte writes nothing of the block but the byte received. -/
theorem exchangeByte_block {b : Byte} {s t : State} (hx : exchangeByte b s = .next t) : ∃ r, t.block = { s.block with rx := r } := by
  unfold exchangeByte at hx
  rcases xfer_block b (elapse s) with ⟨r, u, hu, hb, -⟩ | ⟨u, hu, hb, -⟩ <;> rw [hu] at hx <;> cases hx
  · exact ⟨r, by simpa using hb⟩
  · exact ⟨s.rx, hb.trans (elapse_block s)⟩

/-- An instruction keeps every register that it may not write (R15 to R23), whether it completes, waits midway or is not accepted. -/
theorem exec_keeps_register {i : Instr} {s t : State} {R : HostReg} (hR : mayWrite i R = false) (hx : exec i s = .next t) :
    R.Kept s.block t.block := by
  rcases exec_program i with ⟨op, addr, val, prog, he, hp, -⟩ | he
  · rw [he] at hx
    have hprog := List.all_eq_true.mp (hp (accept op addr val s))
    unfold command at hx
    split at hx <;> injection hx with hx <;> subst hx
    · refine runMicros_keeps_view (Q := fun v => R.Kept s.block v)
        (fun m hm => goesOn_of_operational (operational_of_writesWithin (hprog m hm))) ?micro ?idle ?start
      case micro =>
        intro m hm r v hv
        have hw : writtenReg m ≠ some R := by
          intro hw
          have := hprog m hm
          simp [writesWithin, hw, hR] at this
        have := viewMicro_keeps_register hw r v
        cases R <;> exact Eq.trans this hv
      case idle => intro v hv; cases R <;> exact hv
      case start => cases R <;> rfl
    · cases R <;> rfl
  · obtain ⟨b, hb⟩ := he s
    obtain ⟨r, hr⟩ := exchangeByte_block (hb ▸ hx)
    rw [hr]
    cases R <;> rfl

/-- Settles O47: each clause is `exec_keeps_register` for its register. -/
theorem onlyTheirInstructionsWriteRegisters : Obligations.OnlyTheirInstructionsWriteRegisters := by
  intro i s t hx
  refine ⟨fun h => ?_, fun h => ?_, fun h => ?_, fun h => ?_, fun h => ?_, fun h => ?_, ?_⟩
  · exact exec_keeps_register (R := .result) (by cases i <;> simp_all [mayWrite]) hx
  · exact exec_keeps_register (R := .mode) (by cases i <;> simp_all [mayWrite]) hx
  · exact exec_keeps_register (R := .rxcnt) (by cases i <;> simp_all [mayWrite]) hx
  · exact exec_keeps_register (R := .irqEn) (by cases i <;> simp_all [mayWrite]) hx
  · exact exec_keeps_register (R := .abuf) (by cases i <;> simp_all [mayWrite]) hx
  · exact exec_keeps_register (R := .txbuf) (by cases i <;> simp_all [mayWrite]) hx
  · exact exec_keeps_register (R := .rxbuf) (by cases i <;> rfl) hx

end Sys2Proof.Machine
end

section
/-! PROOFS of the statement about the bytes that the storing instructions can change (R30, R59): `storedCells` of each frame, and of
the sequences built from frames. -/

namespace Sys2Proof.Machine

/-! ## The command bytes of the register frames -/

/-- A byte that decodes to a register write names the register in its low bits (R78). -/
theorem decodeWireCmd_writeReg {p : Params} {b : Byte} {a : Addr} (h : decodeWireCmd p b = some (.writeReg a)) :
    b &&& 0xE0 ≠ p.opcRRegister ∧ a = wireAddr b := by
  unfold decodeWireCmd at h
  split_ifs at h with _ _ _ _ _ hr _ <;> cases h
  exact ⟨hr, rfl⟩

/-- A data byte of a register read changes no register, whatever the opcode table makes of its command byte. -/
theorem cellsOf_readCommand {p : Params} (hw : p.wellFormed = true) (a : Addr) (k : Nat) :
    cellsOf p (decodeWireCmd p (readCommand p a)) k = [] := by
  obtain ⟨-, hr, -⟩ := wellFormed_opcodes hw
  unfold cellsOf
  split
  · rename_i a' h
    exact absurd (registerByte_parts a hr).2 (decodeWireCmd_writeReg h).1
  all_goals rfl

/-- The k-th data byte of a register write changes at most byte k - 1 of its register, and the first one none of the status register
(R45, R59). -/
theorem mem_cellsOf_writeCommand {p : Params} (hw : p.wellFormed = true) {a : Addr} {k x : Nat}
    (h : x ∈ cellsOf p (decodeWireCmd p (writeCommand p a)) k) : x = regCell a (k - 1) ∧ ¬ (a = p.regStatus ∧ k = 1) := by
  obtain ⟨-, -, hc⟩ := wellFormed_opcodes hw
  unfold cellsOf at h
  split at h
  · rename_i a' hd
    obtain rfl : a' = a := (decodeWireCmd_writeReg hd).2.trans (registerByte_parts a hc).1
    split at h
    · cases h
    · split at h
      · exact ⟨List.mem_singleton.mp h, ‹_›⟩
      · cases h
  all_goals cases h

/-! ## The cells of each frame and sequence -/

/-- A part of a micro-sequence between frames that changes no byte outside the cells, whatever follows it. -/
def StoresOnly (p : Params) (cells : List Nat) (ms : List Micro) : Prop :=
  ∀ rest, ∀ x ∈ storedCells p none (ms ++ rest), x ∈ cells ∨ x ∈ storedCells p none rest

section
variable {p : Params}

theorem storesOnly_append {cells₁ cells₂ : List Nat} {a b : List Micro} (ha : StoresOnly p cells₁ a) (hb : StoresOnly p cells₂ b) :
    StoresOnly p (cells₁ ++ cells₂) (a ++ b) := by
  intro rest x h
  rw [List.append_assoc] at h
  rw [List.mem_append, or_assoc]
  exact (ha _ x h).imp_right (hb rest x)

theorem storesOnly_mono {cells cells' : List Nat} {ms : List Micro} (h : StoresOnly p cells ms) (hs : cells ⊆ cells') :
    StoresOnly p cells' ms :=
  fun rest x hx => (h rest x hx).imp_left fun h => hs h

theorem storesOnly_storeTmp : StoresOnly p [] [.storeTmp] := fun _ _ h => .inr h

theorem storesOnly_ce (level : Bool) : StoresOnly p [] [.ce level] := fun _ _ h => .inr h

theorem storesOnly_waitMode (t : Nat) (m : Mode) : StoresOnly p [] [.wait t, .setMode m] := fun _ _ h => .inr h

/-- A frame of a command byte alone stores nothing. -/
theorem storesOnly_flushFrame (opc : Byte) : StoresOnly p [] (flushFrame p opc) := fun _ _ h => .inr h

variable (hw : p.wellFormed = true)
include hw

theorem storesOnly_regRead (a : Addr) : StoresOnly p [] (regRead p a) := by
  intro rest x h
  have he : storedCells p none (regRead p a ++ rest) = cellsOf p (decodeWireCmd p (readCommand p a)) 1 ++ storedCells p none rest := rfl
  rw [he, cellsOf_readCommand hw] at h
  exact .inr h

/-- A register write stores in byte 0 of its register alone, its data byte sent as it is or as read-modify-write data (R59, R144). -/
theorem storesOnly_regWrite (a : Addr) (v : Byte) : StoresOnly p [regCell a 0] (regWrite p a v) := by
  intro rest x h
  have he : storedCells p none (regWrite p a v ++ rest) = cellsOf p (decodeWireCmd p (writeCommand p a)) 1 ++ storedCells p none rest := rfl
  rw [he, List.mem_append] at h
  exact h.imp_left fun h => List.mem_singleton.mpr (mem_cellsOf_writeCommand hw h).1

theorem storesOnly_regWriteRmw (a : Addr) (keep set : Byte) : StoresOnly p [regCell a 0] (regWriteRmw p a keep set) :=
  storesOnly_regWrite hw a 0

/-- A write to the status register stores nothing (R45). -/
theorem storesOnly_clearFlags (m : Byte) : StoresOnly p [] (clearFlags p m) := by
  intro rest x h
  have he : storedCells p none (clearFlags p m ++ rest) =
      cellsOf p (decodeWireCmd p (writeCommand p p.regStatus)) 1 ++ storedCells p none rest := rfl
  rw [he, List.mem_append] at h
  exact h.imp_left fun h => absurd ⟨rfl, rfl⟩ (mem_cellsOf_writeCommand hw h).2

/-- An address write stores in the five bytes of its register alone (R59). -/
theorem storesOnly_addrWrite (a : Addr) (b : DeviceAddress) :
    StoresOnly p [regCell a 0, regCell a 1, regCell a 2, regCell a 3, regCell a 4] (addrWrite p a b) := by
  intro rest x h
  have he : storedCells p none (addrWrite p a b ++ rest) =
      let cells := cellsOf p (decodeWireCmd p (writeCommand p a))
      cells 1 ++ (cells 2 ++ (cells 3 ++ (cells 4 ++ (cells 5 ++ storedCells p none rest)))) := by
    simp only [addrWrite, frameBytes, deviceAddress_toList]
    rfl
  have hk : ∀ {k}, x ∈ cellsOf p (decodeWireCmd p (writeCommand p a)) k → x = regCell a (k - 1) :=
    fun h => (mem_cellsOf_writeCommand hw h).1
  simp only [he, List.mem_append] at h
  rcases h with h | h | h | h | h | h
  case inr.inr.inr.inr.inr => exact .inr h
  all_goals simp [hk h]

/-- A read-modify-write of the configuration register stores in its byte 0 alone (R144). -/
theorem storesOnly_cfgRmw (keep set : Byte) : StoresOnly p [regCell p.regConfig 0] (cfgRmw p keep set) :=
  storesOnly_append (storesOnly_append (storesOnly_regRead hw _) storesOnly_storeTmp) (storesOnly_regWriteRmw hw _ _ _)

/-- ENTER_TX stores in byte 0 of the configuration register alone (R146). -/
theorem storesOnly_enterTxBody : StoresOnly p [regCell p.regConfig 0] (enterTxBody p) :=
  storesOnly_mono
    (storesOnly_append (storesOnly_append (storesOnly_append (storesOnly_append (storesOnly_append (storesOnly_append
      (storesOnly_ce _) (storesOnly_cfgRmw hw _ _)) (storesOnly_cfgRmw hw _ _)) (storesOnly_flushFrame _))
      (storesOnly_clearFlags hw _)) (storesOnly_cfgRmw hw _ _)) (storesOnly_waitMode _ _))
    (by simp)

/-- So does ENTER_RX (R149). -/
theorem storesOnly_enterRxBody : StoresOnly p [regCell p.regConfig 0] (enterRxBody p) :=
  storesOnly_mono
    (storesOnly_append (storesOnly_append (storesOnly_append (storesOnly_append (storesOnly_append
      (storesOnly_ce _) (storesOnly_cfgRmw hw _ _)) (storesOnly_flushFrame _))
      (storesOnly_clearFlags hw _)) (storesOnly_cfgRmw hw _ _)) (storesOnly_append (storesOnly_ce true) (storesOnly_waitMode _ _)))
    (by simp)

end

/-! ## The instructions -/

/-- A command changes no byte outside the cells its micro-sequence stores in, completed or not. -/
theorem command_keepsMemoryOutside {op : Byte} {addr : Addr} {val : Byte} {prog : State → List Micro} {s t : State}
    {cells : List Nat} (hc : StoresOnly s.cfg cells (prog (accept op addr val s))) (hx : command op addr val prog s = .next t) :
    MemoryKeptOutside cells s t := by
  intro a ha
  refine command_stores hx a fun h => ?_
  rw [← List.append_nil (prog _)] at h
  exact (hc [] a h).elim ha List.not_mem_nil

/-- Settles O49: the cells of each storing instruction's frames, one after the other. -/
theorem storingInstructionsKeepOtherPeerMemory : Obligations.StoringInstructionsKeepOtherPeerMemory := by
  intro s t addr val hw
  have configure : StoresOnly s.cfg _ (configureProgram s) :=
    storesOnly_append (storesOnly_append (storesOnly_append (storesOnly_append (storesOnly_append (storesOnly_append
      (storesOnly_append (storesOnly_append (storesOnly_regWrite hw _ _) (storesOnly_regWrite hw _ _)) (storesOnly_regWrite hw _ _))
      (storesOnly_regWrite hw _ _)) (storesOnly_addrWrite hw _ _)) (storesOnly_addrWrite hw _ _)) (storesOnly_regWrite hw _ _))
      (storesOnly_regWrite hw _ _)) (storesOnly_enterRxBody hw)
  exact ⟨command_keepsMemoryOutside (storesOnly_regWrite hw _ _), command_keepsMemoryOutside (storesOnly_addrWrite hw _ _),
    command_keepsMemoryOutside (storesOnly_enterTxBody hw), command_keepsMemoryOutside (storesOnly_enterRxBody hw),
    command_keepsMemoryOutside configure⟩

end Sys2Proof.Machine
end

section
/-! PROOFS of the statement about held sequences (R12, R101, R103, R222): a run that the host's look, a late transfer or a late debug
handshake ends inside the sequence, and the run without it, go side by side up to there, and what is left makes up the difference. -/

namespace Sys2Proof.Machine

/-! ## Going on in the next step -/

/-- With the host silent and a sequence in progress, the step goes on with it (R12). -/
theorem step_resumes {t : State} (hw : t.cfg.wellFormed = true) (hh : t.host = []) (hs : t.seq ≠ .idle) :
    step t = .next (resume t) := by
  have hn : NoRst t := by simp [NoRst, rstDue, hh, movesRst]
  have ht : { t with host := hostAfterWait t } = t := by
    rw [show hostAfterWait t = t.host by simp [hostAfterWait, hh, movesAfterWait]]
  rw [step_without_rst hw hn, ht]
  unfold stepBlock
  split
  · rfl
  · rfl
  · exact absurd ‹_› hs

/-- A run does not touch the host's moves. -/
theorem runMicros_host (ms : List Micro) (s : State) : (runMicros ms s).host = s.host := by
  induction ms generalizing s with
  | nil => rfl
  | cons m ms ih =>
    rw [runMicros_cons]
    split
    · rfl
    · have hh : (micro m (towardsLook s)).state.host = s.host := (micro_looks m (towardsLook s)).2
      cases hm : micro m (towardsLook s) <;> rw [hm] at hh
      · exact (ih _).trans hh
      · exact hh
      · exact hh

/-- Where a run stops inside its sequence, the next step goes on; what it adds to the trace comes after. -/
theorem stopped_goes_on {ms : List Micro} {a t u : State} (hw : a.cfg.wellFormed = true) (hh : a.host = [])
    (hg : ∀ m ∈ ms, goesOn m = true) (ht : runMicros ms a = t) (hs : t.seq ≠ .idle) (hr : resume t = u) :
    t.trace <+: u.trace ∧ step t = .next u := by
  subst ht hr
  have hcfg : (runMicros ms a).block.cfg = a.cfg :=
    runMicros_keeps_view (Q := fun v => v.cfg = a.cfg) hg (fun m _ r v h => (viewMicro_cfg m r v).trans h) (fun _ h => h) rfl
  have hw' : (runMicros ms a).cfg.wellFormed = true := (congrArg Params.wellFormed hcfg).trans hw
  exact ⟨runMicros_trace _ _, step_resumes hw' ((runMicros_host ms a).trans hh) hs⟩

/-! ## Two runs side by side -/

/-- A disturbed run `s'` beside an undisturbed one `s`. When from related states each micro-operation either goes on in both to related
states, or stops the disturbed one where its rest ends as the undisturbed one does, then the whole disturbed run comes to its end or
stops so. -/
theorem disturbed_run {D : State → State → Prop} {Stop : Micro → State → Prop} {ok : Micro → Prop}
    (hD : ∀ m ms s s', ok m → D s s' →
      (∃ t t', D t t' ∧ runMicros (m :: ms) s = runMicros ms t ∧ runMicros (m :: ms) s' = runMicros ms t')
        ∨ ∃ t', runMicros (m :: ms) s' = t' ∧ t'.todo = m :: ms ∧ Stop m t' ∧ runMicros (m :: ms) t' = runMicros (m :: ms) s)
    {ms : List Micro} {s s' t' : State} (hok : ∀ m ∈ ms, ok m) (h : D s s') (ht : runMicros ms s' = t') :
    t'.seq = .idle ∨ (∃ m, t'.todo.head? = some m ∧ Stop m t') ∧ resume t' = runMicros ms s := by
  induction ms generalizing s s' with
  | nil => exact .inl (ht ▸ rfl)
  | cons m ms ih =>
    rcases hD m ms s s' (hok m List.mem_cons_self) h with ⟨u, u', hu, h1, h2⟩ | ⟨u', h1, h2, h3, h4⟩
    · rw [h1]
      exact ih (fun m' hm => hok m' (List.mem_cons_of_mem _ hm)) hu (h2 ▸ ht)
    · obtain rfl : u' = t' := h1.symm.trans ht
      exact .inr ⟨⟨m, by simp [h2], h3⟩, by simp only [resume, h2, h4]⟩

/-- The host looks before the next micro-operation. -/
theorem runMicros_look {m : Micro} {s : State} (ms : List Micro) (hl : lookDue s = true) :
    runMicros (m :: ms) s = { lookDone s with todo := m :: ms } := by
  rw [runMicros_cons, if_pos hl]

/-- The host does not look yet, and the next micro-operation goes on. -/
theorem runMicros_towardsLook {m : Micro} {s t : State} (ms : List Micro) (hl : lookDue s = false)
    (hm : micro m (towardsLook s) = .more t) : runMicros (m :: ms) s = runMicros ms t := by
  rw [runMicros_cons, hl, hm]
  rfl

/-- A micro-operation that goes on, with no look to come. -/
theorem runMicros_more {m : Micro} {s t : State} (ms : List Micro) (hl : s.looks = []) (hm : micro m s = .more t) :
    runMicros (m :: ms) s = runMicros ms t := by
  simp only [runMicros, runList_cons hl, hm]

/-- A micro-operation whose wait has not ended, with no look to come. -/
theorem runMicros_hold {m : Micro} {s t : State} (ms : List Micro) (hl : s.looks = []) (hm : micro m s = .hold t) :
    runMicros (m :: ms) s = { t with todo := m :: ms } := by
  simp only [runMicros, runList_cons hl, hm]

/-! ## Waits on time -/

/-- The micro-operations of an operation, or of the handler. -/
def mayRun : (handler : Bool) → Micro → Bool
  | true, m => goesOn m
  | false, m => operational m

theorem goesOn_of_mayRun {handler : Bool} {m : Micro} (h : mayRun handler m = true) : goesOn m = true := by
  cases handler
  · exact goesOn_of_operational h
  · exact h

/-- No coming wait of an operation, or of the handler, is late. -/
def OnTime (handler : Bool) (s : State) : Prop :=
  s.answers.all completing = true ∧ (handler = true → s.dbg.all accepting = true)

/-- What holds of a whole script holds of the entry that the next wait uses, and of those after it. -/
theorem all_take_one {α : Type} {f : α → Bool} {l : List α} (h : l.all f = true) : (l.take 1).all f = true :=
  List.all_eq_true.mpr fun x hx => List.all_eq_true.mp h x (List.mem_of_mem_take hx)

theorem all_tail {α : Type} {f : α → Bool} {l : List α} (h : l.all f = true) : l.tail.all f = true :=
  List.all_eq_true.mpr fun x hx => List.all_eq_true.mp h x (List.mem_of_mem_tail hx)

/-- With no wait late a micro-operation goes on, and no wait is late after it. -/
theorem micro_onTime {handler : Bool} {m : Micro} {s : State} (hm : mayRun handler m = true) (h : OnTime handler s) :
    ∃ r t, micro m s = .more t ∧ t.block = viewMicro m r s.block ∧ OnTime handler t := by
  obtain ⟨ha, hd⟩ := h
  by_cases ht : transfersByte m = true
  · obtain ⟨r, t, hx, hb, -, hta, htd, -⟩ := micro_transfer_completes ht (s := s) (all_take_one ha)
    exact ⟨r, t, hx, hb, hta ▸ all_tail ha, fun hh => htd ▸ hd hh⟩
  · simp only [Bool.not_eq_true] at ht
    by_cases he : echoesByte m = true
    · obtain rfl : m = .echo := by simpa [echoesByte] using he
      obtain rfl : handler = true := by cases handler <;> [exact absurd hm (by decide); rfl]
      obtain ⟨t, hx, hb, -, hta, htd, -⟩ := micro_echo (s := s) (all_take_one (hd rfl))
      exact ⟨0, t, hx, hb, hta ▸ ha, fun hh => htd ▸ all_tail (hd hh)⟩
    · simp only [Bool.not_eq_true] at he
      obtain ⟨t, hx, hb, -, hta, htd, -⟩ := micro_plain (s := s) ht (goesOn_of_mayRun hm) he
      exact ⟨0, t, hx, hb, hta ▸ ha, fun hh => htd ▸ hd hh⟩

/-! ## A look of the host -/

/-- A micro-operation of an operation is one event or write (R12). -/
theorem microSteps_operational {m : Micro} (h : operational m = true) (p : Params) (tmp : Byte) : microSteps p tmp m = 1 := by
  cases m
  case poll | pollTest | count => exact absurd h (by decide)
  all_goals rfl

/-- The host will look after n more micro-operations, no wait being late; in an operation, whose micro-operations upc counts, the look
falls where upc is `place`. -/
def WillLook (handler : Bool) (place : Nat) (s s' : State) : Prop :=
  s.looks = [] ∧ OnTime handler s
    ∧ ∃ n todo, s' = { s with todo := todo, looks := [n] } ∧ (handler = false → s.upc + n = place)

/-- A look stops a run, which goes on as if there had been none (R12, R274). -/
theorem looked_run {handler : Bool} {place : Nat} {ms : List Micro} {s s' t : State} (hms : ms.all (mayRun handler) = true)
    (h : WillLook handler place s s') (ht : runMicros ms s' = t) :
    t.seq = .idle ∨ (handler = false → t.upc = place) ∧ resume t = runMicros ms s := by
  have key := disturbed_run (D := WillLook handler place) (Stop := fun _ t => handler = false → t.upc = place)
    (ok := fun m => mayRun handler m = true) ?step (List.all_eq_true.mp hms) h ht
  case step =>
    rintro m ms s s' hm ⟨hl, hon, n, todo, rfl, hp⟩
    cases n with
    | zero =>
      have hs : { s with looks := [] } = s := by rw [← hl]
      exact .inr ⟨_, runMicros_look ms rfl, rfl, hp, (runMicros_withRest _ { s with looks := [] } _).trans (congrArg _ hs)⟩
    | succ n =>
      obtain ⟨r, t, hx, hb, hont⟩ := micro_onTime hm hon
      have hx' : micro m { s with todo := todo, looks := [n] } = .more { t with todo := todo, looks := [n] } := by
        rw [micro_withRest, hx]; rfl
      refine .inl ⟨t, _, ⟨(micro_more_looks hx).1.trans hl, hont, n, todo, rfl, fun hh => ?_⟩, runMicros_more ms hl hx,
        runMicros_towardsLook ms rfl hx'⟩
      have hupc : t.upc = s.upc + microSteps s.cfg s.tmp m := congrArg BlockView.upc hb
      subst hh
      rw [hupc, microSteps_operational hm, ← hp rfl]
      omega
  exact key.imp_right fun ⟨⟨_, _, hs⟩, hr⟩ => ⟨hs, hr⟩

/-! ## A late wait -/

/-- One of the two scripts that say how waits end (R101, R222): where it stands in the state, its entry for a wait that has not ended
when the step ends, the entries whose waits end, and the micro-operations that use an entry. -/
structure WaitScript (Entry : Type) where
  put : List Entry → State → State
  late : Entry
  passes : Entry → Bool
  waits : Micro → Bool

/-- The transfers (R101, R103). -/
def transferScript : WaitScript Answer where
  put l s := { s with answers := l }
  late := .late
  passes := completing
  waits := transfersByte

/-- The debug handshakes (R222). -/
def echoScript : WaitScript Ready where
  put l s := { s with dbg := l }
  late := .late
  passes := accepting
  waits := echoesByte

/-- What a script's entries do in a quiet environment. A micro-operation before the late entry runs the same whatever comes after
`before`; at the late entry it is held with the entry used, IRQ_N sampled and nothing else done but that a transfer is in progress. -/
structure WaitScript.Lawful {Entry : Type} (S : WaitScript Entry) : Prop where
  unseen : ∀ l w, (S.put l w).looks = w.looks ∧ (S.put l w).env = w.env
  goes : ∀ {m w t before}, w.env = [] → before.all S.passes = true → (S.waits m = true → before ≠ []) →
    micro m (S.put before w) = .more t →
    ∃ before', before'.all S.passes = true ∧ S.put before' t = t
      ∧ ∀ rest, micro m (S.put (before ++ rest) w) = .more (S.put (before' ++ rest) t)
  holds : ∀ {m w} after, w.env = [] → S.waits m = true →
    ∃ o, micro m (S.put (S.late :: after) w) = .hold { sample (S.put after w) with busOut := o }
      ∧ if transfersByte m then o.isSome = true else o = (S.put after w).busOut

/-- The same flow with its state changed. -/
def Flow.map (f : State → State) : Flow → Flow
  | .more t => .more (f t)
  | .hold t => .hold (f t)
  | .jump t target => .jump (f t) target

/-- The state with its two scripts of waits changed. -/
def withScripts (answers : List Answer → List Answer) (dbg : List Ready → List Ready) (s : State) : State :=
  { s with answers := answers s.answers, dbg := dbg s.dbg }

/-- Only a transfer reads the transfers' script, and only an echo the debug channel's. -/
theorem micro_withScripts {m : Micro} {s : State} {fa : List Answer → List Answer} {fd : List Ready → List Ready} (he : s.env = [])
    (ha : transfersByte m = true → fa = id) (hd : echoesByte m = true → fd = id) :
    micro m (withScripts fa fd s) = (micro m s).map (withScripts fa fd) := by
  have hel : elapse (withScripts fa fd s) = withScripts fa fd (sample s) := elapse_quiet he
  have after : ∀ n f, afterMicro n (Flow.map (withScripts fa fd) f) = (afterMicro n f).map (withScripts fa fd) := by
    intro n f; cases f <;> rfl
  unfold micro
  rw [hel, elapse_quiet he, ← after]
  congr 1
  generalize sample s = u
  have exchanged : fa = id → ∀ b, transfer b (withScripts fa fd u) = (transfer b u).map (withScripts fa fd) := by
    rintro rfl b
    unfold transfer xfer withScripts
    simp only [id]
    cases u.answers with
    | nil => rfl
    | cons a rest => cases a <;> rfl
  cases m
  case send b => exact exchanged (ha rfl) b
  case sendRmw keep set => exact exchanged (ha rfl) _
  case echo =>
    obtain rfl := hd rfl
    simp only [effect, dbgOut, withScripts, id]
    split <;> rfl
  case count =>
    have counted : countUp (withScripts fa fd u) = withScripts fa fd (countUp u) := by
      unfold countUp
      rw [apply_ite (withScripts fa fd)]
      rfl
    simp only [effect, Flow.map]
    rw [apply_ite (withScripts fa fd), counted]
    rfl
  case pollTest =>
    simp only [effect, pollTest]
    rw [apply_ite (Flow.map (withScripts fa fd))]
    rfl
  all_goals rfl

/-- A transfer whose entry is a byte uses that entry and reads no other. -/
theorem micro_answered {m : Micro} {s : State} (ht : transfersByte m = true) (he : s.env = []) (d : Byte) :
    ∃ u : State, ∀ rest, micro m { s with answers := .byte d :: rest } = .more { u with answers := rest } := by
  refine ⟨(micro m { s with answers := [.byte d] }).state, fun rest => ?_⟩
  have hel : ∀ l, elapse { s with answers := l } = { sample s with answers := l } := fun l => elapse_quiet he
  cases m <;> simp [transfersByte] at ht <;> simp only [micro, hel] <;> rfl

/-- An echo whose entry is ready uses that entry and reads no other. -/
theorem micro_ready {s : State} (he : s.env = []) :
    ∃ u : State, ∀ rest, micro .echo { s with dbg := .ready :: rest } = .more { u with dbg := rest } := by
  refine ⟨(micro .echo { s with dbg := [.ready] }).state, fun rest => ?_⟩
  have hel : ∀ l, elapse { s with dbg := l } = { sample s with dbg := l } := fun l => elapse_quiet he
  simp only [micro, hel]; rfl

/-- A late transfer uses its entry and is in progress; nothing else is done (R103). -/
theorem micro_late_transfer {m : Micro} {s : State} (ht : transfersByte m = true) (he : s.env = []) (after : List Answer) :
    micro m { s with answers := .late :: after } =
      .hold { sample { s with answers := after } with busOut := some (sentByte s.tmp m) } := by
  have hel : elapse { s with answers := .late :: after } = { sample s with answers := .late :: after } := elapse_quiet he
  obtain ⟨h1, h2, -⟩ := micro_transfer ht { s with answers := .late :: after }
  rw [micro, h1, h2, hel]
  exact congrArg Flow.hold (sample_sample { s with answers := after, busOut := some (sentByte s.tmp m) })

/-- A late echo uses its entry; nothing else is done (R222). -/
theorem micro_late_echo {s : State} (he : s.env = []) (after : List Ready) :
    micro .echo { s with dbg := .late :: after } = .hold (sample { s with dbg := after }) := by
  have hel : elapse { s with dbg := .late :: after } = { sample s with dbg := .late :: after } := elapse_quiet he
  rw [micro, hel]
  exact congrArg Flow.hold (sample_sample { s with dbg := after })

theorem transferScript_lawful : transferScript.Lawful where
  unseen _ _ := ⟨rfl, rfl⟩
  goes := by
    intro m w t before he hb hn hm
    by_cases ht : transfersByte m = true
    · obtain ⟨a, before, rfl⟩ := List.exists_cons_of_ne_nil (hn ht)
      cases a
      case late | never => exact absurd (Bool.and_eq_true_iff.mp hb).1 Bool.false_ne_true
      case byte d =>
        obtain ⟨u, hu⟩ := micro_answered ht he d
        obtain rfl : { u with answers := before } = t := Flow.more.inj ((hu before).symm.trans hm)
        exact ⟨before, (Bool.and_eq_true_iff.mp hb).2, rfl, fun rest => hu (before ++ rest)⟩
    · have hl : ∀ l, micro m { w with answers := l } = .more { t with answers := l } := by
        intro l
        have := micro_withScripts (s := transferScript.put before w) (fa := fun _ => l) (fd := id) he (fun h => absurd h ht) fun _ => rfl
        rwa [hm] at this
      exact ⟨before, hb, Flow.more.inj ((hl before).symm.trans hm), fun rest => hl (before ++ rest)⟩
  holds := by
    intro m w after he ht
    exact ⟨_, micro_late_transfer ht he after, by rw [show transfersByte m = true from ht]; rfl⟩

theorem echoScript_lawful : echoScript.Lawful where
  unseen _ _ := ⟨rfl, rfl⟩
  goes := by
    intro m w t before he hb hn hm
    by_cases ht : echoesByte m = true
    · obtain ⟨a, before, rfl⟩ := List.exists_cons_of_ne_nil (hn ht)
      obtain rfl : m = .echo := by simpa [echoesByte] using ht
      cases a
      case late | never => exact absurd (Bool.and_eq_true_iff.mp hb).1 Bool.false_ne_true
      case ready =>
        obtain ⟨u, hu⟩ := micro_ready he
        obtain rfl : { u with dbg := before } = t := Flow.more.inj ((hu before).symm.trans hm)
        exact ⟨before, (Bool.and_eq_true_iff.mp hb).2, rfl, fun rest => hu (before ++ rest)⟩
    · have hl : ∀ l, micro m { w with dbg := l } = .more { t with dbg := l } := by
        intro l
        have := micro_withScripts (s := echoScript.put before w) (fa := id) (fd := fun _ => l) he (fun _ => rfl) fun h => absurd h ht
        rwa [hm] at this
      exact ⟨before, hb, Flow.more.inj ((hl before).symm.trans hm), fun rest => hl (before ++ rest)⟩
  holds := by
    intro m w after he ht
    obtain rfl : m = .echo := by simpa [echoScript, echoesByte] using ht
    exact ⟨w.busOut, micro_late_echo he after, rfl⟩

/-- A quiet environment stays quiet. -/
theorem micro_keeps_quiet {m : Micro} {s t : State} (he : s.env = []) (hm : micro m s = .more t) : t.env = [] := by
  have after : ∀ n f, (afterMicro n f).state.env = f.state.env := by intro n f; cases f <;> rfl
  have exchanged : ∀ b u, (transfer b u).state.env = u.env := by
    intro b u
    unfold transfer xfer
    cases u.answers with
    | nil => rfl
    | cons a rest => cases a <;> rfl
  have key : (micro m s).state.env = s.env := by
    unfold micro
    rw [after, elapse_quiet he, ← sample_env s]
    generalize sample s = u
    cases m
    case send b => exact exchanged b u
    case sendRmw keep set => exact exchanged _ u
    case echo => show (dbgOut u.tmp u).state.env = _; unfold dbgOut; split <;> rfl
    case count =>
      show State.env (if _ then _ else _) = _
      split
      · unfold countUp; split <;> rfl
      · rfl
    case pollTest => show (pollTest u).state.env = _; unfold pollTest; split <;> rfl
    all_goals rfl
  rw [hm] at key
  exact Eq.trans key he

/-- A held micro-operation goes on as one that starts (R101, R103, R222): in a quiet environment one more sample changes nothing. -/
theorem runMicros_after_hold {m : Micro} {s : State} {o : Option Byte} (ms todo : List Micro) (he : s.env = []) (hl : s.looks = [])
    (ho : transfersByte m = true ∨ o = s.busOut) :
    runMicros (m :: ms) { sample s with busOut := o, todo := todo } = runMicros (m :: ms) s := by
  have hmicro : micro m { sample s with busOut := o } = micro m s := by
    have hel : elapse { sample s with busOut := o } = { sample s with busOut := o } :=
      (elapse_quiet (s := { sample s with busOut := o }) he).trans (sample_sample { s with busOut := o })
    rcases ho with ht | rfl
    · obtain ⟨h1, h2, -⟩ := micro_transfer ht { sample s with busOut := o }
      obtain ⟨h3, h4, -⟩ := micro_transfer ht s
      rw [micro, micro, h1, h2, h3, h4, hel, elapse_quiet he]
      exact congrArg (afterMicro 1) (transfer_busOut _ (sample s) o)
    · unfold micro
      rw [hel, elapse_quiet he]
      rfl
  rw [runMicros_withRest (m :: ms) { sample s with busOut := o } todo]
  simp only [runMicros, runList_cons hl, runList_cons (show ({ sample s with busOut := o } : State).looks = [] from hl), hmicro]

/-- No wait is late up to the end of `before`, one is there in the disturbed state, and nothing else disturbs. -/
def WillBeLate {Entry : Type} (handler : Bool) (S : WaitScript Entry) (s s' : State) : Prop :=
  ∃ w before after, w.looks = [] ∧ w.env = [] ∧ before.all S.passes = true ∧ OnTime handler (S.put before w)
    ∧ s = S.put (before ++ after) w ∧ s' = S.put (before ++ S.late :: after) w

/-- A late wait stops a run, which goes on as if the wait had been on time (R101, R103, R222). -/
theorem late_run {Entry : Type} {handler : Bool} {S : WaitScript Entry} (hS : S.Lawful) {ms : List Micro} {s s' t : State}
    (hms : ms.all (mayRun handler) = true) (h : WillBeLate handler S s s') (ht : runMicros ms s' = t) :
    t.seq = .idle ∨ (∃ m, t.todo.head? = some m ∧ S.waits m = true ∧ (transfersByte m = true → t.busOut.isSome = true))
      ∧ resume t = runMicros ms s := by
  refine disturbed_run (D := WillBeLate handler S)
    (Stop := fun m t => S.waits m = true ∧ (transfersByte m = true → t.busOut.isSome = true))
    (ok := fun m => mayRun handler m = true) ?step (List.all_eq_true.mp hms) h ht
  rintro m ms s s' hm ⟨w, before, after, hl, he, hb, hon, rfl, rfl⟩
  have hlooks : ∀ l, (S.put l w).looks = [] := fun l => (hS.unseen l w).1.trans hl
  have henv : ∀ l, (S.put l w).env = [] := fun l => (hS.unseen l w).2.trans he
  by_cases hstop : S.waits m = true ∧ before = []
  · obtain ⟨hwait, rfl⟩ := hstop
    obtain ⟨o, hx, ho⟩ := hS.holds after he hwait
    refine .inr ⟨_, runMicros_hold ms (hlooks _) hx, rfl, ⟨hwait, fun ht => by simpa [ht] using ho⟩,
      runMicros_after_hold ms (m :: ms) (henv _) (hlooks _) ?_⟩
    by_cases ht : transfersByte m = true
    · exact .inl ht
    · exact .inr (by simpa [ht] using ho)
  · obtain ⟨-, t, hx, -, hont⟩ := micro_onTime hm hon
    obtain ⟨before', hb', hput, hgoes⟩ := hS.goes he hb (fun hw hn => hstop ⟨hw, hn⟩) hx
    exact .inl ⟨_, _, ⟨t, before', after, (micro_more_looks hx).1.trans (hlooks _), micro_keeps_quiet (henv _) hx, hb',
      by rwa [hput], rfl, rfl⟩, runMicros_more ms (hlooks _) (hgoes _), runMicros_more ms (hlooks _) (hgoes _)⟩

/-! ## The operations and the handler -/

/-- An exchange of a wire byte leaves SEQ alone. -/
theorem exchangeByte_seq {b : Byte} {s t : State} (hx : exchangeByte b s = .next t) : t.seq = s.seq := by
  obtain ⟨r, hb⟩ := exchangeByte_block hx
  exact congrArg BlockView.seq hb

/-- An instruction that stops midway is an operation, and with other coming transfers and looks it runs the same micro-sequence. -/
theorem exec_runs {i : Instr} {s t u : State} {answers : List Answer} {looks : List Nat} (hr : s.ready = true)
    (hu : exec i s = .next u) (ht : exec i { s with answers := answers, looks := looks } = .next t) (hop : t.seq = .op) :
    ∃ (ms : List Micro) (op : Byte) (addr : Addr) (val : Byte), ms.all (mayRun false) = true
      ∧ runMicros ms (accept op addr val s) = u
      ∧ runMicros ms { accept op addr val s with answers := answers, looks := looks } = t := by
  have hr' : State.ready { s with answers := answers, looks := looks } = true := hr
  rcases exec_program i with ⟨op, addr, val, prog, he, hp⟩ | he
  · rw [he] at hu ht
    simp only [command, hr, hr', if_true, Host.Outcome.next.injEq] at hu ht
    refine ⟨prog (accept op addr val s), op, addr, val, ?_, hu, ?_⟩
    · exact List.all_eq_true.mpr fun m hm => operational_of_writesWithin (List.all_eq_true.mp (hp.within _) m hm)
    · rw [← hp.undisturbed (accept op addr val s) answers looks]
      exact ht
  · obtain ⟨b, hb⟩ := he { s with answers := answers, looks := looks }
    have hidle : s.seq = .idle := (ready_iff.mp hr).1
    have := (exchangeByte_seq (hb ▸ ht)).symm.trans hop
    simp [hidle] at this

/-- Stopped by a look, a sequence goes on in the next step to where it ends unwatched (R12, R274). -/
theorem looked_goes_on {handler : Bool} {place : Nat} {ms : List Micro} {s s' t u : State} (hms : ms.all (mayRun handler) = true)
    (h : WillLook handler place s s') (hw : s'.cfg.wellFormed = true) (hh : s'.host = []) (hu : runMicros ms s = u)
    (ht : runMicros ms s' = t) (hs : t.seq ≠ .idle) :
    (handler = false → t.upc = place) ∧ t.trace <+: u.trace ∧ step t = .next u := by
  obtain ⟨hupc, hres⟩ := (looked_run hms h ht).resolve_left hs
  exact ⟨hupc, stopped_goes_on hw hh (fun m hm => goesOn_of_mayRun (List.all_eq_true.mp hms m hm)) ht hs (hres.trans hu)⟩

/-- Stopped by a late wait, a sequence goes on in the next step to where it ends with the wait on time (R101, R103, R222). -/
theorem late_goes_on {Entry : Type} {handler : Bool} {S : WaitScript Entry} (hS : S.Lawful) {ms : List Micro} {s s' t u : State}
    (hms : ms.all (mayRun handler) = true) (h : WillBeLate handler S s s') (hw : s'.cfg.wellFormed = true) (hh : s'.host = [])
    (hu : runMicros ms s = u) (ht : runMicros ms s' = t) (hs : t.seq ≠ .idle) :
    (∃ m, t.todo.head? = some m ∧ S.waits m = true ∧ (transfersByte m = true → t.busOut.isSome = true))
      ∧ t.trace <+: u.trace ∧ step t = .next u := by
  obtain ⟨hstop, hres⟩ := (late_run hS hms h ht).resolve_left hs
  exact ⟨hstop, stopped_goes_on hw hh (fun m hm => goesOn_of_mayRun (List.all_eq_true.mp hms m hm)) ht hs (hres.trans hu)⟩

/-- Settles O41: each clause is a look or a late wait in the micro-sequence of an operation or of the handler. -/
theorem heldSequencesGoOnWhereTheyStopped : Obligations.HeldSequencesGoOnWhereTheyStopped := by
  have hcap : ∀ p, (captureProgram p).all (mayRun true) = true := fun _ => rfl
  have op_ne : ∀ {t : State}, t.seq = .op → t.seq ≠ .idle := fun h => by rw [h]; decide
  have handler_ne : ∀ {t : State}, t.seq = .handler → t.seq ≠ .idle := fun h => by rw [h]; decide
  refine ⟨?opLooked, ?opLate, ?handlerLooked, ?handlerLate, ?handlerEcho⟩
  case opLooked =>
    intro i s t u n hw hr hh hl ha hu ht hop
    obtain ⟨ms, op, addr, val, hms, hrun, hrun'⟩ := exec_runs (answers := s.answers) (looks := [n]) hr hu ht hop
    have hlook : WillLook false n (accept op addr val s) { accept op addr val s with looks := [n] } :=
      ⟨hl, ⟨ha, nofun⟩, n, s.todo, rfl, fun _ => Nat.zero_add n⟩
    exact (looked_goes_on hms hlook hw hh hrun hrun' (op_ne hop)).imp_left fun h => h rfl
  case opLate =>
    intro i s t u before after hw hr hh hl he hb hu ht hop
    obtain ⟨ms, op, addr, val, hms, hrun, hrun'⟩ :=
      exec_runs (s := { s with answers := before ++ after }) (answers := before ++ .late :: after) (looks := s.looks) hr hu ht hop
    have hlate : WillBeLate false transferScript (accept op addr val { s with answers := before ++ after })
        { accept op addr val s with answers := before ++ .late :: after } :=
      ⟨accept op addr val s, before, after, hl, he, hb, ⟨hb, nofun⟩, rfl, rfl⟩
    obtain ⟨⟨m, -, hwait, hbus⟩, htr, hst⟩ := late_goes_on transferScript_lawful hms hlate hw hh hrun hrun' (op_ne hop)
    exact ⟨htr, hbus hwait, hst⟩
  case handlerLooked =>
    intro s t n hw hh hl ha hd ht hs
    have hlook : WillLook true n (enterHandler s) (enterHandler { s with looks := [n] }) :=
      ⟨hl, ⟨ha, fun _ => hd⟩, n, s.todo, rfl, nofun⟩
    exact (looked_goes_on (hcap s.cfg) hlook hw hh rfl ht (handler_ne hs)).2
  case handlerLate =>
    intro s t u before after hw hh hl he hb hd hu ht hs
    have hlate : WillBeLate true transferScript (enterHandler { s with answers := before ++ after })
        (enterHandler { s with answers := before ++ .late :: after }) :=
      ⟨enterHandler s, before, after, hl, he, hb, ⟨hb, fun _ => hd⟩, rfl, rfl⟩
    obtain ⟨⟨m, -, hwait, hbus⟩, htr, hst⟩ := late_goes_on transferScript_lawful (hcap s.cfg) hlate hw hh hu ht (handler_ne hs)
    exact ⟨htr, hbus hwait, hst⟩
  case handlerEcho =>
    intro s t u before after hw hh hl he hb ha hu ht hs
    have hlate : WillBeLate true echoScript (enterHandler { s with dbg := before ++ after })
        (enterHandler { s with dbg := before ++ .late :: after }) :=
      ⟨enterHandler s, before, after, hl, he, hb, ⟨ha, fun _ => hb⟩, rfl, rfl⟩
    obtain ⟨⟨m, htodo, hwait, -⟩, htr, hst⟩ := late_goes_on echoScript_lawful (hcap s.cfg) hlate hw hh hu ht (handler_ne hs)
    obtain rfl : m = .echo := of_decide_eq_true hwait
    exact ⟨htr, htodo, hst⟩

end Sys2Proof.Machine
end

section
/-! PROOFS of the statement about the peer's invariant (R56): no part of a step breaks it. -/

namespace Sys2Proof.Machine

/-- A transfer keeps the peer's invariant, completed or not. -/
theorem peerInv_xfer {b : Byte} {s : State} (h : PeerInv s) : PeerInv (xfer b s).state := by
  have hcfg : (xfer b s).state.cfg = s.cfg := by
    rcases xfer_block b s with ⟨r, t, hx, hb, -⟩ | ⟨t, hx, hb, -⟩ <;> rw [hx] <;> exact congrArg BlockView.cfg hb
  show Peer.Bounded (xfer b s).state.cfg _
  rw [hcfg]
  exact bounded_xfer h

/-- So does time passing, with the environment's move in it (R61). -/
theorem peerInv_elapse {s : State} (h : PeerInv s) : PeerInv (elapse s) := by
  show Peer.Bounded (elapse s).cfg _
  rw [elapse_cfg]
  exact bounded_elapse h

/-- RST leaves the peer's contents as they are (R251), whether it cuts a frame short or not (U5). -/
theorem peerInv_resetBlock {s : State} (h : PeerInv s) : PeerInv (resetBlock s) := by
  show Peer.Bounded s.cfg (if s.csn then s.peer else s.peer.unconstrained)
  split <;> exact h

/-- Settles O43: the passing of time, a transfer, a micro-operation, the end of a sequence and RST each keep the invariant, and
nothing else in a step touches the peer. -/
theorem stepKeepsPeerInvariant : Obligations.StepKeepsPeerInvariant := by
  intro s t h hx
  have overlooks : Overlooks PeerInv := ⟨fun _ _ h => h, fun _ _ h => h, fun _ _ h => h⟩
  refine step_keeps overlooks ?rst ?accept ?idle ?handler ?cycle ?elapse ?sample ?micro ?xfer h hx
  case rst => exact fun _ => peerInv_resetBlock (overlooks.host _ _ h)
  case accept => exact fun _ _ _ _ h => h
  case idle => exact fun u h => bounded_leftWithCe (p := u.cfg) h
  case handler => exact fun _ h => h
  case cycle => exact fun _ h => h
  case elapse => exact fun _ h => peerInv_elapse h
  case sample => exact fun _ h => h
  case micro => exact fun _ _ h => peerInv_micro h
  case xfer => exact fun _ _ h => peerInv_xfer h

end Sys2Proof.Machine
end

section
/-! PROOFS of the statements about a frame's first byte (R57, R60) and about the instructions that store in no register of the peer
(R41, R28, R30). -/

namespace Sys2Proof.Machine

/-! ## The command byte of a frame -/

section
variable {p : Params} {q : Peer} {b : Byte}

/-- A frame's first byte is answered with the status byte, and the peer takes it as the frame's command (R57). -/
theorem transfer_first (hk : q.kind = .reference) (hi : q.idx = 0) :
    q.transfer p false b = (some q.status, q.command p b) := by
  simp [Peer.transfer, hk, hi]

/-- A command byte changes the frame's command and its place, and a flush one FIFO (R57, R60). -/
theorem peerCommand_eq (p : Params) (b : Byte) (q : Peer) :
    q.command p b =
      { q with
        cmd := decodeWireCmd p b
        idx := 1
        txf := if decodeWireCmd p b = some .flushTx then [] else q.txf
        rxf := if decodeWireCmd p b = some .flushRx then [] else q.rxf } := by
  unfold Peer.command
  cases hc : decodeWireCmd p b with
  | none => rfl
  | some c => cases c <;> rfl

/-- A transfer that is not a data byte of a frame changes no register, whatever the peer and the level of CSN (R57). -/
theorem transfer_first_mem (p : Params) (csn : Bool) (b : Byte) (hi : q.idx = 0) : (q.transfer p csn b).2.mem = q.mem := by
  unfold Peer.transfer
  split
  · rfl
  · split
    · rfl
    · rw [peerCommand_eq]

end

/-! ## The exchange of a wire command byte -/

/-- An instruction encoded as a wire byte is the exchange of that byte (R76). -/
theorem exec_wire {i : Instr} {b : Byte} {s : State} (h : encode s.cfg i = .wire b) : exec i s = exchangeByte b s := by
  cases i
  case wRRegister | wWRegister | wRRxPayload | wWTxPayload | wFlushTx | wFlushRx | wNop =>
    injection h with h
    subst h
    rfl
  all_goals cases h

/-- The exchange of a frame's first byte changes no register of the peer, completed or not (R57). -/
theorem exchangeByte_mem {b : Byte} {s t : State} (hi : s.peer.idx = 0) (hx : exchangeByte b s = .next t) :
    t.peer.mem = s.peer.mem := by
  obtain ⟨-, hmem, hidx, -⟩ := elapse_peer s
  unfold exchangeByte at hx
  rcases xfer_peer_cases b (elapse s) with ⟨r, u, hu, hp⟩ | ⟨u, hu, hp⟩ <;> rw [hu] at hx <;> cases hx
  · exact (congrArg Peer.mem hp).trans ((transfer_first_mem _ _ _ (hidx.trans hi)).trans hmem)
  · exact (congrArg Peer.mem hp).trans hmem

/-- The exchange of a frame's first byte at the reference peer, when it completes: what the pins show and what the peer is. -/
theorem exchangeByte_first {b : Byte} {s : State} (hk : s.peer.kind = .reference) (hc : s.csn = false) (hi : s.peer.idx = 0)
    (ha : TransfersComplete 1 s) :
    ∃ t, exchangeByte b s = .next t ∧ t.trace = s.trace ++ [.x b (elapse s).peer.status]
      ∧ t.peer = (elapse s).peer.command s.cfg b := by
  obtain ⟨hkind, -, hidx, -⟩ := elapse_peer s
  have htr : (elapse s).peer.transfer (elapse s).cfg (elapse s).csn b =
      (some (elapse s).peer.status, (elapse s).peer.command s.cfg b) := by
    rw [elapse_csn, hc, elapse_cfg]
    exact transfer_first (hkind.trans hk) (hidx.trans hi)
  obtain ⟨d, t, hx, -, hp, -⟩ := xfer_peer (b := b) (completes_congr ha (elapse_answers s))
  rw [htr] at hx hp
  refine ⟨sample t, by simp only [exchangeByte, hx], ?_, hp⟩
  rcases xfer_block b (elapse s) with ⟨r, u, hu, -, -, -, -, ht⟩ | ⟨u, hu, -⟩ <;> cases hx.symm.trans hu
  exact ht.trans (by rw [elapse_trace]; rfl)

/-- Settles O31: the exchange of the byte, and `peerCommand_eq` for what the peer makes of it. -/
theorem commandByteAtTheReferencePeer : Obligations.CommandByteAtTheReferencePeer := by
  intro s i b c _ _ henc hdec hk hc hi ha
  obtain ⟨hkind, hmem, -, -⟩ := elapse_peer s
  obtain ⟨t, hx, htrace, hp⟩ := exchangeByte_first (b := b) hk hc hi ha
  rw [peerCommand_eq, hdec] at hp
  refine ⟨t, (exec_wire henc).trans hx, htrace, ?cmd, ?idx, ?kind, ?txf, ?rxf, ?st, ?mem⟩
  case mem =>
    intro a _
    rw [hp, hmem]
  case kind => exact (congrArg Peer.kind hp).trans (hkind.trans hk)
  all_goals simp [hp]

/-! ## The instructions that store nothing -/

/-- A micro-operation that neither transfers a byte nor drives CSN. -/
def offBus (m : Micro) : Bool := !transfersByte m && !(m = .csn true) && !(m = .csn false)

theorem storesOnly_offBus {p : Params} {ms : List Micro} (h : ms.all offBus = true) : StoresOnly p [] ms := by
  intro rest x hx
  induction ms with
  | nil => exact .inr hx
  | cons m ms ih =>
    obtain ⟨hm, hms⟩ := Bool.and_eq_true_iff.mp h
    have hcells : storedCells p none (m :: (ms ++ rest)) = storedCells p none (ms ++ rest) := by
      cases m
      case send | sendRmw => exact absurd hm Bool.false_ne_true
      case csn level => cases level <;> exact absurd hm (by decide)
      all_goals rfl
    exact ih hms (hcells ▸ hx)

/-- The bytes of a payload write up to the frame's end: none of them is a register's (R60). -/
theorem storedCells_payloadBytes (p : Params) (bs : List Byte) (k : Nat) (rest : List Micro) :
    storedCells p (some (some .writeTxPayload, k + 1)) (frameBytes p bs ++ (frameEnd ++ rest)) = storedCells p none rest := by
  induction bs generalizing k with
  | nil => rfl
  | cons b bs ih => exact ih (k + 1)

theorem storesOnly_txPayloadFrame {p : Params} (hw : p.wellFormed = true) (pl : Payload) : StoresOnly p [] (txPayloadFrame p pl) := by
  obtain ⟨-, hcmd, -⟩ := decodeWireCmd_fixed hw
  intro rest x hx
  have hframe : storedCells p none (txPayloadFrame p pl ++ rest) =
      storedCells p (some (decodeWireCmd p p.opcWTxPayload, 1)) (frameBytes p pl.toList ++ (frameEnd ++ rest)) := by
    simp only [txPayloadFrame, List.append_assoc]
    rfl
  rw [hframe, hcmd, storedCells_payloadBytes] at hx
  exact .inr hx

/-- A status frame stores nothing, nor does what the block does with the reply (R109). -/
theorem storesOnly_statusFrame {p : Params} {ms : List Micro} (h : ms.all offBus = true) : StoresOnly p [] (statusFrame p ++ ms) :=
  storesOnly_append (storesOnly_flushFrame p.opcNop) (storesOnly_offBus h)

theorem storesOnly_rdregProgram {s : State} (hw : s.cfg.wellFormed = true) : StoresOnly s.cfg [] (rdregProgram s) :=
  storesOnly_append (storesOnly_regRead hw _) (storesOnly_offBus rfl)

/-- SEND stores in no register, whatever the mode (R152). -/
theorem storesOnly_sendProgram {s : State} (hw : s.cfg.wellFormed = true) : StoresOnly s.cfg [] (sendProgram s) := by
  unfold sendProgram
  split
  · exact storesOnly_append (storesOnly_append (storesOnly_flushFrame _) (storesOnly_txPayloadFrame hw _)) (storesOnly_offBus rfl)
  · exact storesOnly_offBus rfl

theorem storesOnly_abufWrProgram {p : Params} (s : State) : StoresOnly p [] (abufWrProgram s) := by
  unfold abufWrProgram
  split <;> exact storesOnly_offBus rfl

theorem storesOnly_txbufWrProgram {p : Params} (s : State) : StoresOnly p [] (txbufWrProgram s) := by
  unfold txbufWrProgram
  split <;> exact storesOnly_offBus rfl

/-- Settles O48: the frames of each operation store nothing, and a wire byte is a frame's first. -/
theorem nonStoringInstructionsKeepPeerMemory : Obligations.NonStoringInstructionsKeepPeerMemory := by
  intro i s t hw hx hn hi
  cases i
  case wrreg a v | wraddr a v | enterTx a v | enterRx a v | configure a v => exact absurd (hn a v) (by simp)
  case wRRegister | wWRegister | wRRxPayload | wWTxPayload | wFlushTx | wFlushRx | wNop =>
    exact fun a _ => congrArg (Memory.read · a) (exchangeByte_mem (hi _ rfl) hx)
  case rdreg => exact command_keepsMemoryOutside (storesOnly_rdregProgram (s := accept codeRdreg _ _ s) hw) hx
  case getStatus | isSending => exact command_keepsMemoryOutside (storesOnly_statusFrame rfl) hx
  case flushTx | flushRx => exact command_keepsMemoryOutside (storesOnly_flushFrame _) hx
  case resetStatus => exact command_keepsMemoryOutside (storesOnly_clearFlags hw _) hx
  case send => exact command_keepsMemoryOutside (storesOnly_sendProgram hw) hx
  case abufWr => exact command_keepsMemoryOutside (storesOnly_abufWrProgram _) hx
  case txbufWr => exact command_keepsMemoryOutside (storesOnly_txbufWrProgram _) hx
  case ceSet | ceClr | irqOn | irqOff | cntClr | run => exact command_keepsMemoryOutside (storesOnly_offBus rfl) hx

end Sys2Proof.Machine
end

section
/-! PROOFS of the statements about the reference peer's flags and FIFOs: what the operations of one frame do to them (R45, R58 to R60,
R141 to R143, R154, R155), and what the radio does (R61, R62). -/

namespace Sys2Proof.Machine

/-! ## Operations of one frame -/

/-- A command whose waits complete, undisturbed, from what `quietRun` makes of its micro-sequence over any bytes received: RESULT, the
peer's flags and FIFOs, and every register byte where the micro-sequence stores none. -/
theorem command_quiet_peer {op : Byte} {addr : Addr} {val : Byte} {prog : State → List Micro} {s : State} {n : Nat} {r : Byte}
    {q : Peer} (hy : s.ready = true) (hu : Unwatched s) (he : s.env = []) (hg : (prog (accept op addr val s)).all goesOn = true)
    (hn : (prog (accept op addr val s)).countP transfersByte = n)
    (hecho : (prog (accept op addr val s)).countP echoesByte = 0) (ht : TransfersComplete n s)
    (hmem : q.mem = s.peer.mem)
    (hrun : ∀ d : Nat → Byte, ∃ w : BlockView, w.result = r ∧
      quietRun (prog (accept op addr val s)) ((List.range n).map d) (accept op addr val s).block s.peer = (w, q)) :
    ∃ t, command op addr val prog s = .next t ∧ t.result = r ∧ t.peer.st = q.st ∧ t.peer.txf = q.txf ∧ t.peer.rxf = q.rxf
      ∧ MemoryKeptOutside [] s t := by
  obtain ⟨t, d, hx, hend, -⟩ := command_quiet hy hu hg hn hecho ht he
  obtain ⟨w, hr, hw⟩ := hrun d
  obtain ⟨hv, rfl⟩ := Prod.mk.inj (hend.trans hw)
  exact ⟨toIdle t, hx, (congrArg BlockView.result hv).trans hr, by simp, by simp, by simp, fun a _ => by rw [toIdle_mem, hmem]⟩

/-- Writing M_ST_ALL clears the three flags (R155). -/
theorem cleared_all_st (p : Params) (q : Peer) : (q.cleared p (mStAll p)).st = q.st &&& ~~~mStAll p := by
  rw [cleared_st, BitVec.and_self]

/-- With ST_LOW outside M_ST_ALL the status byte answers IS_SENDING by the two end flags of ST (R56, R154). -/
theorem sendingResult_status {p : Params} {st stLow : Byte} (h : stLow &&& mStAll p = 0) :
    sendingResult p (st ||| stLow) = if st &&& p.mTxDs = 0 ∧ st &&& p.mMaxRt = 0 then 0x01 else 0x00 := by
  simp only [mStAll, BitVec.and_or_distrib_left] at h
  obtain ⟨hrxtx, hmax⟩ := BitVec.or_eq_zero_iff.mp h
  obtain ⟨-, htx⟩ := BitVec.or_eq_zero_iff.mp hrxtx
  have hst : (st ||| stLow) &&& mStDone p = (st &&& p.mTxDs) ||| (st &&& p.mMaxRt) := by
    simp [mStDone, BitVec.and_or_distrib_left, BitVec.and_or_distrib_right, htx, hmax]
  simp [sendingResult, stillSending, hst, BitVec.or_eq_zero_iff]

/-- Settles O52: each operation is one frame, of which a law of `quietRun` says the reply and the peer after it. -/
theorem statusAndFlushesAtTheReferencePeer : Obligations.StatusAndFlushesAtTheReferencePeer := by
  intro s addr v hw hc hk he hy hu ht
  have ht1 : TransfersComplete 1 s := completes_one ht
  have hread := decodeWireCmd_read hw hc s.cfg.regStatus
  have hwrite := decodeWireCmd_write hw hc s.cfg.regStatus
  obtain ⟨-, -, hftx, hfrx, hnop⟩ := decodeWireCmd_fixed hw
  refine ⟨?getStatus, ?rdreg, fun hlow => ?isSending, ?wrreg, ?resetStatus, ?flushTx, ?flushRx⟩
  case getStatus =>
    exact command_quiet_peer (q := s.peer.closed) hy hu he rfl rfl rfl ht1 rfl
      fun _ => ⟨_, rfl, quietRun_statusFrame rfl hk hnop⟩
  case rdreg =>
    exact command_quiet_peer (q := s.peer.closed) hy hu he rfl rfl rfl ht rfl
      fun _ => ⟨_, rfl, quietRun_statusRead rfl hk hread⟩
  case isSending =>
    exact command_quiet_peer (q := s.peer.closed) hy hu he rfl rfl rfl ht1 rfl
      fun _ => ⟨_, sendingResult_status hlow, quietRun_statusFrame rfl hk hnop⟩
  case wrreg =>
    obtain ⟨t, hx, -, hpeer⟩ := command_quiet_peer (op := codeWrreg) (addr := s.cfg.regStatus) (val := v) (prog := wrregProgram)
      (r := s.result) (q := s.peer.cleared s.cfg v) hy hu he rfl rfl rfl ht rfl
      fun _ => ⟨_, rfl, quietRun_statusWrite (ms := []) rfl hk hwrite⟩
    exact ⟨t, hx, hpeer⟩
  case resetStatus =>
    obtain ⟨t, hx, -, hst, hpeer⟩ := command_quiet_peer (op := codeResetStatus) (addr := addr) (val := v)
      (prog := resetStatusProgram) (r := s.result) (q := s.peer.cleared s.cfg (mStAll s.cfg)) hy hu he rfl rfl rfl ht rfl
      fun _ => ⟨_, rfl, quietRun_statusWrite (ms := []) rfl hk hwrite⟩
    exact ⟨t, hx, hst.trans (cleared_all_st s.cfg s.peer), hpeer⟩
  case flushTx =>
    obtain ⟨t, hx, -, hst, htxf, hrxf, hmem⟩ := command_quiet_peer (op := codeFlushTx) (addr := addr) (val := v)
      (prog := flushTxProgram) (r := s.result) (q := s.peer.withTxf []) hy hu he rfl rfl rfl ht1 rfl
      fun _ => ⟨_, rfl, quietRun_flushTx (ms := []) rfl hk hftx⟩
    exact ⟨t, hx, htxf, hrxf, hst, hmem⟩
  case flushRx =>
    obtain ⟨t, hx, -, hst, htxf, hrxf, hmem⟩ := command_quiet_peer (op := codeFlushRx) (addr := addr) (val := v)
      (prog := flushRxProgram) (r := s.result) (q := s.peer.withRxf []) hy hu he rfl rfl rfl ht1 rfl
      fun _ => ⟨_, rfl, quietRun_flushRx (ms := []) rfl hk hfrx⟩
    exact ⟨t, hx, hrxf, htxf, hst, hmem⟩

/-! ## The radio -/

/-- With the host silent and nobody else to run, an idle step only lets time pass (R190, R213). -/
theorem step_elapses {s : State} (hw : s.cfg.wellFormed = true) (hh : s.host = []) (hs : s.seq = .idle) (hb : s.busOut = none)
    (hr : s.running = false) (hd : s.irqDue = false) : step s = .next (elapse s) := by
  have hn : NoRst s := by simp [NoRst, rstDue, hh, movesRst]
  have hwait : { s with host := hostAfterWait s } = s := by
    rw [show hostAfterWait s = s.host by simp [hostAfterWait, hh, movesAfterWait]]
  have hnone : presented s = none := by simp [presented, hh, presentedBy]
  rw [step_without_rst hw hn, hwait]
  exact stepBlock_elapses hs hb hd (fun h => absurd (hr.symm.trans h) Bool.false_ne_true) fun _ => hnone

/-- The environment's move while time passes is its next one (R212). -/
theorem elapse_move {s : State} {m : EnvMove} {rest : List EnvMove} (h : s.env = m :: rest) :
    elapse s = sample (applyEnv m { s with env := rest }) := by
  simp [elapse, h]

@[simp] theorem applyEnv_env (m : EnvMove) (s : State) : (applyEnv m s).env = s.env := by
  cases m <;> rfl

section
variable {p : Params} {q : Peer}

/-- Deliver at the reference peer (R61). -/
theorem deliver_reference (hk : q.kind = .reference) (ce : Bool) (pl : Payload) :
    q.deliver p ce pl =
      if ce = true ∧ q.config p &&& p.mPwrUp ≠ 0 ∧ q.config p &&& p.mPrimRx ≠ 0 ∧ q.rxf.length < fifoDepth then
        { q with rxf := q.rxf ++ [pl], st := q.st ||| p.mRxDr }
      else q := by
  simp only [Peer.deliver, hk]
  refine if_congr ?_ rfl rfl
  simp only [Bool.and_eq_true, decide_eq_true_eq, Bool.not_eq_true', beq_eq_false_iff_ne, and_assoc]
  tauto

/-- SendDone at the reference peer (R61). -/
theorem sendDone_reference (hk : q.kind = .reference) (ok : Bool) :
    q.sendDone p ok =
      if q.pulse = true then
        if ok then { q with pulse := false, txf := q.txf.tail, st := q.st ||| p.mTxDs }
        else { q with pulse := false, st := q.st ||| p.mMaxRt }
      else q := by
  simp only [Peer.sendDone, hk]

/-- A flag pulls the line exactly when it is set and not masked (R62). -/
theorem pullsLine_iff {st flag config mask : Byte} :
    pullsLine st flag config mask = true ↔ st &&& flag ≠ 0 ∧ config &&& mask = 0 := by
  simp [pullsLine]

/-- The reference peer holds IRQ_N low exactly when one of the three flags pulls it (R62). -/
theorem line_low_iff (p : Params) (q : Peer) :
    q.line p = false ↔
      (q.st &&& p.mRxDr ≠ 0 ∧ q.config p &&& 0x40 = 0) ∨ (q.st &&& p.mTxDs ≠ 0 ∧ q.config p &&& p.mMaskTxDs = 0)
        ∨ (q.st &&& p.mMaxRt ≠ 0 ∧ q.config p &&& p.mMaskMaxRt = 0) := by
  simp only [Peer.line, Bool.not_eq_false', Bool.or_eq_true, pullsLine_iff, mMaskRxDr, or_assoc]

end

/-- What the step samples at the reference peer is the line the peer drives after the environment's move (R62, R212). -/
theorem elapse_irqPrev {s : State} (hk : s.peer.kind = .reference) : (elapse s).irqPrev = (elapse s).peer.line s.cfg := by
  have hkind : (elapse s).peer.kind = .reference := (elapse_peer s).1.trans hk
  have hsample : (elapse s).irqPrev = irqLine (elapse s) := by unfold elapse; split <;> rfl
  rw [hsample, irqLine, hkind, elapse_cfg]

/-- Settles O53: the idle step lets time pass, the move is `applyEnv`, and the level sampled is the peer's line after it. -/
theorem radioEventsAtTheReferencePeer : Obligations.RadioEventsAtTheReferencePeer := by
  intro s m rest hw hh hs hb hr hd hk he
  have hmove := elapse_move he
  have hpeer : (elapse s).peer = (applyEnv m { s with env := rest }).peer := by rw [hmove]; rfl
  refine ⟨elapse s, step_elapses hw hh hs hb hr hd, elapse_block s, elapse_trace s, ?env, ?quiet, ?deliver, ?done, ?failed, ?line⟩
  case env => rw [hmove, sample_env, applyEnv_env]
  case quiet => rintro rfl; exact hpeer
  case deliver => rintro pl rfl; exact hpeer.trans (deliver_reference hk s.ce pl)
  case done =>
    rintro pl queue rfl htxf
    refine hpeer.trans ((sendDone_reference hk true).trans ?_)
    rw [htxf]
    rfl
  case failed => rintro rfl; exact hpeer.trans (sendDone_reference hk false)
  case line => rw [elapse_irqPrev hk]; exact line_low_iff _ _

end Sys2Proof.Machine
end

section
/-! PROOFS of the statements about the encodings of the command word (R70, R71, R74, R75) and of the wire command byte (R76, R78). -/

namespace Sys2Proof.Machine

/-! ## Decoding what was encoded -/

theorem decodeCommand_commandWord (op : Byte) (addr : Addr) (val : Byte) :
    decodeCommand (commandWord op addr val) = decodeFields op addr val := by
  simp [decodeCommand]

/-- An instruction with a command word is decoded when its code selects it (R70, R71). -/
theorem decode_encode_command {p : Params} {i : Instr} {op : Byte} {addr : Addr} {val : Byte}
    (he : encode p i = .command (commandWord op addr val)) (hd : decodeFields op addr val = .ok i) :
    decode p (encode p i) = .ok i := by
  rw [he]
  exact (decodeCommand_commandWord op addr val).trans hd

/-- An instruction with a wire command byte is decoded when R78 reads that byte as its command. -/
theorem decode_encode_wire {p : Params} {b : Byte} {c : WireCmd} (he : encode p c.toInstr = .wire b)
    (hd : decodeWireCmd p b = some c) : decode p (encode p c.toInstr) = .ok c.toInstr := by
  simp [he, decode, decodeWire, hd]

/-- Settles O2: a command word gives back its fields, and of a wire command byte R78's order finds the command, by the opcodes'
distinctness and, for the register forms, by `NoCollision`. -/
theorem decodeOfEncodeIsTheInstruction : Obligations.DecodeOfEncodeIsTheInstruction := by
  intro p i hw hc
  obtain ⟨hrx, htx, hftx, hfrx, hnop⟩ := decodeWireCmd_fixed hw
  cases i
  case wRRegister a => exact decode_encode_wire (c := .readReg a) rfl (decodeWireCmd_read hw hc a)
  case wWRegister a => exact decode_encode_wire (c := .writeReg a) rfl (decodeWireCmd_write hw hc a)
  case wRRxPayload => exact decode_encode_wire (c := .readRxPayload) rfl hrx
  case wWTxPayload => exact decode_encode_wire (c := .writeTxPayload) rfl htx
  case wFlushTx => exact decode_encode_wire (c := .flushTx) rfl hftx
  case wFlushRx => exact decode_encode_wire (c := .flushRx) rfl hfrx
  case wNop => exact decode_encode_wire (c := .nop) rfl hnop
  all_goals exact decode_encode_command rfl rfl

/-! ## Encoding what was decoded -/

/-- A row of the table of operations: the encoder gives the operation the row's code, and it runs as a command of that code (R70, R72). -/
theorem operation_row : ∀ row ∈ operations, ∀ addr val,
    (∀ p, encode p (row.2 addr val) = .command (commandWord row.1 addr val))
      ∧ ∃ prog, ∀ s, exec (row.2 addr val) s = command row.1 addr val prog s := by
  intro row h
  fin_cases h <;> exact fun _ _ => ⟨fun _ => rfl, _, fun _ => rfl⟩

/-- The mask has a 0 exactly at the ignored bits 15:13 (R71). -/
theorem fieldMask_getLsbD : ∀ i < 24, (0xFF1FFF : CmdWord).getLsbD i = !(decide (13 ≤ i) && decide (i < 16)) := by
  decide

/-- A command word written again from its fields has lost its ignored bits 15:13 and nothing else (R71, R75). -/
theorem commandWord_fields (w : CmdWord) : commandWord w.op w.addr w.val = w &&& 0xFF1FFF := by
  apply BitVec.eq_of_getLsbD_eq
  intro i hi
  rw [BitVec.getLsbD_and, fieldMask_getLsbD i hi]
  simp only [commandWord, CmdWord.op, CmdWord.addr, CmdWord.val, BitVec.getLsbD_or, BitVec.getLsbD_shiftLeft, BitVec.getLsbD_setWidth,
    BitVec.getLsbD_extractLsb']
  obtain hval | ⟨hlow, haddr⟩ | ⟨hlow, hignored⟩ | hop :
      i < 8 ∨ (8 ≤ i ∧ i < 13) ∨ (13 ≤ i ∧ i < 16) ∨ 16 ≤ i := by omega
  · simp [hi, hval, show ¬ 13 ≤ i by omega, show i < 16 by omega]
  · simp [hi, hlow, show ¬ i < 8 by omega, show ¬ 13 ≤ i by omega, show i < 16 by omega, show i - 8 < 24 by omega,
      show i - 8 < 5 by omega]
  · simp [hlow, hignored, show ¬ i < 8 by omega, show ¬ i - 8 < 5 by omega]
  · simp [hi, hop, show ¬ i < 8 by omega, show ¬ i < 16 by omega, show ¬ i - 8 < 5 by omega, show i - 16 < 24 by omega,
      show i - 16 < 8 by omega]

/-- Settles O3: the word decodes to the operation of its code's row, with its two fields, and is written again from its fields. -/
theorem commandWordsEncodeBack : Obligations.CommandWordsEncodeBack := by
  intro p w i h
  obtain ⟨operation, hrow, rfl⟩ := decodeCommand_ok h
  rw [(operation_row _ hrow w.addr w.val).1 p, commandWord_fields]

/-! ## The reserved codes and the ignored bits -/

/-- The codes that stand in no row of the table are R74's ranges. -/
theorem code_unlisted_iff (op : Byte) :
    op ∉ operations.map Prod.fst ↔
      op = 0x00 ∨ (0x0D ≤ op.toNat ∧ op.toNat ≤ 0x0F) ∨ (0x17 ≤ op.toNat ∧ op.toNat ≤ 0x1F) ∨ 0x21 ≤ op.toNat := by
  revert op
  decide

/-- A field of a command word that holds none of bits 15:13 does not see a change of them (R71). -/
theorem field_ignores (w : CmdWord) (k : BitVec 3) {start len : Nat} (h : start + len ≤ 13 ∨ 16 ≤ start) :
    BitVec.extractLsb' start len (w ^^^ (k.setWidth 24 <<< 13)) = w.extractLsb' start len := by
  apply BitVec.eq_of_getLsbD_eq
  intro i hi
  have hk : BitVec.getLsbD (k.setWidth 24 <<< 13) (start + i) = false := by
    rcases h with h | h
    · simp [show start + i < 13 by omega]
    · simp [BitVec.getLsbD_of_ge k (start + i - 13) (by omega)]
  simp [hk]

/-- Settles O4: a word does not decode exactly when its code stands in no row of the table, and its three fields are all that decoding
reads of it. -/
theorem reservedCodesAreExactlyThose : Obligations.ReservedCodesAreExactlyThose := by
  constructor
  · intro w
    rw [← code_unlisted_iff, decodeCommand, decodeFields_error]
    simp
  · intro w k
    simp only [decodeCommand, CmdWord.op, CmdWord.addr, CmdWord.val]
    rw [field_ignores w k (.inr (by decide)), field_ignores w k (.inl (by decide)), field_ignores w k (.inl (by decide))]

/-- Settles O1: the table of operations and the default opcode table, looked up word by word. -/
theorem decodeReadsSpecWords : Obligations.DecodeReadsSpecWords :=
  ⟨rfl, rfl, rfl, rfl, rfl, rfl, rfl, rfl, rfl, rfl, rfl, rfl, rfl, rfl, rfl⟩

end Sys2Proof.Machine
end

section
/-! PROOFS of the statements about what a step makes of the host's word (R72, R74) and of a wire command byte (R76, R101). -/

namespace Sys2Proof.Machine

/-! ## A wire command byte -/

/-- The exchange of a wire byte whose transfer completes writes only the byte received (R101). -/
theorem exchangeByte_completes {b : Byte} {s : State} (h : TransfersComplete 1 s) :
    ∃ t r, exchangeByte b s = .next t ∧ t.block = { s.block with rx := r } ∧ t.trace = s.trace ++ [.x b r] ∧ t.busOut = none
      ∧ OutsideAfter 1 0 s t := by
  obtain ⟨r, t, hx, hblock, htrace, hhost, hanswers, hdbg, hpend, hbus⟩ :=
    xfer_completes (b := b) (completes_congr h (elapse_answers s))
  have hlooks : t.looks = (elapse s).looks := by
    have h1 := (transfer_looks b (elapse s)).1
    rwa [transfer, hx] at h1
  refine ⟨sample t, r, by simp only [exchangeByte, hx], by simpa using hblock, by simpa using htrace, hbus, ?_⟩
  exact ⟨by simpa using hhost, by simpa using hanswers, by simpa using hdbg,
    fun hp => sample_keeps_pending (hpend.trans (elapse_keeps_pending hp)), hlooks.trans (elapse_looks s)⟩

/-- Settles O30: each wire command is the exchange of its byte. -/
theorem wireCommandsExchangeTheirByte : Obligations.WireCommandsExchangeTheirByte := by
  intro s a h
  have hx (b : Byte) := exchangeByte_completes (b := b) h
  exact ⟨hx _, hx _, hx _, hx _, hx _, hx _, hx _⟩

/-! ## What the step does with a word -/

/-- A ready block accepts the word presented (R72). -/
theorem stepBlock_accepts {s : State} (w : CmdWord) (hr : s.ready = true) (hb : s.busOut = none) :
    stepBlock (some w) s = acceptWord w { s with host := hostAfterAccept s } := by
  obtain ⟨hseq, hrun, hirq⟩ := ready_iff.mp hr
  simp [stepBlock, idleStep, hseq, hb, hirq, hrun]

/-- With no RST in it, a ready block's step accepts the word presented (R72). -/
theorem step_accepts {s : State} {w : CmdWord} (hw : s.cfg.wellFormed = true) (hn : NoRst s) (hr : s.ready = true)
    (hb : s.busOut = none) (hp : presented s = some w) :
    step s = acceptWord w { s with host := movesAfterAccept (hostAfterWait s) } := by
  rw [step_without_rst hw hn, hp]
  exact stepBlock_accepts w hr hb

/-- A word at the head of the host's moves is presented, with no RST before it (R72, R250). -/
theorem presents_command {s : State} {w : CmdWord} {rest : List HostMove} (h : s.host = .command w :: rest) :
    NoRst s ∧ presented s = some w ∧ hostAfterWait s = s.host ∧ movesAfterAccept (hostAfterWait s) = rest := by
  simp [NoRst, rstDue, movesRst, presented, presentedBy, hostAfterWait, movesAfterWait, movesAfterAccept, h]

/-- Settles O7: a ready block's step is `acceptWord`, and a byte in exchange on an idle bus is `acceptWire`, each of which is the exec of
what it decodes to. -/
theorem stepRunsTheDecodedInstruction : Obligations.StepRunsTheDecodedInstruction := by
  constructor
  · intro s w rest i hw hh hr hb hd
    obtain ⟨hn, hp, -, hrest⟩ := presents_command hh
    rw [step_accepts hw hn hr hb hp, hrest]
    simp only [acceptWord, hd]
  · intro s b i hw hn hs hb hd
    rw [step_without_rst hw hn]
    simp only [stepBlock, idleStep, acceptWire, hs, hb, hd]

/-- Settles O9: a reserved code is a command whose micro-sequence is one raise of BAD_OP. -/
theorem reservedCodeRaisesBadOp : Obligations.ReservedCodeRaisesBadOp := by
  intro s w rest e hw hh hr hu hb hd
  obtain ⟨hn, hp, -, hrest⟩ := presents_command hh
  have hstep : step s = command w.op w.addr w.val reservedProgram { s with host := rest } := by
    rw [step_accepts hw hn hr hb hp, hrest]
    simp only [acceptWord, hd, execReserved]
  obtain ⟨t, d, hx, hblock, htrace, hhost, hanswers, -⟩ :=
    command_completes (n := 0) (k := 0) (op := w.op) (addr := w.addr) (val := w.val) (prog := reservedProgram)
      (s := { s with host := rest }) hr hu rfl rfl rfl rfl rfl
  have hmem : MemoryKeptOutside [] { s with host := rest } t := command_keepsMemoryOutside (storesOnly_offBus rfl) hx
  exact ⟨t, hstep.trans hx, hblock, htrace.trans (List.append_nil _), hhost, hanswers, hmem⟩

/-! ## A step that accepts no word -/

/-- The host's moves and the registers of the command accepted last are the same (R14). -/
def CommandKept (s t : State) : Prop :=
  t.host = s.host ∧ t.op = s.op ∧ t.argAddr = s.argAddr ∧ t.argVal = s.argVal

/-- No micro-operation writes the command's registers (R14). -/
theorem viewMicro_command (m : Micro) (r : Byte) (v : BlockView) :
    (viewMicro m r v).op = v.op ∧ (viewMicro m r v).argAddr = v.argAddr ∧ (viewMicro m r v).argVal = v.argVal := by
  cases m
  case count => simp only [viewMicro, viewEffect]; split <;> [split; skip] <;> exact ⟨rfl, rfl, rfl⟩
  all_goals exact ⟨rfl, rfl, rfl⟩

/-- A run reads no move of the host and writes none of the command's registers, to whatever point it comes. -/
theorem runMicros_commandKept (ms : List Micro) (s : State) : CommandKept s (runMicros ms s) := by
  refine ⟨runMicros_host ms s, ?_⟩
  refine runMicros_keeps (P := fun u => u.block.op = s.op ∧ u.block.argAddr = s.argAddr ∧ u.block.argVal = s.argVal)
    ⟨fun _ _ h => h, fun _ _ h => h, fun _ _ h => h⟩ ?_ (fun _ h => h) ⟨rfl, rfl, rfl⟩
  intro m u hu
  rcases micro_cases m u with ⟨-, r, t, he, hb, -⟩ | ⟨-, t, he, hb, -⟩ | ⟨-, t, he, -, hb⟩ | ⟨-, -, t, -, hb, he⟩ <;>
    simp only [he, Flow.state, hb]
  · obtain ⟨hop, haddr, hval⟩ := viewMicro_command m r u.block
    obtain ⟨hop', haddr', hval'⟩ := hu
    exact ⟨hop.trans hop', haddr.trans haddr', hval.trans hval'⟩
  all_goals exact hu

theorem elapse_commandKept (s : State) : CommandKept s (elapse s) :=
  ⟨elapse_host s, elapse_op s, elapse_argAddr s, elapse_argVal s⟩

/-- Whoever has the step but a word, the command's registers are kept: a sequence in progress, the handler, the Node Loop, or nobody
(R190, R213). -/
theorem stepBlock_commandKept {w : Option CmdWord} {s t : State} (hb : s.seq = .idle → s.busOut = none)
    (h : w = none ∨ s.ready = false) (hx : stepBlock w s = .next t) : CommandKept s t := by
  unfold stepBlock at hx
  split at hx
  case h_1 | h_2 =>
    injection hx with hx
    exact hx ▸ runMicros_commandKept _ s
  case h_3 hs =>
    simp only [idleStep, hb hs] at hx
    split at hx
    · injection hx with hx
      exact hx ▸ runMicros_commandKept _ (enterHandler s)
    · split at hx
      · injection hx with hx
        subst hx
        unfold nodeLoopStep
        split
        · split
          · exact runMicros_commandKept _ (startCycle s)
          · exact elapse_commandKept s
        · exact runMicros_commandKept _ (startCycle s)
      · rename_i hirq hrun
        have hr : s.ready = true := ready_iff.mpr ⟨hs, by simpa using hrun, by simpa using hirq⟩
        obtain rfl : w = none := h.resolve_right (by simp [hr])
        injection hx with hx
        exact hx ▸ elapse_commandKept s

/-- A step that accepts no word uses up what the host's moves lose by waiting, and keeps the command's registers. -/
theorem step_waits {s : State} (hw : s.cfg.wellFormed = true) (hn : NoRst s) (hb : s.seq = .idle → s.busOut = none)
    (h : presented s = none ∨ s.ready = false) :
    ∃ t, step s = .next t ∧ t.host = hostAfterWait s ∧ t.op = s.op ∧ t.argAddr = s.argAddr ∧ t.argVal = s.argVal := by
  obtain ⟨t, hx⟩ := stepBlock_next (presented s) { s with host := hostAfterWait s }
  exact ⟨t, (step_without_rst hw hn).trans hx, stepBlock_commandKept (s := { s with host := hostAfterWait s }) hb h hx⟩

/-! ## A word is accepted or waits -/

/-- A ready block accepts a word by its code and its two fields, also where the code is reserved (R72, R74), and runs a micro-sequence. -/
theorem acceptWord_runs (w : CmdWord) {s : State} (hr : s.ready = true) :
    ∃ ms, acceptWord w s = .next (runMicros ms (accept w.op w.addr w.val s)) := by
  unfold acceptWord
  split
  · rename_i i hd
    obtain ⟨operation, hrow, rfl⟩ := decodeCommand_ok hd
    obtain ⟨prog, hx⟩ := (operation_row _ hrow w.addr w.val).2
    exact ⟨_, (hx s).trans (if_pos hr)⟩
  · exact ⟨_, if_pos hr⟩

/-- A presented word is accepted when the block is ready and waits when it is not (R72). -/
theorem step_presented {s : State} {w : CmdWord} (hw : s.cfg.wellFormed = true) (hn : NoRst s) (hb : s.seq = .idle → s.busOut = none)
    (hp : presented s = some w) :
    ∃ t, step s = .next t
      ∧ (s.ready = true →
        t.host = movesAfterAccept (hostAfterWait s) ∧ t.op = w.op ∧ t.argAddr = w.addr ∧ t.argVal = w.val)
      ∧ (s.ready = false → t.host = hostAfterWait s ∧ t.op = s.op ∧ t.argAddr = s.argAddr ∧ t.argVal = s.argVal) := by
  cases hr : s.ready
  · obtain ⟨t, hx, hwait⟩ := step_waits hw hn hb (.inr hr)
    exact ⟨t, hx, nofun, fun _ => hwait⟩
  · have hacc := step_accepts hw hn hr (hb (ready_iff.mp hr).1) hp
    obtain ⟨ms, hms⟩ := acceptWord_runs w (s := { s with host := movesAfterAccept (hostAfterWait s) }) hr
    exact ⟨_, hacc.trans hms, fun _ => runMicros_commandKept ms (accept w.op w.addr w.val _), nofun⟩

/-- The host's repeating move presents its word while the block is not busy and RESULT is not 0x00, and is given up where RESULT is 0x00
(R73, R82; log entry 6). -/
theorem presents_again {s : State} {w : CmdWord} {rest : List HostMove} (h : s.host = .again w :: rest) :
    NoRst s ∧ presented s = (if s.busy || pollsDone s then none else some w)
      ∧ hostAfterWait s = (if pollsDone s then rest else s.host)
      ∧ (pollsDone s = false → movesAfterAccept (hostAfterWait s) = s.host) := by
  simp +contextual [NoRst, rstDue, movesRst, presented, presentedBy, hostAfterWait, movesAfterWait, movesAfterAccept, h]

/-- A word behind a coming RST is presented meanwhile, and RST comes one step nearer (R72, R250). -/
theorem presents_before_rst {s : State} {n : Nat} {w : CmdWord} {rest : List HostMove}
    (h : s.host = .rstAfter (n + 1) :: .command w :: rest) :
    NoRst s ∧ presented s = some w ∧ hostAfterWait s = .rstAfter n :: .command w :: rest
      ∧ movesAfterAccept (hostAfterWait s) = .rstAfter n :: rest := by
  simp [NoRst, rstDue, movesRst, presented, presentedBy, hostAfterWait, movesAfterWait, movesAfterAccept, h]

theorem not_busy_of_ready {s : State} (h : s.ready = true) : s.busy = false := by
  obtain ⟨hseq, hrun, -⟩ := ready_iff.mp h
  simp [State.busy, hseq, hrun]

/-- Settles O8: a presented word is `step_presented`; the repeating move presents its word but where the block is busy or RESULT is
0x00. -/
theorem commandAcceptedExactlyWhenReady : Obligations.CommandAcceptedExactlyWhenReady := by
  refine ⟨?command, ?again, ?rst⟩
  case command =>
    intro s w rest hw hh hb
    obtain ⟨hn, hp, hwait, haccept⟩ := presents_command hh
    have hstep := step_presented hw hn hb hp
    rwa [haccept, hwait] at hstep
  case rst =>
    intro s n w rest hw hh hb
    obtain ⟨hn, hp, hwait, haccept⟩ := presents_before_rst hh
    have hstep := step_presented hw hn hb hp
    rwa [haccept, hwait] at hstep
  case again =>
    intro s w rest hw hh hb
    obtain ⟨hn, hp, hwait, haccept⟩ := presents_again hh
    cases hbusy : s.busy
    case true =>
      have hdone : pollsDone s = false := by simp [pollsDone, hbusy]
      simp only [hbusy, hdone, Bool.true_or, if_true, Bool.false_eq_true, if_false] at hp hwait
      obtain ⟨t, hx, hhost, hop, -⟩ := step_waits hw hn hb (.inl hp)
      refine ⟨t, hx, fun hr => ?_, fun _ => ⟨hhost.trans hwait, hop⟩, nofun⟩
      exact absurd (hbusy.symm.trans (not_busy_of_ready hr)) (by decide)
    case false =>
      by_cases hres : s.result = 0
      · have hdone : pollsDone s = true := by simp [pollsDone, hbusy, hres]
        simp only [hdone, Bool.or_true, if_true] at hp hwait
        obtain ⟨t, hx, hhost, hop, -⟩ := step_waits hw hn hb (.inl hp)
        exact ⟨t, hx, fun _ h => absurd hres h, nofun, fun _ _ => ⟨hhost.trans hwait, hop⟩⟩
      · have hdone : pollsDone s = false := by simpa [pollsDone, hbusy] using hres
        simp only [hbusy, hdone, Bool.or_false, Bool.false_eq_true, if_false] at hp
        obtain ⟨t, hx, hready, -⟩ := step_presented hw hn hb hp
        rw [haccept hdone] at hready
        exact ⟨t, hx, fun hr _ => hready hr, nofun, fun _ h => absurd h hres⟩

end Sys2Proof.Machine
end

section
/-! PROOFS of the statements about the sequencer's invariant (R12, R13, R103, R110), which an idle step keeps because it starts only sound
micro-sequences, and about waits that never end (R103, R222, R266). -/

namespace Sys2Proof.Machine

/-! ## The parts of a step keep the sequencer's invariant -/

/-- RST empties the trace and what is left to do, with CSN high (R33). -/
theorem sequencerInv_resetBlock (s : State) : SequencerInv (resetBlock s) :=
  ⟨⟨.closed false, rfl, rfl, false, rfl⟩, fun _ => ⟨rfl, rfl, rfl⟩, fun h => absurd rfl h, rfl, nofun⟩

/-- Time passing touches nothing that the invariant speaks of. -/
theorem sequencerInv_elapse {s : State} (h : SequencerInv s) : SequencerInv (elapse s) := by
  simpa [SequencerInv] using h

/-- A sequence in progress stands before what is left of it (R12). -/
theorem before_todo {s : State} (h : SequencerInv s) (hs : s.seq ≠ .idle) : Before s.todo s := by
  obtain ⟨hframes, -, -, hnlpc, hbus⟩ := h
  exact ⟨hframes, hnlpc, hbus, hs⟩

/-- With SEQ = Idle no exchange is in progress and the Node Loop stands at NL_CHECK (R13). -/
theorem bus_nlpc_of_idle {s : State} (h : SequencerInv s) (hs : s.seq = .idle) : s.busOut = none ∧ s.nlpc = .check := by
  obtain ⟨-, hidle, -, hnlpc, -⟩ := h
  obtain ⟨htodo, -, hbus⟩ := hidle hs
  rw [htodo] at hnlpc
  exact ⟨hbus, hnlpc⟩

/-- The handler starts between frames (R213, R215). -/
theorem sequencerInv_capture {s : State} (h : SequencerInv s) (hs : s.seq = .idle) : SequencerInv (capture s) :=
  start_inv h hs (sound_capture s.cfg) rfl rfl rfl rfl rfl nofun

/-- So does the Node Loop's cycle; its idle iteration only lets time pass (R190). -/
theorem sequencerInv_nodeLoopStep {s : State} (h : SequencerInv s) (hs : s.seq = .idle) : SequencerInv (nodeLoopStep s) := by
  simp only [nodeLoopStep, (bus_nlpc_of_idle h hs).2]
  split
  · exact start_inv h hs (sound_cycle s.cfg s.txbuf) rfl rfl rfl rfl rfl nofun
  · exact sequencerInv_elapse h

/-- So does a command's micro-sequence (R72). -/
theorem sequencerInv_command {op : Byte} {addr : Addr} {val : Byte} {prog : State → List Micro} {s t : State} (h : SequencerInv s)
    (hp : ∀ u : State, Sound u.cfg.tSettle (prog u)) (hx : command op addr val prog s = .next t) : SequencerInv t := by
  unfold command at hx
  split at hx <;> injection hx with hx <;> subst hx
  · exact start_inv h (ready_iff.mp ‹_›).1 (hp (accept op addr val s)) rfl rfl rfl rfl rfl nofun
  · exact h

/-- A presented word, reserved or not, is a command with a sound micro-sequence (R70, R74). -/
theorem acceptWord_command (w : CmdWord) (s : State) :
    ∃ op addr val prog, acceptWord w s = command op addr val prog s ∧ ∀ u : State, Sound u.cfg.tSettle (prog u) := by
  unfold acceptWord
  split
  · rename_i i hd
    obtain ⟨operation, hrow, rfl⟩ := decodeCommand_ok hd
    refine (exec_cases _ s).resolve_right ?_
    rintro ⟨b, hb, -⟩
    rw [(operation_row _ hrow w.addr w.val).1] at hb
    cases hb
  · exact ⟨_, _, _, reservedProgram, rfl, fun _ => sound_one rfl rfl⟩

/-- Whoever has the idle step keeps the invariant: the handler, the Node Loop, a word, or nobody (R190, R213). -/
theorem sequencerInv_idleStep {w : Option CmdWord} {s t : State} (h : SequencerInv s) (hs : s.seq = .idle)
    (hx : idleStep w s = .next t) : SequencerInv t := by
  unfold idleStep at hx
  split at hx
  · rename_i hbus
    rw [(bus_nlpc_of_idle h hs).1] at hbus
    cases hbus
  split at hx
  · injection hx with hx
    exact hx ▸ sequencerInv_capture h hs
  split at hx
  · injection hx with hx
    exact hx ▸ sequencerInv_nodeLoopStep h hs
  split at hx
  · rename_i cw
    obtain ⟨op, addr, val, prog, hcommand, hsound⟩ := acceptWord_command cw { s with host := hostAfterAccept s }
    exact sequencerInv_command (s := { s with host := hostAfterAccept s }) h hsound (hcommand.symm.trans hx)
  · injection hx with hx
    exact hx ▸ sequencerInv_elapse h

/-- With a sequence in progress the block's step goes on with it (R12). -/
theorem stepBlock_resumes {w : Option CmdWord} {s : State} (hs : s.seq ≠ .idle) : stepBlock w s = .next (resume s) := by
  unfold stepBlock
  split
  · rfl
  · rfl
  · exact absurd ‹_› hs

/-- A step without RST keeps the invariant: a sequence in progress by `run_inv`, an idle step by what it starts. -/
theorem sequencerInv_stepBlock {w : Option CmdWord} {s t : State} (h : SequencerInv s) (hx : stepBlock w s = .next t) :
    SequencerInv t := by
  by_cases hs : s.seq = .idle
  · simp only [stepBlock, hs] at hx
    exact sequencerInv_idleStep h hs hx
  · rw [stepBlock_resumes hs] at hx
    injection hx with hx
    exact hx ▸ run_inv (before_todo h hs)

/-- Settles O42: RST gives the invariant, and any other step keeps it. -/
theorem stepKeepsSequencerInvariant : Obligations.StepKeepsSequencerInvariant := by
  intro s t h hx
  cases hw : s.cfg.wellFormed
  · rw [step_refuses_illFormed hw] at hx
    cases hx
  cases hr : rstDue s
  · rw [step_without_rst hw hr] at hx
    exact sequencerInv_stepBlock (s := { s with host := hostAfterWait s }) h hx
  · rw [step_rst hw hr] at hx
    injection hx with hx
    exact hx ▸ sequencerInv_resetBlock _

/-! ## Waits that never end -/

/-- The block, its trace and the scripts of its waits stand still. -/
def StandsStill (s t : State) : Prop := t.block = s.block ∧ t.trace = s.trace ∧ t.answers = s.answers ∧ t.dbg = s.dbg

/-- A transfer that never completes is held, in progress, its script's entry not used up (R103). -/
theorem micro_never_transfer {m : Micro} {s : State} {rest : List Answer} (hm : transfersByte m = true)
    (ha : s.answers = .never :: rest) : ∃ t, micro m s = .hold t ∧ StandsStill s t ∧ t.busOut.isSome = true := by
  obtain ⟨heffect, hsteps, -⟩ := micro_transfer hm s
  refine ⟨sample { elapse s with busOut := some (sentByte s.tmp m) }, ?_, ⟨elapse_block s, ?_, ?_, ?_⟩, rfl⟩
  · rw [micro, heffect, hsteps, transfer, xfer_never (by simpa using ha)]
    rfl
  all_goals simp

/-- So is a debug handshake that never completes (R222). -/
theorem micro_never_echo {s : State} {rest : List Ready} (hd : s.dbg = .never :: rest) :
    ∃ t, micro .echo s = .hold t ∧ StandsStill s t := by
  refine ⟨sample (elapse s), ?_, elapse_block s, ?_, ?_, ?_⟩
  · simp only [micro, effect, dbgOut, elapse_dbg, hd]
    rfl
  all_goals simp

/-- A sequence whose coming micro-operation is held stops before it, at the host's look or at the wait. -/
theorem resume_held {s u : State} {m : Micro} {ms : List Micro} (htodo : s.todo = m :: ms) (hm : micro m (towardsLook s) = .hold u) :
    resume s = if lookDue s then { lookDone s with todo := s.todo } else { u with todo := s.todo } := by
  rw [resume, htodo, runMicros_cons, hm]

/-- Where the coming micro-operation is held and the block stands still meanwhile, it stands still over the whole step, which ends before
that micro-operation whether the host looks there or not. -/
theorem step_held {s u : State} {m : Micro} {ms : List Micro} (hw : s.cfg.wellFormed = true) (hn : NoRst s) (hs : s.seq ≠ .idle)
    (htodo : s.todo = m :: ms) (hm : micro m (towardsLook { s with host := hostAfterWait s }) = .hold u) (hu : StandsStill s u) :
    ∃ t, step s = .next t ∧ StandsStill s t ∧ t.todo = s.todo ∧ (Unwatched s → t.busOut = u.busOut) := by
  refine ⟨_, (step_without_rst hw hn).trans (stepBlock_resumes hs), ?_⟩
  rw [resume_held (s := { s with host := hostAfterWait s }) htodo hm]
  split
  · rename_i hlook
    refine ⟨⟨rfl, rfl, rfl, rfl⟩, rfl, fun hl => ?_⟩
    simp [lookDue, hl] at hlook
  · exact ⟨hu, rfl, fun _ => rfl⟩

/-- Settles O40: the coming micro-operation is a held wait. -/
theorem waitsThatNeverEndHoldTheSequencer : Obligations.WaitsThatNeverEndHoldTheSequencer := by
  constructor
  · intro s m ms rest hw hn hs htodo htransfer ha
    obtain ⟨u, hm, hu, hbus⟩ :=
      micro_never_transfer (s := towardsLook { s with host := hostAfterWait s }) htransfer ha
    obtain ⟨t, hx, ⟨hblock, htrace, hanswers, -⟩, hleft, hbusOut⟩ := step_held hw hn hs htodo hm hu
    exact ⟨t, hx, hblock, htrace, hleft, hanswers, fun hl => by rw [hbusOut hl, hbus]⟩
  · intro s ms rest hw hn hs htodo hd
    obtain ⟨u, hm, hu⟩ := micro_never_echo (s := towardsLook { s with host := hostAfterWait s }) hd
    obtain ⟨t, hx, ⟨hblock, htrace, -, hdbg⟩, hleft, -⟩ := step_held hw hn hs htodo hm hu
    exact ⟨t, hx, hblock, htrace, hleft, hdbg⟩

end Sys2Proof.Machine
end

section
/-! PROOFS of the statement about what an oracle peer answers (R31, R101): under it a micro-sequence receives the scripted bytes. -/

namespace Sys2Proof.Machine

/-- No move of the environment changes what an oracle peer holds (R31, R61). -/
theorem elapse_oracle {s : State} (h : s.peer.kind = .oracle) : (elapse s).peer = s.peer := by
  unfold elapse
  split
  · rfl
  · rename_i m _ _
    cases m
    case deliver pl => simp [applyEnv, Peer.deliver, h]
    case sendDone ok => simp [applyEnv, Peer.sendDone, h]
    all_goals rfl

/-- At an oracle peer a micro-operation that waits for nothing leaves the peer alone. -/
theorem micro_oracle_plain {m : Micro} {s t : State} (h : s.peer.kind = .oracle) (hm : operational m = true)
    (ht : transfersByte m = false) (hx : micro m s = .more t) : t.peer = s.peer := by
  have helapse := elapse_oracle h
  unfold micro at hx
  cases m
  case csn level => cases hx; simp [Peer.onCsn, helapse, h]
  case ce level => cases hx; simp [Peer.onCe, helapse, h]
  case send | sendRmw => cases ht
  case echo | count | poll | pollTest => exact absurd hm (by decide)
  all_goals cases hx; exact helapse

/-- At an oracle peer a transfer receives the scripted byte (R31, R101). -/
theorem micro_oracle_transfer {m : Micro} {s : State} {r : Byte} {rest : List Answer} (h : s.peer.kind = .oracle)
    (ht : transfersByte m = true) (ha : s.answers = .byte r :: rest) :
    ∃ t, micro m s = .more t ∧ t.block = viewMicro m r s.block ∧ t.trace = s.trace ++ eventsMicro m r s.block ∧ t.answers = rest
      ∧ t.peer = s.peer := by
  obtain ⟨heffect, hsteps, hevents, hview⟩ := micro_transfer ht s
  have helapse := elapse_oracle h
  have hx := xfer_oracle (b := sentByte s.tmp m) (s := elapse s) (by rw [helapse, h]) (by rw [elapse_answers, ha])
  refine ⟨sample { emit (.x (sentByte s.tmp m) r) { elapse s with answers := rest, busOut := none, rx := r } with
    upc := (elapse s).upc + 1 }, ?_, ?_, ?_, rfl, helapse⟩
  · rw [micro, heffect, hsteps, transfer, hx]
    rfl
  · rw [hview, ← elapse_block s]
    rfl
  · simp [hevents]

/-- Under an oracle peer a micro-sequence with no wait but its transfers receives the scripted bytes, one per transfer, and uses them
up (R31, R101). -/
theorem runList_oracle (ms : List Micro) (rs : List Byte) (s : State) {rest : List Answer} (hl : s.looks = [])
    (hms : ms.all operational = true) (hn : rs.length = ms.countP transfersByte) (h : s.peer.kind = .oracle)
    (ha : s.answers = rs.map .byte ++ rest) :
    ∃ t, runList ms s = .finished t ∧ t.block = viewRun ms rs s.block ∧ t.trace = s.trace ++ eventsRun ms rs s.block
      ∧ t.answers = rest := by
  induction ms generalizing s rs with
  | nil =>
    obtain rfl : rs = [] := List.length_eq_zero_iff.mp hn
    exact ⟨s, rfl, rfl, by simp [eventsRun], ha⟩
  | cons m ms ih =>
    obtain ⟨hm, hms⟩ := Bool.and_eq_true_iff.mp hms
    by_cases ht : transfersByte m = true
    · rw [List.countP_cons_of_pos ht] at hn
      obtain ⟨r, rs, rfl⟩ := List.exists_cons_of_length_eq_add_one hn
      obtain ⟨u, hx, hblock, htrace, hanswers, hpeer⟩ := micro_oracle_transfer h ht ha
      obtain ⟨t, hrun, hb, htr, hrest⟩ :=
        ih rs u ((micro_more_looks hx).1.trans hl) hms (Nat.succ.inj hn) (by rw [hpeer, h]) hanswers
      refine ⟨t, by rw [runList_cons hl, hx]; exact hrun, ?_, ?_, hrest⟩
      · simp [viewRun, ht, hb, hblock]
      · simp [eventsRun, ht, htr, htrace, hblock]
    · have ht' : transfersByte m = false := by simpa using ht
      rw [List.countP_cons_of_neg ht] at hn
      obtain ⟨hg, hecho⟩ : goesOn m = true ∧ echoesByte m = false := by
        simp only [operational, Bool.and_eq_true, Bool.not_eq_true'] at hm
        exact hm.1
      obtain ⟨u, hx, hblock, htrace, hanswers, -⟩ := micro_plain (s := s) ht' hg hecho
      have hpeer := micro_oracle_plain h hm ht' hx
      obtain ⟨t, hrun, hb, htr, hrest⟩ :=
        ih rs u ((micro_more_looks hx).1.trans hl) hms hn (by rw [hpeer, h]) (hanswers.trans ha)
      refine ⟨t, by rw [runList_cons hl, hx]; exact hrun, ?_, ?_, hrest⟩
      · simp [viewRun, ht, hb, hblock]
      · simp [eventsRun, ht, htr, htrace, hblock]

/-- Settles O14: RDREG's micro-sequence is a read frame and two stores, and of the two bytes received the second is stored. -/
theorem rdregReceivesWhatTheOracleAnswers : Obligations.RdregReceivesWhatTheOracleAnswers := by
  intro s addr val r0 r1 rest hr hl h ha
  obtain ⟨t, hrun, hblock, htrace, hanswers⟩ :=
    runList_oracle (rdregProgram (accept codeRdreg addr val s)) [r0, r1] (accept codeRdreg addr val s) hl rfl rfl h ha
  have hx : exec (.rdreg addr val) s = .next (toIdle t) := by
    show command codeRdreg addr val rdregProgram s = _
    rw [command, if_pos hr, runMicros, hrun]
  refine ⟨toIdle t, hx, ?_, ?_, hanswers⟩
  · rw [rdregProgram, viewRun_regRead] at hblock
    exact congrArg BlockView.result hblock
  · rw [rdregProgram, eventsRun_regRead] at htrace
    exact htrace.trans (by simp [eventsRun, eventsMicro, transfersByte])

end Sys2Proof.Machine
end

section
/-! PROOFS of the statements about what the Register Access Layer does to the block (R122 to R124): each operation is one frame, and
the laws of that frame say what is seen. -/

namespace Sys2Proof.Machine

/-- The block's view when SEQ has become Idle again (R72). -/
def backToIdle (v : BlockView) : BlockView := { v with seq := .idle, upc := 0 }

/-- A command without debug handshakes whose transfers complete, from the view and the events of its micro-sequence over any bytes
received. -/
theorem command_completes_as {op : Byte} {addr : Addr} {val : Byte} {prog : State → List Micro} {s : State} {n : Nat}
    {view : (Nat → Byte) → BlockView} {events : (Nat → Byte) → List Event}
    (hr : s.ready = true) (hu : Unwatched s) (ht : TransfersComplete n s)
    (hg : (prog (accept op addr val s)).all goesOn = true) (hn : (prog (accept op addr val s)).countP transfersByte = n)
    (hecho : (prog (accept op addr val s)).countP echoesByte = 0)
    (hview : ∀ d, backToIdle (viewRun (prog (accept op addr val s)) ((List.range n).map d) (accept op addr val s).block) = view d)
    (hevents : ∀ d, eventsRun (prog (accept op addr val s)) ((List.range n).map d) (accept op addr val s).block = events d) :
    ∃ (t : State) (d : Nat → Byte), command op addr val prog s = .next t ∧ t.block = view d ∧ t.trace = s.trace ++ events d
      ∧ OutsideAfter n 0 s t := by
  obtain ⟨t, d, hx, hblock, htrace, hout⟩ := command_completes hr hu hg hn hecho ht (by simp [EchoesComplete])
  exact ⟨t, d, hx, hblock.trans (hview d), htrace.trans (congrArg _ (hevents d)), hout⟩

/-- Settles O11: a read frame and two stores, of the byte received second. -/
theorem rdregReturnsTheRegister : Obligations.RdregReturnsTheRegister := fun _ _ _ hr hu ht =>
  command_completes_as (prog := rdregProgram) hr hu ht rfl rfl rfl (fun _ => congrArg backToIdle (viewRun_regRead ..))
    fun _ => (eventsRun_regRead ..).trans (List.append_nil _)

/-- Settles O12: a write frame of the command's value. -/
theorem wrregSendsTheValue : Obligations.WrregSendsTheValue := fun _ _ _ hr hu ht =>
  command_completes_as (prog := wrregProgram) hr hu ht rfl rfl rfl
    (fun _ => congrArg backToIdle (viewRun_regWrite (ms := []) ..))
    fun _ => (eventsRun_regWrite (ms := []) ..).trans (List.append_nil _)

/-- An address write goes on, makes six transfers and echoes nothing, whatever the five bytes (R109, R124). -/
theorem addrWrite_waits (p : Params) (a : Addr) (b : DeviceAddress) :
    (addrWrite p a b).all goesOn = true ∧ (addrWrite p a b).countP transfersByte = 6
      ∧ (addrWrite p a b).countP echoesByte = 0 := by
  rw [addrWrite, deviceAddress_toList]
  exact ⟨rfl, rfl, rfl⟩

/-- Settles O13: the word's code stands in the table, and the operation is an address frame of ABUF. -/
theorem wraddrStreamsTheFiveBytes : Obligations.WraddrStreamsTheFiveBytes := by
  intro s addr val hr hu ht
  have hword : decodeCommand (0x03#8 ++ 0b000#3 ++ addr ++ val) = .ok (.wraddr addr val) := decodeCommand_fields 0x03 addr val
  obtain ⟨hg, hn, hecho⟩ := addrWrite_waits s.cfg addr s.abuf
  refine ⟨hword, command_completes_as (prog := wraddrProgram) hr hu ht hg hn hecho (fun _ => ?view) fun _ => ?events⟩
  case view =>
    rw [wraddrProgram, ← List.append_nil (addrWrite ..)]
    exact congrArg backToIdle (viewRun_addrWrite ..)
  case events =>
    rw [wraddrProgram, ← List.append_nil (addrWrite ..)]
    exact (eventsRun_addrWrite ..).trans (List.append_nil _)

end Sys2Proof.Machine
end

section
/-! PROOFS of the statements about the registers of the reference peer (R58, R59, R125, R156): what a register write and then a register
read find there, and which bytes a list of register writes leaves. -/

namespace Sys2Proof.Machine

/-! ## The end of an operation and CE -/

/-- Unless CE is left high in transmit configuration, the end of an operation leaves the peer alone (R263; log entry 28). -/
theorem leftWithCe_eq_self {p : Params} {ce : Bool} {q : Peer} (h : ce = true → q.transmits p = false) : q.leftWithCe p ce = q := by
  unfold Peer.leftWithCe
  refine if_neg fun hc => ?_
  obtain ⟨hce, htr⟩ := Bool.and_eq_true_iff.mp hc
  exact Bool.false_ne_true ((h hce).symm.trans htr)

/-- Transmit configuration is power-up set and primary-receiver clear (R28). -/
theorem transmits_eq_false_iff {p : Params} {q : Peer} :
    q.transmits p = false ↔ q.config p &&& p.mPwrUp = 0 ∨ q.config p &&& p.mPrimRx ≠ 0 := by
  simp only [Peer.transmits, Bool.and_eq_false_iff, Bool.not_eq_false', beq_iff_eq, beq_eq_false_iff_ne, ne_eq]

/-- A register write puts the radio in transmit configuration only by a value that does so in the configuration register. -/
theorem stored_transmits {p : Params} {q : Peer} {a : Addr} {b : Byte} (hm : Memory.wf q.mem = true) (hq : q.transmits p = false)
    (hb : a = p.regConfig → b &&& p.mPwrUp = 0 ∨ b &&& p.mPrimRx ≠ 0) : (q.stored (regCell a 0) b).transmits p = false := by
  rw [transmits_eq_false_iff] at hq ⊢
  by_cases ha : a = p.regConfig
  · have hconfig : (q.stored (regCell a 0) b).config p = b := by rw [ha]; exact read_write_same _ _ hm
    rw [hconfig]
    exact hb ha
  · have hcell : regCell p.regConfig 0 ≠ regCell a 0 := fun h => ha (regCell_inj (by decide) (by decide) h).1.symm
    have hconfig : (q.stored (regCell a 0) b).config p = q.config p := read_write_other _ _ hcell
    rwa [hconfig]

/-! ## A register written and read back -/

/-- WRREG at the reference peer, undisturbed: byte 0 of the register holds the value, and what the next command needs of the outside
world is as it was (R59, R123). -/
theorem wrreg_reference {s : State} {addr : Addr} {v : Byte} (hw : s.cfg.wellFormed = true) (hc : NoCollision s.cfg)
    (ha : addr ≠ s.cfg.regStatus) (hk : s.peer.kind = .reference) (he : s.env = []) (hy : s.ready = true) (hu : Unwatched s)
    (ht : TransfersComplete 2 s) :
    ∃ t, exec (.wrreg addr v) s = .next t ∧ t.peer = (s.peer.stored (regCell addr 0) v).leftWithCe s.cfg s.ce ∧ t.cfg = s.cfg
      ∧ t.env = [] ∧ Unwatched t ∧ t.answers = s.answers.drop 2 := by
  obtain ⟨t, d, hx, hend, henv, hans⟩ := command_quiet (op := codeWrreg) (addr := addr) (val := v) (prog := wrregProgram)
    hy hu rfl rfl rfl ht he
  obtain ⟨hblock, hpeer⟩ := Prod.mk.inj (hend.trans (quietRun_regWrite (ms := []) rfl hk (decodeWireCmd_write hw hc addr) ha))
  have hlooks : (toIdle t).looks = s.looks := by
    obtain ⟨t', -, hx', -, -, -, -, -, -, hlooks⟩ := wrregSendsTheValue s addr v hy hu ht
    rwa [Host.Outcome.next.inj (hx'.symm.trans hx)] at hlooks
  have hcfg : t.cfg = s.cfg := congrArg BlockView.cfg hblock
  have hce : t.ce = s.ce := congrArg BlockView.ce hblock
  refine ⟨toIdle t, hx, ?_, hcfg, henv, hlooks.trans hu, hans⟩
  show t.peer.leftWithCe t.cfg t.ce = _
  rw [hpeer, hcfg, hce]
  rfl

/-- RDREG at the reference peer, undisturbed, returns byte 0 of the register (R58, R122). -/
theorem rdreg_reference {s : State} {addr : Addr} {w : Byte} (hw : s.cfg.wellFormed = true) (hc : NoCollision s.cfg)
    (ha : addr ≠ s.cfg.regStatus) (hk : s.peer.kind = .reference) (he : s.env = []) (hy : s.ready = true) (hu : Unwatched s)
    (ht : TransfersComplete 2 s) :
    ∃ t, exec (.rdreg addr w) s = .next t ∧ t.result = Memory.read s.peer.mem (regCell addr 0) := by
  obtain ⟨t, hx, hresult, -⟩ := command_quiet_peer (op := codeRdreg) (addr := addr) (val := w) (prog := rdregProgram)
    (q := s.peer.closed) hy hu he rfl rfl rfl ht rfl
    fun _ => ⟨_, rfl, quietRun_regRead rfl hk (decodeWireCmd_read hw hc addr) ha⟩
  exact ⟨t, hx, hresult⟩

/-- The next m + n transfers complete when the next m do and then n more. -/
theorem completes_add {m n : Nat} {s : State} :
    TransfersComplete (m + n) s ↔ TransfersComplete m s ∧ TransfersComplete n { s with answers := s.answers.drop m } := by
  simp only [TransfersComplete, List.take_add, List.all_append, Bool.and_eq_true]

/-- Settles O50: the peer is still the reference peer after the write, which has stored the value that the read returns. -/
theorem writtenRegisterReadsBack : Obligations.WrittenRegisterReadsBack := by
  intro s t addr v w hw hc ha hm hk he hy hu ht hce hx hty
  obtain ⟨hfirst, hthen⟩ := (completes_add (m := 2) (n := 2)).mp ht
  obtain ⟨t', hx', hpeer, hcfg, henv, hut, hans⟩ := wrreg_reference hw hc ha hk he hy hu hfirst
  obtain rfl : t' = t := Host.Outcome.next.inj (hx'.symm.trans hx)
  have hstored : t'.peer = s.peer.stored (regCell addr 0) v := by
    rw [hpeer]
    exact leftWithCe_eq_self fun h => stored_transmits hm (hce h).1 (hce h).2
  rw [← hcfg] at hw hc ha
  obtain ⟨u, hxu, hresult⟩ :=
    rdreg_reference (w := w) hw hc ha (by rw [hstored]; exact hk) henv hty hut (completes_congr hthen hans)
  refine ⟨u, hxu, hresult.trans ?_⟩
  rw [hstored]
  exact read_write_same _ _ hm

/-! ## Register bytes written one after the other -/

/-- Bytes stored in registers, one after the other; each goes to byte k of register a (R56). -/
def Memory.writeAll (m : Memory) (ws : List ((Addr × Fin 5) × Byte)) : Memory :=
  ws.foldl (fun m w => Memory.write m (regCell w.1.1 w.1.2) w.2) m

/-- A write keeps the canonical form. -/
theorem writeAll_wf {m : Memory} (ws : List ((Addr × Fin 5) × Byte)) (hm : Memory.wf m = true) :
    Memory.wf (m.writeAll ws) = true := by
  induction ws generalizing m with
  | nil => exact hm
  | cons w ws ih => exact ih (write_wf _ hm (regCell_lt _ w.1.2.isLt))

/-- A byte that none of the writes names reads as before. -/
theorem read_writeAll_other {ws : List ((Addr × Fin 5) × Byte)} {a : Addr} {k : Fin 5} (m : Memory) (h : (a, k) ∉ ws.map Prod.fst) :
    Memory.read (m.writeAll ws) (regCell a k) = Memory.read m (regCell a k) := by
  induction ws generalizing m with
  | nil => rfl
  | cons w ws ih =>
    obtain ⟨hne, hrest⟩ := not_or.mp (mt List.mem_cons.mpr h)
    refine (ih _ hrest).trans (read_write_other _ _ fun hcell => hne ?_)
    obtain ⟨ha, hk⟩ := regCell_inj k.isLt w.1.2.isLt hcell
    exact Prod.ext ha (Fin.ext hk)

/-- Where no byte is written twice, each write is read back. -/
theorem read_writeAll_of_mem {ws : List ((Addr × Fin 5) × Byte)} {a : Addr} {k : Fin 5} {b : Byte} {m : Memory}
    (hm : Memory.wf m = true) (hn : (ws.map Prod.fst).Nodup) (h : ((a, k), b) ∈ ws) :
    Memory.read (m.writeAll ws) (regCell a k) = b := by
  induction ws generalizing m with
  | nil => cases h
  | cons w ws ih =>
    obtain ⟨hw, hn⟩ := List.nodup_cons.mp hn
    rcases List.mem_cons.mp h with rfl | h
    · exact (read_writeAll_other _ hw).trans (read_write_same _ _ hm)
    · exact ih (write_wf _ hm (regCell_lt _ w.1.2.isLt)) hn h

/-- The five writes of an address field (R59, R109). -/
def addrWrites (a : Addr) (b : DeviceAddress) : List ((Addr × Fin 5) × Byte) :=
  [((a, 0), b[0]), ((a, 1), b[1]), ((a, 2), b[2]), ((a, 3), b[3]), ((a, 4), b[4])]

theorem mem_addrWrites (a : Addr) (b : DeviceAddress) (k : Fin 5) : ((a, k), b[k]) ∈ addrWrites a b := by
  fin_cases k <;> simp [addrWrites]

theorem addrWrites_nodup (a : Addr) (b : DeviceAddress) : ((addrWrites a b).map Prod.fst).Nodup := by
  simp [addrWrites]

/-! ## Frames that write registers -/

/-- The reference peer between frames, after register writes. -/
def Peer.written (ws : List ((Addr × Fin 5) × Byte)) (q : Peer) : Peer := { q.closed with mem := q.mem.writeAll ws }

theorem written_append (ws₁ ws₂ : List ((Addr × Fin 5) × Byte)) (q : Peer) :
    (q.written ws₁).written ws₂ = q.written (ws₁ ++ ws₂) := by
  simp [Peer.written, Peer.closed, Memory.writeAll, List.foldl_append]

theorem written_wf {ws : List ((Addr × Fin 5) × Byte)} {q : Peer} (hm : Memory.wf q.mem = true) :
    Memory.wf (q.written ws).mem = true :=
  writeAll_wf ws hm

/-- A part of a micro-sequence between frames, of n transfers, that does the register writes to the reference peer and nothing else,
whatever follows it. -/
def WritesRegisters (p : Params) (n : Nat) (ws : List ((Addr × Fin 5) × Byte)) (ms : List Micro) : Prop :=
  ∀ (rest : List Micro) (rs : List Byte) (v : BlockView) (q : Peer), v.cfg = p → q.kind = .reference → n ≤ rs.length →
    ∃ w : BlockView, w.cfg = p ∧ quietRun (ms ++ rest) rs v q = quietRun rest (rs.drop n) w (q.written ws)

theorem writesRegisters_append {p : Params} {n₁ n₂ : Nat} {ws₁ ws₂ : List ((Addr × Fin 5) × Byte)} {ms₁ ms₂ : List Micro}
    (h₁ : WritesRegisters p n₁ ws₁ ms₁) (h₂ : WritesRegisters p n₂ ws₂ ms₂) :
    WritesRegisters p (n₁ + n₂) (ws₁ ++ ws₂) (ms₁ ++ ms₂) := by
  intro rest rs v q hv hk hn
  obtain ⟨w₁, hw₁, hrun₁⟩ := h₁ (ms₂ ++ rest) rs v q hv hk (by omega)
  obtain ⟨w₂, hw₂, hrun₂⟩ := h₂ rest (rs.drop n₁) w₁ (q.written ws₁) hw₁ hk (by rw [List.length_drop]; omega)
  refine ⟨w₂, hw₂, ?_⟩
  rw [List.append_assoc, hrun₁, hrun₂, List.drop_drop, written_append]

section
variable {p : Params} {a : Addr} (hw : p.wellFormed = true) (hc : NoCollision p) (ha : a ≠ p.regStatus)
include hw hc ha

/-- A register write stores in byte 0 of its register (R59). -/
theorem writesRegisters_regWrite (b : Byte) : WritesRegisters p 2 [((a, 0), b)] (regWrite p a b) := by
  intro rest rs v q hv hk hn
  match rs, hn with
  | _ :: _ :: _, _ => exact ⟨afterFrame _ 8 v, hv, quietRun_regWrite hv hk (decodeWireCmd_write hw hc a) ha⟩

/-- An address write stores in the five bytes of its register (R59). -/
theorem writesRegisters_addrWrite (b : DeviceAddress) : WritesRegisters p 6 (addrWrites a b) (addrWrite p a b) := by
  intro rest rs v q hv hk hn
  match rs, hn with
  | _ :: _ :: _ :: _ :: _ :: _ :: _, _ => exact ⟨afterFrame _ 16 v, hv, quietRun_addrWrite hv hk (decodeWireCmd_write hw hc a) ha⟩

end

/-- WRADDR at the reference peer, undisturbed (R59, R124). -/
theorem wraddr_reference {s : State} {addr : Addr} {val : Byte} (hw : s.cfg.wellFormed = true) (hc : NoCollision s.cfg)
    (ha : addr ≠ s.cfg.regStatus) (hk : s.peer.kind = .reference) (he : s.env = []) (hy : s.ready = true) (hu : Unwatched s)
    (ht : TransfersComplete 6 s) :
    ∃ t, exec (.wraddr addr val) s = .next t ∧ t.peer.mem = s.peer.mem.writeAll (addrWrites addr s.abuf) := by
  obtain ⟨hg, hn, hecho⟩ := addrWrite_waits s.cfg addr s.abuf
  obtain ⟨t, d, hx, hend, -⟩ := command_quiet (op := codeWraddr) (addr := addr) (val := val) (prog := wraddrProgram)
    hy hu hg hn hecho ht he
  obtain ⟨w, -, hrun⟩ := writesRegisters_addrWrite hw hc ha s.abuf [] ((List.range 6).map d)
    (accept codeWraddr addr val s).block s.peer rfl hk (by simp)
  rw [List.append_nil] at hrun
  obtain ⟨-, hpeer⟩ := Prod.mk.inj (hend.trans hrun)
  exact ⟨toIdle t, hx, (toIdle_mem t).trans (congrArg Peer.mem hpeer)⟩

/-! ## CONFIGURE -/

/-- Every listed register but the status register is another one than it (R6). -/
theorem listed_ne_regStatus {p : Params} (hw : p.wellFormed = true) {a : Addr}
    (ha : a ∈ [p.regConfig, p.regEnRxaddr, p.regSetupAw, p.regSetupRetr, p.regRfCh, p.regRfSetup]
      ++ [p.regRxAddrP0, p.regTxAddr, p.regRxPwP0]) : a ≠ p.regStatus := by
  have hn := List.nodup_middle (l₁ := [p.regConfig, p.regEnRxaddr, p.regSetupAw, p.regSetupRetr, p.regRfCh, p.regRfSetup])
    |>.mp (wellFormed_addresses hw)
  exact ne_of_mem_of_not_mem ha (List.nodup_cons.mp hn).1

/-- The register bytes that CONFIGURE writes before ENTER_RX (R156). -/
def configureWrites (p : Params) : List ((Addr × Fin 5) × Byte) :=
  [((p.regEnRxaddr, 0), p.valEnRxaddr)] ++ [((p.regSetupAw, 0), p.valSetupAw)] ++ [((p.regRfCh, 0), p.valRfCh)]
    ++ [((p.regRfSetup, 0), p.valRfSetup)] ++ addrWrites p.regRxAddrP0 p.ownAddr ++ addrWrites p.regTxAddr p.peerAddr
    ++ [((p.regRxPwP0, 0), p.valRxPwP0)] ++ [((p.regSetupRetr, 0), p.valSetupRetr)]

/-- The list names no byte twice, and byte 0 of the configuration register not at all: its registers are distinct (R6). -/
theorem configureWrites_nodup {p : Params} (hw : p.wellFormed = true) :
    ((p.regConfig, 0) :: (configureWrites p).map Prod.fst).Nodup := by
  have h := wellFormed_addresses hw
  simp only [List.nodup_cons, List.mem_cons, List.not_mem_nil, or_false, not_or, List.nodup_nil, not_false_eq_true] at h
  simp [configureWrites, addrWrites, h, eq_comm]

/-- A rise or fall of CE changes neither the registers nor the receive FIFO nor the flags (R61). -/
theorem onCe_keeps (p : Params) (level : Bool) (q : Peer) :
    (q.onCe p level).mem = q.mem ∧ (q.onCe p level).rxf = q.rxf ∧ (q.onCe p level).st = q.st := by
  unfold Peer.onCe
  split
  · exact ⟨rfl, rfl, rfl⟩
  · split <;> exact ⟨rfl, rfl, rfl⟩

/-- ENTER_RX at the reference peer: the configuration register has its four bits set, no other register byte has changed, the receive
FIFO is empty and the flags are clear (R149). -/
theorem quietRun_enterRx_peer {p : Params} {v : BlockView} {q : Peer} (r0 r1 r2 r3 r4 r5 r6 r7 r8 r9 r10 : Byte)
    (hw : p.wellFormed = true) (hc : NoCollision p) (hp : v.cfg = p) (hk : q.kind = .reference) (hm : Memory.wf q.mem = true) :
    ∃ w u, quietRun (enterRxBody p) [r0, r1, r2, r3, r4, r5, r6, r7, r8, r9, r10] v q = (w, u)
      ∧ u.config p = (q.config p ||| (p.mPwrUp ||| p.mPrimRx)) ||| mMaskTxIrq p ∧ u.rxf = [] ∧ u.st = q.st &&& ~~~mStAll p
      ∧ ∀ x, x ≠ regCell p.regConfig 0 → Memory.read u.mem x = Memory.read q.mem x := by
  have hcell : regCell p.regConfig 0 < memSize := regCell_lt _ (by decide)
  have hne : p.regConfig ≠ p.regStatus := listed_ne_regStatus hw (by simp)
  obtain ⟨-, -, -, hflush, -⟩ := decodeWireCmd_fixed hw
  obtain ⟨w, -, -, -, hrun⟩ := quietRun_enterRxBody (ms := []) (rs := []) (r0 := r0) (r1 := r1) (r2 := r2) (r3 := r3) (r4 := r4)
    (r5 := r5) (r6 := r6) (r7 := r7) (r8 := r8) (r9 := r9) (r10 := r10) hp hk hne (decodeWireCmd_read hw hc _)
    (decodeWireCmd_write hw hc _) (decodeWireCmd_write hw hc _) hflush
  rw [List.append_nil] at hrun
  refine ⟨w, _, hrun, ?_, ?_, ?_, fun x hx => ?_⟩
  · simp [Peer.config, onCe_keeps, read_write_same, write_wf, hm, hcell, rmwByte_keep_all]
  · simp [onCe_keeps]
  · simp [onCe_keeps]
  · simp [onCe_keeps, read_write_other _ _ hx]

/-- A register write goes on, makes two transfers and echoes nothing (R109). -/
theorem regWrite_waits (p : Params) (a : Addr) (b : Byte) :
    (regWrite p a b).all goesOn = true ∧ (regWrite p a b).countP transfersByte = 2 ∧ (regWrite p a b).countP echoesByte = 0 :=
  ⟨rfl, rfl, rfl⟩

/-- ENTER_RX goes on, makes eleven transfers and echoes nothing (R149, R272). -/
theorem enterRxBody_waits (p : Params) :
    (enterRxBody p).all goesOn = true ∧ (enterRxBody p).countP transfersByte = 11 ∧ (enterRxBody p).countP echoesByte = 0 :=
  ⟨rfl, rfl, rfl⟩

/-- CONFIGURE goes on, makes 35 transfers and echoes nothing (R156, R272). -/
theorem configureProgram_waits (s : State) :
    (configureProgram s).all goesOn = true ∧ (configureProgram s).countP transfersByte = 35
      ∧ (configureProgram s).countP echoesByte = 0 := by
  simp only [configureProgram, List.all_append, List.countP_append, regWrite_waits, addrWrite_waits, enterRxBody_waits,
    Bool.and_self, and_self]

/-- Up to ENTER_RX, CONFIGURE is the register writes of its list (R156). -/
theorem configureProgram_writes {p : Params} {s : State} (hp : s.cfg = p) (hw : p.wellFormed = true) (hc : NoCollision p) :
    ∃ frames, configureProgram s = frames ++ enterRxBody p ∧ WritesRegisters p 24 (configureWrites p) frames := by
  have reg {a : Addr} (ha : a ≠ p.regStatus) (b : Byte) := writesRegisters_regWrite hw hc ha b
  have adr {a : Addr} (ha : a ≠ p.regStatus) (b : DeviceAddress) := writesRegisters_addrWrite hw hc ha b
  have hne {a : Addr} := listed_ne_regStatus hw (a := a)
  subst hp
  exact ⟨_, rfl, writesRegisters_append (writesRegisters_append (writesRegisters_append (writesRegisters_append
    (writesRegisters_append (writesRegisters_append (writesRegisters_append (reg (hne (by simp)) _) (reg (hne (by simp)) _))
    (reg (hne (by simp)) _)) (reg (hne (by simp)) _)) (adr (hne (by simp)) _)) (adr (hne (by simp)) _)) (reg (hne (by simp)) _))
    (reg (hne (by simp)) _)⟩

/-- Register writes and then ENTER_RX at the reference peer: ENTER_RX writes in byte 0 of the configuration register alone. -/
theorem quietRun_writes_enterRx {p : Params} {ws : List ((Addr × Fin 5) × Byte)} {frames : List Micro} {v : BlockView} {q : Peer}
    (d : Nat → Byte) (hw : p.wellFormed = true) (hc : NoCollision p) (hwrites : WritesRegisters p 24 ws frames)
    (hn : ((p.regConfig, 0) :: ws.map Prod.fst).Nodup) (hp : v.cfg = p) (hk : q.kind = .reference) (hm : Memory.wf q.mem = true) :
    ∃ w u, quietRun (frames ++ enterRxBody p) ((List.range 35).map d) v q = (w, u)
      ∧ (∀ a k b, ((a, k), b) ∈ ws → Memory.read u.mem (regCell a k) = b)
      ∧ u.config p = (q.config p ||| (p.mPwrUp ||| p.mPrimRx)) ||| mMaskTxIrq p ∧ u.rxf = [] ∧ u.st = q.st &&& ~~~mStAll p := by
  obtain ⟨v', hv', hrun⟩ := hwrites (enterRxBody p) ((List.range 35).map d) v q hp hk (by simp)
  have hbytes : ((List.range 35).map d).drop 24 = [d 24, d 25, d 26, d 27, d 28, d 29, d 30, d 31, d 32, d 33, d 34] := rfl
  rw [hbytes] at hrun
  obtain ⟨w, u, hrx, hconfig, hrxf, hst, hother⟩ := quietRun_enterRx_peer (d 24) (d 25) (d 26) (d 27) (d 28) (d 29) (d 30) (d 31)
    (d 32) (d 33) (d 34) hw hc hv' (q := q.written ws) hk (written_wf hm)
  obtain ⟨hfresh, hnodup⟩ := List.nodup_cons.mp hn
  have hbefore : (q.written ws).config p = q.config p := read_writeAll_other (k := 0) _ hfresh
  rw [hbefore] at hconfig
  refine ⟨w, u, hrun.trans hrx, fun a k b h => ?_, hconfig, hrxf, hst⟩
  have hcell : regCell a k ≠ regCell p.regConfig 0 := fun hcell => by
    obtain ⟨rfl, hk0⟩ := regCell_inj k.isLt (by decide) hcell
    exact hfresh (List.mem_map.mpr ⟨_, h, Prod.ext rfl (Fin.ext hk0)⟩)
  exact (hother _ hcell).trans (read_writeAll_of_mem hm hnodup h)

/-- CONFIGURE at the reference peer, undisturbed: its register writes, then ENTER_RX (R156). -/
theorem configure_reference {s : State} {addr : Addr} {val : Byte} (hw : s.cfg.wellFormed = true) (hc : NoCollision s.cfg)
    (hk : s.peer.kind = .reference) (hm : Memory.wf s.peer.mem = true) (he : s.env = []) (hy : s.ready = true) (hu : Unwatched s)
    (ht : TransfersComplete 35 s) :
    ∃ t, exec (.configure addr val) s = .next t
      ∧ (∀ a k b, ((a, k), b) ∈ configureWrites s.cfg → Memory.read t.peer.mem (regCell a k) = b)
      ∧ t.peer.config s.cfg = (s.peer.config s.cfg ||| (s.cfg.mPwrUp ||| s.cfg.mPrimRx)) ||| mMaskTxIrq s.cfg
      ∧ t.peer.rxf = [] ∧ t.peer.st = s.peer.st &&& ~~~mStAll s.cfg := by
  obtain ⟨hg, hn, hecho⟩ := configureProgram_waits (accept codeConfigure addr val s)
  obtain ⟨t, d, hx, hend, -⟩ := command_quiet (op := codeConfigure) (addr := addr) (val := val) (prog := configureProgram)
    hy hu hg hn hecho ht he
  obtain ⟨frames, hprog, hwrites⟩ := configureProgram_writes (accept_cfg codeConfigure addr val s) hw hc
  obtain ⟨w, u, hrun, hpeer⟩ := quietRun_writes_enterRx (v := (accept codeConfigure addr val s).block) d hw hc hwrites
    (configureWrites_nodup hw) rfl hk hm
  rw [hprog, hrun] at hend
  obtain ⟨-, rfl⟩ := Prod.mk.inj hend
  refine ⟨toIdle t, hx, ?_⟩
  simpa [Peer.config, toIdle_mem] using hpeer

/-- Settles O51: each of the two is a list of register writes that names no byte twice, and ENTER_RX then writes in the configuration
register alone. -/
theorem wraddrAndConfigureStoreTheirValues : Obligations.WraddrAndConfigureStoreTheirValues := by
  intro s addr val hw hc hk hm he hy hu
  refine ⟨fun ha ht => ?wraddr, fun ht => ?configure⟩
  case wraddr =>
    obtain ⟨t, hx, hmem⟩ := wraddr_reference hw hc ha hk he hy hu ht
    refine ⟨t, hx, fun k => ?_⟩
    rw [hmem]
    exact read_writeAll_of_mem hm (addrWrites_nodup _ _) (mem_addrWrites addr s.abuf k)
  case configure =>
    obtain ⟨t, hx, hstored, hconfig, hrxf, hst⟩ := configure_reference (addr := addr) (val := val) hw hc hk hm he hy hu ht
    have hown (k : Fin 5) : ((s.cfg.regRxAddrP0, k), s.cfg.ownAddr[k]) ∈ configureWrites s.cfg := by
      simp [configureWrites, -Fin.getElem_fin, mem_addrWrites]
    have hpeer (k : Fin 5) : ((s.cfg.regTxAddr, k), s.cfg.peerAddr[k]) ∈ configureWrites s.cfg := by
      simp [configureWrites, -Fin.getElem_fin, mem_addrWrites]
    refine ⟨t, hx, hstored _ 0 _ ?_, hstored _ 0 _ ?_, hstored _ 0 _ ?_, hstored _ 0 _ ?_, fun k => hstored _ k _ (hown k),
      fun k => hstored _ k _ (hpeer k), hstored _ 0 _ ?_, hstored _ 0 _ ?_, hconfig, hrxf, hst⟩ <;> simp [configureWrites]

end Sys2Proof.Machine
end

section
/-! PROOFS of the statements about what Transceiver Control does to the block (R141 to R156): each operation is a list of frames, and the
laws of those frames say what is seen. -/

namespace Sys2Proof.Machine

/-- A command whose micro-sequence is `body`, from the laws that say what `body` does whatever follows it. -/
theorem command_runs_body {op : Byte} {addr : Addr} {val : Byte} {prog : State → List Micro} {s : State} {n : Nat} {body : List Micro}
    {view : (Nat → Byte) → BlockView} {events : (Nat → Byte) → List Event}
    (hr : s.ready = true) (hu : Unwatched s) (ht : TransfersComplete n s) (hprog : prog (accept op addr val s) = body)
    (hwaits : body.all goesOn = true ∧ body.countP transfersByte = n ∧ body.countP echoesByte = 0)
    (hview : ∀ d, backToIdle (viewRun (body ++ []) ((List.range n).map d) (accept op addr val s).block) = view d)
    (hevents : ∀ d, eventsRun (body ++ []) ((List.range n).map d) (accept op addr val s).block = events d ++ []) :
    ∃ (t : State) (d : Nat → Byte), command op addr val prog s = .next t ∧ t.block = view d ∧ t.trace = s.trace ++ events d
      ∧ OutsideAfter n 0 s t := by
  subst hprog
  simp only [List.append_nil] at hview hevents
  exact command_completes_as hr hu ht hwaits.1 hwaits.2.1 hwaits.2.2 hview hevents

/-! ## Operations of one frame -/

/-- Settles O15: a status frame and two stores, of the byte received in it. -/
theorem getStatusReturnsTheStatusByte : Obligations.GetStatusReturnsTheStatusByte := fun _ _ _ hr hu ht =>
  command_completes_as (prog := getStatusProgram) hr hu ht rfl rfl rfl (fun _ => congrArg backToIdle (viewRun_statusFrame ..))
    fun _ => (eventsRun_statusFrame ..).trans (List.append_nil _)

/-- Settles O16: each flush is the frame of its opcode. -/
theorem flushesSendTheirOpcode : Obligations.FlushesSendTheirOpcode := by
  intro s addr val hr hu ht
  constructor
  · exact command_runs_body (prog := flushTxProgram) hr hu ht rfl ⟨rfl, rfl, rfl⟩
      (fun _ => congrArg backToIdle (viewRun_flushFrame ..)) fun _ => eventsRun_flushFrame ..
  · exact command_runs_body (prog := flushRxProgram) hr hu ht rfl ⟨rfl, rfl, rfl⟩
      (fun _ => congrArg backToIdle (viewRun_flushFrame ..)) fun _ => eventsRun_flushFrame ..

/-- Settles O17: a write frame of M_ST_ALL. -/
theorem resetStatusWritesAllFlags : Obligations.ResetStatusWritesAllFlags := fun _ _ _ hr hu ht =>
  command_runs_body (prog := resetStatusProgram) hr hu ht rfl ⟨rfl, rfl, rfl⟩
    (fun _ => congrArg backToIdle (viewRun_regWrite ..)) fun _ => eventsRun_regWrite ..

/-- IS_SENDING's answer, each end flag tested apart (R154). -/
theorem sendingResult_flags (p : Params) (status : Byte) :
    sendingResult p status = if status &&& p.mTxDs = 0 ∧ status &&& p.mMaxRt = 0 then 0x01 else 0x00 := by
  have h := sendingResult_status (p := p) (st := status) (stLow := 0#8) BitVec.zero_and
  rwa [BitVec.or_zero] at h

/-- Settles O22: a status frame and two stores, the second of R154's answer for the byte received. -/
theorem isSendingTestsTheTwoFlags : Obligations.IsSendingTestsTheTwoFlags := by
  intro s addr val hr hu ht
  simp only [← sendingResult_flags]
  exact command_completes_as (prog := isSendingProgram) hr hu ht rfl rfl rfl (fun _ => congrArg backToIdle (viewRun_statusFrame ..))
    fun _ => (eventsRun_statusFrame ..).trans (List.append_nil _)

/-! ## The mode transitions -/

/-- ENTER_TX goes on, makes fifteen transfers and echoes nothing (R146, R272). -/
theorem enterTxBody_waits (p : Params) :
    (enterTxBody p).all goesOn = true ∧ (enterTxBody p).countP transfersByte = 15 ∧ (enterTxBody p).countP echoesByte = 0 :=
  ⟨rfl, rfl, rfl⟩

/-- Settles O18: the law of ENTER_TX's micro-sequence. -/
theorem enterTxFollowsItsSequence : Obligations.EnterTxFollowsItsSequence := fun s _ _ hr hu ht =>
  command_runs_body (prog := enterTxProgram) hr hu ht rfl (enterTxBody_waits s.cfg)
    (fun _ => congrArg backToIdle (viewRun_enterTxBody ..)) fun d => eventsRun_enterTxBody (d := d) ..

/-- Settles O19: the law of ENTER_RX's micro-sequence. -/
theorem enterRxFollowsItsSequence : Obligations.EnterRxFollowsItsSequence := fun s _ _ hr hu ht =>
  command_runs_body (prog := enterRxProgram) hr hu ht rfl (enterRxBody_waits s.cfg)
    (fun _ => congrArg backToIdle (viewRun_enterRxBody ..)) fun d => eventsRun_enterRxBody (d := d) ..

/-! ## SEND -/

/-- SEND goes on, makes ten transfers and echoes nothing, whatever the payload (R152, R272). -/
theorem sendBody_waits (p : Params) (pl : Payload) :
    (sendBody p pl).all goesOn = true ∧ (sendBody p pl).countP transfersByte = 10 ∧ (sendBody p pl).countP echoesByte = 0 := by
  rw [sendBody, txPayloadFrame, payload_toList]
  exact ⟨rfl, rfl, rfl⟩

/-- In Transmitting mode SEND's mode test passes (R152). -/
theorem sendProgram_transmitting {op : Byte} {addr : Addr} {val : Byte} {s : State} (h : s.mode = .transmitting) :
    sendProgram (accept op addr val s) = sendBody s.cfg s.txbuf := if_pos h

/-- Settles O20: the law of SEND's micro-sequence. -/
theorem sendStreamsThePayload : Obligations.SendStreamsThePayload := fun s _ _ hr hu hmode ht =>
  command_runs_body hr hu ht (sendProgram_transmitting hmode) (sendBody_waits s.cfg s.txbuf)
    (fun _ => congrArg backToIdle (viewRun_sendBody ..)) fun d => eventsRun_sendBody (d := d) ..

/-- Settles O21: outside Transmitting mode SEND is one write, of FAULT. -/
theorem sendOutsideTransmittingRaisesBadMode : Obligations.SendOutsideTransmittingRaisesBadMode := by
  intro s addr val hr hu hmode
  have hprog : sendProgram (accept codeSend addr val s) = [.raise .badMode] := if_neg hmode
  obtain ⟨t, _, hx, hblock, htrace, hout⟩ := command_runs_body (n := 0) (events := fun _ => []) hr hu rfl hprog
    ⟨rfl, rfl, rfl⟩ (fun _ => rfl) fun _ => rfl
  exact ⟨t, hx, hblock, htrace.trans (List.append_nil _), hout⟩

/-! ## CONFIGURE -/

/-- Settles O23: the laws of its eight write frames and of ENTER_RX, one after the other. -/
theorem configureWritesTheEightRegisters : Obligations.ConfigureWritesTheEightRegisters := by
  intro s addr val hr hu ht
  have hbytes (d : Nat → Byte) : (List.range 35).map d = [d 0, d 1, d 2, d 3, d 4, d 5, d 6, d 7, d 8, d 9, d 10, d 11, d 12, d 13,
    d 14, d 15, d 16, d 17, d 18, d 19, d 20, d 21, d 22, d 23, d 24, d 25, d 26, d 27, d 28, d 29, d 30, d 31, d 32, d 33, d 34] := rfl
  refine command_runs_body (prog := configureProgram) hr hu ht rfl (configureProgram_waits _) (fun d => ?view) fun d => ?events
  case view =>
    simp only [hbytes, configureProgram, List.append_assoc, viewRun_regWrite, viewRun_addrWrite, viewRun_enterRxBody]
    rfl
  case events =>
    simp only [hbytes, configureProgram, List.append_assoc, eventsRun_regWrite, eventsRun_addrWrite, eventsRun_enterRxBody,
      configureEvents, addrFrame]
    rfl

end Sys2Proof.Machine
end

section
/-! PROOFS of the statements about what Transceiver Control leaves in the reference peer (R146, R149, R152), each from the peer's law of
the operation's frames. -/

namespace Sys2Proof.Machine

/-! ## Stores in the configuration register -/

theorem stored_wf {q : Peer} {a : Addr} {b : Byte} (hm : Memory.wf q.mem = true) : Memory.wf (q.stored (regCell a 0) b).mem = true :=
  write_wf _ hm (regCell_lt _ (by decide))

theorem stored_config {p : Params} {q : Peer} {b : Byte} (hm : Memory.wf q.mem = true) :
    (q.stored (regCell p.regConfig 0) b).config p = b :=
  read_write_same _ _ hm

/-- A flush of the transmit FIFO and a write to the status register leave the configuration register alone. -/
theorem withTxf_cleared_config {p : Params} {q : Peer} {l : List Payload} {b : Byte} :
    ((q.withTxf l).cleared p b).config p = q.config p := rfl

/-! ## ENTER_TX -/

/-- ENTER_TX at the reference peer: of the configuration register's bits primary-receiver is cleared, power-up and the two masks are set;
the transmit FIFO is empty, the receive FIFO as it was, the flags are clear (R146, R148). -/
theorem quietRun_enterTx_peer {p : Params} {v : BlockView} {q : Peer} (d : Nat → Byte) (hw : p.wellFormed = true) (hc : NoCollision p)
    (hp : v.cfg = p) (hk : q.kind = .reference) (hm : Memory.wf q.mem = true) :
    ∃ w u, quietRun (enterTxBody p) ((List.range 15).map d) v q = (w, u)
      ∧ u.config p = ((q.config p &&& ~~~p.mPrimRx) ||| p.mPwrUp) ||| mMaskTxIrq p
      ∧ u.txf = [] ∧ u.rxf = q.rxf ∧ u.st = q.st &&& ~~~mStAll p := by
  have hne : p.regConfig ≠ p.regStatus := listed_ne_regStatus hw (by simp)
  obtain ⟨-, -, hflush, -, -⟩ := decodeWireCmd_fixed hw
  obtain ⟨w, -, -, -, hrun⟩ := quietRun_enterTxBody (ms := []) (rs := []) (r0 := d 0) (r1 := d 1) (r2 := d 2) (r3 := d 3) (r4 := d 4)
    (r5 := d 5) (r6 := d 6) (r7 := d 7) (r8 := d 8) (r9 := d 9) (r10 := d 10) (r11 := d 11) (r12 := d 12) (r13 := d 13) (r14 := d 14)
    hp hk hne (decodeWireCmd_read hw hc _) (decodeWireCmd_write hw hc _) (decodeWireCmd_write hw hc _) hflush
  rw [List.append_nil] at hrun
  refine ⟨w, _, hrun, ?config, rfl, rfl, cleared_all_st p _⟩
  rw [stored_config (by exact stored_wf (stored_wf hm)), withTxf_cleared_config, stored_config (by exact stored_wf hm),
    stored_config hm]
  simp [rmwByte_keep_all, rmwByte_set_none]

/-- Settles O57: the peer after the law of ENTER_TX's frames; the end of the operation changes none of its contents. -/
theorem enterTxConfiguresTheReferencePeer : Obligations.EnterTxConfiguresTheReferencePeer := by
  intro s addr val hw hc hk hm he hy hu ht
  obtain ⟨t, d, hx, hend, -⟩ := command_quiet (op := codeEnterTx) (addr := addr) (val := val) (prog := enterTxProgram)
    hy hu rfl rfl rfl ht he
  obtain ⟨w, u, hrun, hpeer⟩ := quietRun_enterTx_peer (v := (accept codeEnterTx addr val s).block) d hw hc rfl hk hm
  obtain ⟨-, rfl⟩ := Prod.mk.inj (hend.trans hrun)
  exact ⟨toIdle t, hx, by simpa [Peer.config, mMaskTxIrq] using hpeer⟩

/-! ## SEND -/

/-- A rise of CE at the reference peer triggers a send in transmit configuration with a payload waiting (R61). -/
theorem onCe_rise {p : Params} {q : Peer} (hk : q.kind = .reference) :
    q.onCe p true = { q with pulse := q.pulse || (q.transmits p && !q.txf.isEmpty) } := by
  simp only [Peer.onCe, hk, Bool.true_and]
  split
  · next htrigger => rw [htrigger, Bool.or_true]
  · next htrigger => rw [Bool.eq_false_of_not_eq_true htrigger, Bool.or_false, ← hk]

/-- A fall of CE does nothing to it (R61). -/
theorem onCe_fall {p : Params} {q : Peer} (hk : q.kind = .reference) : q.onCe p false = q := by
  simp [Peer.onCe, hk]

/-- SEND's pulse at the reference peer: its rise triggers a send, its fall does nothing (R152, R61). -/
theorem quietRun_pulse {p : Params} {v : BlockView} {q : Peer} (before high : Nat) (hp : v.cfg = p) (hk : q.kind = .reference) :
    ∃ w : BlockView, w.ce = false ∧ quietRun [.wait before, .ce true, .wait high, .ce false] [] v q =
      (w, { q with pulse := q.pulse || (q.transmits p && !q.txf.isEmpty) }) := by
  subst hp
  have hpeer : (q.onCe v.cfg true).onCe v.cfg false = { q with pulse := q.pulse || (q.transmits v.cfg && !q.txf.isEmpty) } := by
    rw [onCe_rise hk]
    exact onCe_fall hk
  exact ⟨_, rfl, congrArg (Prod.mk _) hpeer⟩

/-- SEND at the reference peer: the payload is alone in the transmit FIFO, so in transmit configuration the pulse triggers a send
(R152, R60, R61). -/
theorem quietRun_sendBody_peer {p : Params} {v : BlockView} {q : Peer} (pl : Payload) (d : Nat → Byte) (hw : p.wellFormed = true)
    (hp : v.cfg = p) (hk : q.kind = .reference) :
    ∃ w : BlockView, w.ce = false ∧ quietRun (sendBody p pl) ((List.range 10).map d) v q =
      (w, { q.withTxf [pl] with pulse := q.pulse || q.transmits p }) := by
  obtain ⟨-, htx, hflush, -, -⟩ := decodeWireCmd_fixed hw
  have hbytes : (List.range 10).map d = [d 0, d 1, d 2, d 3, d 4, d 5, d 6, d 7, d 8, d 9] := rfl
  obtain ⟨x, hframe⟩ := quietRun_txPayloadFrame (ms := [.wait p.tPrePulse, .ce true, .wait p.tCePulse, .ce false]) (rs := [])
    (v := afterFrame q.status 6 v) (q := q.withTxf []) (b := pl) (r0 := d 1) (r1 := d 2) (r2 := d 3) (r3 := d 4) (r4 := d 5)
    (r5 := d 6) (r6 := d 7) (r7 := d 8) (r8 := d 9) hp hk htx (Nat.succ_pos 2)
  obtain ⟨w, hce, hpulse⟩ := quietRun_pulse (v := afterFrame x 22 (afterFrame q.status 6 v)) (q := q.withTxf [pl]) p.tPrePulse
    p.tCePulse hp hk
  refine ⟨w, hce, ?_⟩
  rw [hbytes, sendBody, List.append_assoc, quietRun_flushTx hp hk hflush, hframe]
  refine hpulse.trans (congrArg (Prod.mk w) ?_)
  simp only [withTxf_txf, List.isEmpty_cons, Bool.not_false, Bool.and_true]
  rfl

/-- Settles O55: CE is low at the end of SEND, so the peer is what SEND's frames and its pulse have made of it. -/
theorem sendLoadsTheTransmitFifo : Obligations.SendLoadsTheTransmitFifo := by
  intro s addr val hw hk he hy hu hmode ht
  have hprog : sendProgram (accept codeSend addr val s) = sendBody s.cfg s.txbuf := sendProgram_transmitting hmode
  obtain ⟨hg, hn, hecho⟩ := hprog ▸ sendBody_waits s.cfg s.txbuf
  obtain ⟨t, d, hx, hend, -⟩ := command_quiet hy hu hg hn hecho ht he
  obtain ⟨w, hce, hrun⟩ := quietRun_sendBody_peer (v := (accept codeSend addr val s).block) s.txbuf d hw rfl hk
  rw [hprog, hrun] at hend
  obtain ⟨rfl, hpeer⟩ := Prod.mk.inj hend
  have hleft : (toIdle t).peer = t.peer := leftWithCe_eq_self fun h => absurd (hce.symm.trans h) Bool.false_ne_true
  refine ⟨toIdle t, hx, ?_⟩
  rw [hleft, hpeer]
  exact ⟨hk, rfl, rfl, rfl, rfl⟩

/-! ## ENTER_RX, and again -/

/-- What the statements ask of a state at the reference peer: nobody disturbs it and the host does not look. -/
structure Undisturbed (s : State) : Prop where
  wellFormed : s.cfg.wellFormed = true
  noCollision : NoCollision s.cfg
  reference : s.peer.kind = .reference
  canonical : Memory.wf s.peer.mem = true
  quiet : s.env = []
  unwatched : Unwatched s

/-- What ENTER_RX leaves of s at the reference peer (R149). -/
structure EnteredRx (s t : State) : Prop where
  cfg : t.cfg = s.cfg
  answers : t.answers = s.answers.drop 11
  ce : t.ce = true
  mode : t.mode = .listening
  config : t.peer.config s.cfg = (s.peer.config s.cfg ||| (s.cfg.mPwrUp ||| s.cfg.mPrimRx)) ||| mMaskTxIrq s.cfg
  rxf : t.peer.rxf = []
  st : t.peer.st = s.peer.st &&& ~~~mStAll s.cfg
  others : ∀ x, x ≠ regCell s.cfg.regConfig 0 → Memory.read t.peer.mem x = Memory.read s.peer.mem x

theorem onCe_kind (p : Params) (level : Bool) (q : Peer) : (q.onCe p level).kind = q.kind := by
  unfold Peer.onCe
  split
  · rfl
  · split <;> rfl

/-- ENTER_RX leaves the peer a reference peer with canonical register bytes. -/
theorem quietRun_enterRx_canonical {p : Params} {v w : BlockView} {q u : Peer} {r0 r1 r2 r3 r4 r5 r6 r7 r8 r9 r10 : Byte}
    (hw : p.wellFormed = true) (hc : NoCollision p) (hp : v.cfg = p) (hk : q.kind = .reference) (hm : Memory.wf q.mem = true)
    (hrun : quietRun (enterRxBody p) [r0, r1, r2, r3, r4, r5, r6, r7, r8, r9, r10] v q = (w, u)) :
    u.kind = .reference ∧ Memory.wf u.mem = true := by
  obtain ⟨-, -, -, hflush, -⟩ := decodeWireCmd_fixed hw
  obtain ⟨w', -, -, -, hlaw⟩ := quietRun_enterRxBody (ms := []) (rs := []) (r0 := r0) (r1 := r1) (r2 := r2) (r3 := r3) (r4 := r4)
    (r5 := r5) (r6 := r6) (r7 := r7) (r8 := r8) (r9 := r9) (r10 := r10) hp hk (listed_ne_regStatus hw (by simp))
    (decodeWireCmd_read hw hc _) (decodeWireCmd_write hw hc _) (decodeWireCmd_write hw hc _) hflush
  rw [List.append_nil, hrun] at hlaw
  obtain ⟨-, rfl⟩ := Prod.mk.inj hlaw
  rw [onCe_kind, (onCe_keeps ..).1]
  exact ⟨hk, stored_wf (stored_wf hm)⟩

/-- The primary-receiver mask has a bit set (R6). -/
theorem wellFormed_mPrimRx {p : Params} (hw : p.wellFormed = true) : p.mPrimRx ≠ 0 := by
  simp only [Params.wellFormed, Params.masksOneBit, Bool.and_eq_true, List.all_cons] at hw
  obtain ⟨⟨-, hprimRx, -⟩, -⟩ := hw
  intro h
  rw [h] at hprimRx
  exact absurd hprimRx (by decide)

/-- With primary-receiver set the radio does not transmit (R28). -/
theorem receives_of_primRx_set {p : Params} {q : Peer} {x m : Byte} (hw : p.wellFormed = true)
    (h : q.config p = (x ||| (p.mPwrUp ||| p.mPrimRx)) ||| m) : q.transmits p = false := by
  rw [transmits_eq_false_iff, h]
  refine .inr (bits_or_ne_zero _ ?_)
  rw [← BitVec.or_assoc, BitVec.or_comm]
  refine bits_or_ne_zero _ ?_
  rw [BitVec.and_self]
  exact wellFormed_mPrimRx hw

/-- ENTER_RX at the reference peer, undisturbed: nothing stands in the way of another operation (R149). -/
theorem enterRx_reference {s : State} {addr : Addr} {val : Byte} (h : Undisturbed s) (hy : s.ready = true)
    (ht : TransfersComplete 11 s) : ∃ t, exec (.enterRx addr val) s = .next t ∧ Undisturbed t ∧ EnteredRx s t := by
  obtain ⟨hw, hc, hk, hm, he, hu⟩ := h
  obtain ⟨t, d, hx, hend, henv, -⟩ := command_quiet (op := codeEnterRx) (addr := addr) (val := val) (prog := enterRxProgram)
    hy hu rfl rfl rfl ht he
  obtain ⟨t', _, hx', hblock, -, -, hans, -, -, hlooks⟩ := enterRxFollowsItsSequence s addr val hy hu ht
  obtain rfl : t' = toIdle t := Host.Outcome.next.inj (hx'.symm.trans hx)
  obtain ⟨w, u, hrun, hconfig, hrxf, hst, hothers⟩ := quietRun_enterRx_peer (v := (accept codeEnterRx addr val s).block) (d 0) (d 1)
    (d 2) (d 3) (d 4) (d 5) (d 6) (d 7) (d 8) (d 9) (d 10) hw hc rfl hk hm
  obtain ⟨hkind, hcanonical⟩ := quietRun_enterRx_canonical hw hc rfl hk hm hrun
  obtain ⟨-, rfl⟩ := Prod.mk.inj (hend.trans hrun)
  have hcfg : t.cfg = s.cfg := congrArg BlockView.cfg hblock
  have hleft : (toIdle t).peer = t.peer := leftWithCe_eq_self fun _ => hcfg ▸ receives_of_primRx_set hw hconfig
  refine ⟨toIdle t, hx, ⟨hcfg ▸ hw, hcfg ▸ hc, hleft ▸ hkind, hleft ▸ hcanonical, henv, hlooks.trans hu⟩,
    hcfg, hans, congrArg BlockView.ce hblock, congrArg BlockView.mode hblock, ?_, ?_, ?_, ?_⟩ <;> rw [hleft]
  exacts [hconfig, hrxf, hst, hothers]

/-- Bits set a second time are set already. -/
theorem or_or_again {w : Nat} (x a b : BitVec w) : x ||| a ||| b ||| a ||| b = x ||| a ||| b := by
  rw [BitVec.or_assoc (x ||| a ||| b), BitVec.or_assoc x, BitVec.or_assoc x, BitVec.or_self]

/-- A second ENTER_RX finds its bits set and its flags clear: it changes neither (S5). -/
theorem enteredRx_again {s t u : State} (hst : EnteredRx s t) (htu : EnteredRx t u) :
    MemoryKeptOutside [] t u ∧ u.peer.rxf = [] ∧ u.peer.st = t.peer.st ∧ u.ce = true ∧ u.mode = .listening := by
  refine ⟨fun x _ => ?_, htu.rxf, ?_, htu.ce, htu.mode⟩
  · by_cases hx : x = regCell t.cfg.regConfig 0
    · have hconfig : u.peer.config t.cfg = t.peer.config t.cfg := by
        rw [htu.config, hst.cfg, hst.config, or_or_again]
      exact hx ▸ hconfig
    · exact htu.others x hx
  · rw [htu.st, hst.st, hst.cfg, BitVec.and_assoc, BitVec.and_self]

/-- Settles O58: the state after ENTER_RX is again one that ENTER_RX's law speaks of. -/
theorem enterRxIsIdempotent : Obligations.EnterRxIsIdempotent := by
  intro s t addr val hw hc hk hm he hy hu ht hx
  obtain ⟨hfirst, hthen⟩ := (completes_add (m := 11) (n := 11)).mp ht
  obtain ⟨t', hx', hundisturbed, hentered⟩ := enterRx_reference ⟨hw, hc, hk, hm, he, hu⟩ hy hfirst
  obtain rfl : t' = t := Host.Outcome.next.inj (hx'.symm.trans hx)
  refine ⟨hentered.config, hentered.rxf, hentered.st, hentered.ce, hentered.mode, fun hready => ?_⟩
  obtain ⟨u, hxu, -, hagain⟩ := enterRx_reference hundisturbed hready (completes_congr hthen hentered.answers)
  exact ⟨u, hxu, enteredRx_again hentered hagain⟩

end Sys2Proof.Machine
end

section
/-! PROOFS of the statements about host control (R181 to R188): each operation is a micro-sequence that waits for nothing, and what it does
is read off that sequence. -/

namespace Sys2Proof.Machine

/-- A command whose micro-sequence waits for nothing does its writes and makes its events in one step. -/
theorem command_writes {op : Byte} {addr : Addr} {val : Byte} {prog : State → List Micro} {s : State} {ms : List Micro} {view : BlockView}
    {events : List Event} (hr : s.ready = true) (hu : Unwatched s) (hprog : prog (accept op addr val s) = ms)
    (hwaits : ms.all goesOn = true ∧ ms.countP transfersByte = 0 ∧ ms.countP echoesByte = 0)
    (hview : backToIdle (viewRun ms [] (accept op addr val s).block) = view)
    (hevents : eventsRun ms [] (accept op addr val s).block = events) :
    ∃ t, command op addr val prog s = .next t ∧ t.block = view ∧ t.trace = s.trace ++ events ∧ OutsideAfter 0 0 s t := by
  subst hprog
  obtain ⟨hg, hn, hecho⟩ := hwaits
  obtain ⟨t, _, h⟩ := command_completes_as (n := 0) hr hu rfl hg hn hecho (fun _ => hview) fun _ => hevents
  exact ⟨t, h⟩

/-- Where it makes no event, the trace is as it was. -/
theorem command_writes_silently {op : Byte} {addr : Addr} {val : Byte} {prog : State → List Micro} {s : State} {ms : List Micro}
    {view : BlockView} (hr : s.ready = true) (hu : Unwatched s) (hprog : prog (accept op addr val s) = ms)
    (hwaits : ms.all goesOn = true ∧ ms.countP transfersByte = 0 ∧ ms.countP echoesByte = 0)
    (hview : backToIdle (viewRun ms [] (accept op addr val s).block) = view)
    (hevents : eventsRun ms [] (accept op addr val s).block = []) :
    ∃ t, command op addr val prog s = .next t ∧ t.block = view ∧ t.trace = s.trace ∧ OutsideAfter 0 0 s t := by
  obtain ⟨t, hx, hblock, htrace, hout⟩ := command_writes hr hu hprog hwaits hview hevents
  exact ⟨t, hx, hblock, htrace.trans (List.append_nil _), hout⟩

/-! ## The chip-enable pin -/

/-- Settles O24: each of the two is one drive of CE. -/
theorem chipEnableOperationsDriveCe : Obligations.ChipEnableOperationsDriveCe := fun _ addr val hr hu =>
  ⟨decodeCommand_fields 0x10 addr val, decodeCommand_fields 0x11 addr val,
    command_writes (prog := ceSetProgram) hr hu rfl ⟨rfl, rfl, rfl⟩ rfl rfl,
    command_writes (prog := ceClrProgram) hr hu rfl ⟨rfl, rfl, rfl⟩ rfl rfl⟩

/-! ## The interrupt enable -/

/-- With SEQ idle and no exchange in progress, a due interrupt has the step (R213). -/
theorem step_captures {s : State} (hw : s.cfg.wellFormed = true) (hn : NoRst s) (hs : s.seq = .idle) (hb : s.busOut = none)
    (hd : s.irqDue = true) : step s = .next (capture { s with host := hostAfterWait s }) := by
  rw [step_without_rst hw hn]
  simp only [stepBlock, hs, idleStep, hb]
  exact if_pos hd

/-- IRQ_ON puts no byte in exchange (R183). -/
theorem irqOn_busOut {s t : State} {addr : Addr} {val : Byte} (hr : s.ready = true) (hu : Unwatched s)
    (hx : exec (.irqOn addr val) s = .next t) : t.busOut = s.busOut := by
  have hrun : exec (.irqOn addr val) s = .next (runMicros [.setIrqEn true] (accept codeIrqOn addr val s)) := if_pos hr
  obtain rfl := Host.Outcome.next.inj (hrun.symm.trans hx)
  rw [runMicros_more [] (s := accept codeIrqOn addr val s) hu rfl]
  exact elapse_busOut _

/-- Settles O25: each of the two is one write of IRQ_EN, and a pending interrupt, which stays pending, is due once IRQ_EN is 1. -/
theorem interruptOperationsWriteTheEnable : Obligations.InterruptOperationsWriteTheEnable := by
  intro s addr val hr hu
  refine ⟨decodeCommand_fields 0x12 addr val, decodeCommand_fields 0x13 addr val, (ready_iff.mp hr).2.2, ?on,
    command_writes_silently (prog := irqOffProgram) hr hu rfl ⟨rfl, rfl, rfl⟩ rfl rfl⟩
  obtain ⟨t, hx, hblock, htrace, hout⟩ :=
    command_writes_silently (op := codeIrqOn) (addr := addr) (val := val) (prog := irqOnProgram) hr hu rfl ⟨rfl, rfl, rfl⟩ rfl rfl
  have ⟨hhost, _, _, hpending, _⟩ := hout
  have hseq : t.seq = .idle := congrArg BlockView.seq hblock
  have hen : t.irqEn = true := congrArg BlockView.irqEn hblock
  have hcfg : t.cfg = s.cfg := congrArg BlockView.cfg hblock
  refine ⟨t, hx, hblock, htrace, hout, fun hp => ?_⟩
  have hdue : t.irqDue = true := by simp [State.irqDue, hen, hpending hp]
  refine ⟨hseq, hen, hpending hp, by simp [State.ready, hdue], fun hw hn hb => ?_⟩
  have hrst : NoRst t := by rwa [NoRst, rstDue, hhost]
  exact step_captures (hcfg ▸ hw) hrst hseq ((irqOn_busOut hr hu hx).trans hb) hdue

/-! ## The counter and the buffers -/

/-- Settles O26: one write of RXCNT. -/
theorem cntClrZeroesTheCounter : Obligations.CntClrZeroesTheCounter := fun _ addr val hr hu =>
  ⟨decodeCommand_fields 0x14 addr val, command_writes_silently (prog := cntClrProgram) hr hu rfl ⟨rfl, rfl, rfl⟩ rfl rfl⟩

/-- ABUF_WR with an index inside ABUF is one write of that byte (R186). -/
theorem abufWrProgram_inside {s : State} (h : s.argAddr.toNat < addrLen) :
    abufWrProgram s = [.setAbuf ⟨s.argAddr.toNat, h⟩ s.argVal] := by
  simp only [abufWrProgram, abufIndex, dif_pos h]

/-- ABUF_WR with an index outside ABUF raises BAD_OP (R74, R186). -/
theorem abufWrProgram_outside {s : State} (h : ¬ s.argAddr.toNat < addrLen) : abufWrProgram s = [.raise .badOp] := by
  simp only [abufWrProgram, abufIndex, dif_neg h]

/-- TXBUF_WR with an index inside TXBUF is one write of that byte (R187). -/
theorem txbufWrProgram_inside {s : State} (h : s.argAddr.toNat < payloadLen) :
    txbufWrProgram s = [.setTxbuf ⟨s.argAddr.toNat, h⟩ s.argVal] := by
  simp only [txbufWrProgram, txbufIndex, dif_pos h]

/-- TXBUF_WR with an index outside TXBUF raises BAD_OP (R74, R187). -/
theorem txbufWrProgram_outside {s : State} (h : ¬ s.argAddr.toNat < payloadLen) : txbufWrProgram s = [.raise .badOp] := by
  simp only [txbufWrProgram, txbufIndex, dif_neg h]

/-- Settles O27: an index inside ABUF makes one write of ABUF, any other one write of FAULT. -/
theorem abufWrWritesOneByte : Obligations.AbufWrWritesOneByte := by
  intro s addr val hr hu
  refine ⟨decodeCommand_fields 0x15 addr val, ?_⟩
  by_cases h : addr.toNat < 5
  · obtain ⟨t, hx, hblock, htrace, hout⟩ := command_writes_silently hr hu
      (abufWrProgram_inside (s := accept codeAbufWr addr val s) h) ⟨rfl, rfl, rfl⟩ rfl rfl
    exact ⟨t, hx, htrace, hout, (dif_pos h).mpr hblock⟩
  · obtain ⟨t, hx, hblock, htrace, hout⟩ := command_writes_silently hr hu
      (abufWrProgram_outside (s := accept codeAbufWr addr val s) h) ⟨rfl, rfl, rfl⟩ rfl rfl
    exact ⟨t, hx, htrace, hout, (dif_neg h).mpr hblock⟩

/-- Settles O28: an index inside TXBUF makes one write of TXBUF, any other one write of FAULT; a ready block does not run. -/
theorem txbufWrWritesOneByte : Obligations.TxbufWrWritesOneByte := by
  intro s addr val hr hu
  refine ⟨decodeCommand_fields 0x16 addr val, (ready_iff.mp hr).2.1, ?_⟩
  by_cases h : addr.toNat < 8
  · obtain ⟨t, hx, hblock, htrace, hout⟩ := command_writes_silently hr hu
      (txbufWrProgram_inside (s := accept codeTxbufWr addr val s) h) ⟨rfl, rfl, rfl⟩ rfl rfl
    exact ⟨t, hx, htrace, hout, (dif_pos h).mpr hblock⟩
  · obtain ⟨t, hx, hblock, htrace, hout⟩ := command_writes_silently hr hu
      (txbufWrProgram_outside (s := accept codeTxbufWr addr val s) h) ⟨rfl, rfl, rfl⟩ rfl rfl
    exact ⟨t, hx, htrace, hout, (dif_neg h).mpr hblock⟩

/-! ## RUN -/

/-- Settles O29: three writes, the first of RUNNING, which makes the block busy. -/
theorem runStartsTheNodeLoop : Obligations.RunStartsTheNodeLoop := by
  intro s addr val hr hu
  obtain ⟨t, hx, hblock, htrace, hout⟩ :=
    command_writes_silently (op := codeRun) (addr := addr) (val := val) (prog := runProgram) hr hu rfl ⟨rfl, rfl, rfl⟩ rfl rfl
  have hrun : t.running = true := congrArg BlockView.running hblock
  exact ⟨t, hx, hblock, htrace, hout, by simp [State.busy, hrun], by simp [State.ready, hrun]⟩

end Sys2Proof.Machine
end

section
/-! PROOFS of the statements about the Node Loop (R189 to R197): its idle iteration, and its cycle from label to label. -/

namespace Sys2Proof.Machine

/-! ## The idle iteration -/

/-- With no RST in it, no exchange in progress, no interrupt due and RXCNT not 8, the Node Loop's step at NL_CHECK only lets time pass
(R190). -/
theorem step_nodeLoop_idles {s : State} (hw : s.cfg.wellFormed = true) (hn : NoRst s) (hrun : s.running = true) (hs : s.seq = .idle)
    (hb : s.busOut = none) (hpc : s.nlpc = .check) (hd : s.irqDue = false) (hcnt : s.rxcnt.toNat ≠ payloadLen) :
    step s = .next (elapse { s with host := hostAfterWait s }) := by
  rw [step_without_rst hw hn]
  exact stepBlock_elapses hs hb hd (fun _ => ⟨hpc, hcnt⟩) fun h => absurd (hrun.symm.trans h) (by decide)

/-- The passing of time keeps the dead end, whatever the environment does (R197). -/
theorem deadEnd_elapse {s : State} (h : DeadEnd s) : DeadEnd (elapse s) := by
  simpa only [DeadEnd, elapse_running, elapse_seq, elapse_nlpc, elapse_busOut, elapse_irqEn, elapse_rxcnt] using h

/-- Settles O39: the idle iteration only lets time pass, and in the dead end, where no interrupt can be due, that is every step. -/
theorem nodeLoopIdlesAndDeadEndIsForEver : Obligations.NodeLoopIdlesAndDeadEndIsForEver := by
  constructor
  · intro s hw hn hrun hs hb hpc hd hcnt
    exact ⟨_, step_nodeLoop_idles hw hn hrun hs hb hpc hd hcnt, elapse_block _, elapse_trace _, elapse_host _⟩
  · intro s hw hn hdead
    have ⟨hrun, hs, hpc, hb, hen, hcnt⟩ := hdead
    have hd : s.irqDue = false := by simp [State.irqDue, hen]
    exact ⟨_, step_nodeLoop_idles hw hn hrun hs hb hpc hd hcnt, deadEnd_elapse (s := { s with host := hostAfterWait s }) hdead,
      elapse_block _, elapse_trace _, elapse_host _⟩

/-! ## A part of a micro-sequence -/

/-- A part whose transfers complete, no debug handshake in it, is done in one go, and the run goes on with the rest. -/
theorem runMicros_over {ms : List Micro} {s : State} {n : Nat} (rest : List Micro) (hu : Unwatched s)
    (hwaits : ms.all goesOn = true ∧ ms.countP transfersByte = n ∧ ms.countP echoesByte = 0) (ht : TransfersComplete n s) :
    ∃ (u : State) (d : Nat → Byte), runMicros (ms ++ rest) s = runMicros rest u
      ∧ u.block = viewRun ms ((List.range n).map d) s.block
      ∧ u.trace = s.trace ++ eventsRun ms ((List.range n).map d) s.block ∧ OutsideAfter n 0 s u := by
  obtain ⟨hg, rfl, hecho⟩ := hwaits
  obtain ⟨u, rs, hrun, hlen, hblock, htrace, hout⟩ := runList_completes ms s hu hg ht (by simp [EchoesComplete, hecho])
  obtain ⟨d, rfl⟩ := list_as_bytes hlen
  exact ⟨u, d, runMicros_append rest hrun, hblock, htrace, hecho ▸ hout⟩

/-- So is a whole micro-sequence, whose end is SEQ <- Idle (R72). -/
theorem runMicros_completes {ms : List Micro} {s : State} {n : Nat} (hu : Unwatched s)
    (hwaits : ms.all goesOn = true ∧ ms.countP transfersByte = n ∧ ms.countP echoesByte = 0) (ht : TransfersComplete n s) :
    ∃ d : Nat → Byte, (runMicros ms s).block = backToIdle (viewRun ms ((List.range n).map d) s.block)
      ∧ (runMicros ms s).trace = s.trace ++ eventsRun ms ((List.range n).map d) s.block := by
  obtain ⟨u, d, hrun, hblock, htrace, -⟩ := runMicros_over [] hu hwaits ht
  rw [List.append_nil, runMicros_nil] at hrun
  rw [hrun]
  exact ⟨d, congrArg backToIdle hblock, htrace⟩

/-- With no RST in it, a step inside a sequence goes on with what is left (R12). -/
theorem step_goes_on {s : State} {ms : List Micro} (hw : s.cfg.wellFormed = true) (hn : NoRst s) (hs : s.seq = .op)
    (htodo : s.todo = ms) : step s = .next (runMicros ms { s with host := hostAfterWait s }) := by
  rw [step_without_rst hw hn, stepBlock_resumes (by simp [hs]), ← htodo]
  rfl

/-! ## The labels -/

/-- At the label `poll:` the sequence goes on in the next step (R192; log entry 9). -/
theorem micro_poll (s : State) : micro .poll s = .jump (sample (elapse s)) (pollProgram s.cfg) := by
  rw [← elapse_cfg s]
  rfl

/-- The test after a poll: the poll is counted and the sequence goes to a label while the send goes on, else only time passes (R192,
R194). -/
theorem micro_pollTest (s : State) :
    micro .pollTest s =
      if stillSending s.cfg s.tmp then
        .jump (sample { elapse s with pollcnt := s.pollcnt + 1, upc := s.upc + 1 })
          (if pollLimitReached s.cfg (s.pollcnt + 1) then timeoutProgram else pollProgram s.cfg)
      else .more (sample (elapse s)) := by
  simp only [micro, effect, pollTest, microSteps, elapse_cfg, elapse_tmp, elapse_pollcnt]
  split
  · simp only [afterMicro, elapse_upc]
  · rfl

/-- A jump ends the step at its target, with no look to come. -/
theorem runMicros_jump {m : Micro} {s t : State} {target : List Micro} (ms : List Micro) (hl : Unwatched s)
    (hm : micro m s = .jump t target) : runMicros (m :: ms) s = { t with todo := target } := by
  simp only [runMicros, runList_cons hl, hm]

/-- The send goes on while the status byte has neither end flag (R154). -/
theorem stillSending_iff {p : Params} {status : Byte} :
    stillSending p status = true ↔ status &&& (p.mTxDs ||| p.mMaxRt) = 0 :=
  beq_iff_eq

/-- MAX_POLL is reached when it is finite and no greater than the count (R194). -/
theorem pollLimitReached_iff {p : Params} {polls : Nat} :
    pollLimitReached p polls = true ↔ ∃ n, p.maxPoll = some n ∧ n ≤ polls := by
  unfold pollLimitReached
  cases p.maxPoll <;> simp

/-! ## From NL_CHECK to the first poll -/

/-- The Node Loop has an idle step with no exchange in progress and no interrupt due (R190, R213). -/
theorem stepBlock_nodeLoop {w : Option CmdWord} {s : State} (hs : s.seq = .idle) (hb : s.busOut = none) (hd : s.irqDue = false)
    (hrun : s.running = true) : stepBlock w s = .next (nodeLoopStep s) := by
  simp [stepBlock, idleStep, hs, hb, hd, hrun]

/-- At NL_CHECK a full counter starts the cycle (R190; log entry 31). -/
theorem nodeLoopStep_starts {s : State} (hpc : s.nlpc = .check) (hcnt : s.rxcnt.toNat = payloadLen) :
    nodeLoopStep s = runMicros (cycleProgram s.cfg s.txbuf) (startCycle s) := by
  simp only [nodeLoopStep, hpc, if_pos hcnt]

/-- With no RST in it, the step that finds the cycle's condition runs the cycle's first part (R190; log entry 31). -/
theorem step_startsCycle {s : State} (hw : s.cfg.wellFormed = true) (hn : NoRst s) (hs : s.seq = .idle) (hb : s.busOut = none)
    (hd : s.irqDue = false) (hrun : s.running = true) (hpc : s.nlpc = .check) (hcnt : s.rxcnt.toNat = payloadLen) :
    step s = .next (runMicros (cycleProgram s.cfg s.txbuf) (startCycle { s with host := hostAfterWait s })) :=
  calc
    step s = stepBlock (presented s) { s with host := hostAfterWait s } := step_without_rst hw hn
    _ = .next (nodeLoopStep { s with host := hostAfterWait s }) := stepBlock_nodeLoop hs hb hd hrun
    _ = _ := congrArg _ (nodeLoopStep_starts hpc hcnt)

/-- The cycle's first part without the label at its end (R191). -/
def cycleToPoll (p : Params) (pl : Payload) : List Micro :=
  .clearCount :: (enterTxBody p ++ (sendBody p pl ++ [.clearPolls, .setNlpc .poll]))

theorem cycleProgram_eq (p : Params) (pl : Payload) : cycleProgram p pl = cycleToPoll p pl ++ [.poll] := by
  simp only [cycleProgram, cycleToPoll, List.append_assoc, List.cons_append, List.nil_append]

/-- It makes ENTER_TX's fifteen transfers and SEND's ten (R272). -/
theorem cycleToPoll_waits (p : Params) (pl : Payload) :
    (cycleToPoll p pl).all goesOn = true ∧ (cycleToPoll p pl).countP transfersByte = 25
      ∧ (cycleToPoll p pl).countP echoesByte = 0 := by
  obtain ⟨htx, htxn, htxe⟩ := enterTxBody_waits p
  obtain ⟨hsend, hsendn, hsende⟩ := sendBody_waits p pl
  simp [cycleToPoll, htx, htxn, htxe, hsend, hsendn, hsende, goesOn, transfersByte, echoesByte]

theorem viewRun_clearCount (ms : List Micro) (rs : List Byte) (v : BlockView) :
    viewRun (.clearCount :: ms) rs v = viewRun ms rs { v with rxcnt := 0, upc := v.upc + 1 } := rfl

theorem eventsRun_clearCount (ms : List Micro) (rs : List Byte) (v : BlockView) :
    eventsRun (.clearCount :: ms) rs v = eventsRun ms rs { v with rxcnt := 0, upc := v.upc + 1 } := rfl

theorem range_25_map (d : Nat → Byte) :
    (List.range 25).map d = [d 0, d 1, d 2, d 3, d 4, d 5, d 6, d 7, d 8, d 9, d 10, d 11, d 12, d 13, d 14, d 15, d 16, d 17, d 18,
      d 19, d 20, d 21, d 22, d 23, d 24] := rfl

theorem viewRun_cycleToPoll (p : Params) (pl : Payload) (d : Nat → Byte) (v : BlockView) :
    viewRun (cycleToPoll p pl) ((List.range 25).map d) v =
      { v with
        upc := v.upc + 103, rxcnt := 0, nlpc := .poll, pollcnt := 0, tmp := d 12, rx := d 24, csn := true, ce := false
        mode := .transmitting } := by
  rw [cycleToPoll, range_25_map, viewRun_clearCount, viewRun_enterTxBody, viewRun_sendBody]
  rfl

theorem eventsRun_cycleToPoll (p : Params) (pl : Payload) (d : Nat → Byte) (v : BlockView) :
    eventsRun (cycleToPoll p pl) ((List.range 25).map d) v = enterTxEvents p d 0 ++ sendEvents p pl d 15 := by
  rw [cycleToPoll, range_25_map, eventsRun_clearCount, eventsRun_enterTxBody p _ _ d 0, eventsRun_sendBody p _ _ pl d 15]
  exact congrArg _ (List.append_nil _)

/-- Settles O36: the first part's law, up to the label. -/
theorem cycleTransmitsThePayload : Obligations.CycleTransmitsThePayload := by
  intro s hw hn hs hb hrun hpc hd hcnt hu ht
  have hfull : s.rxcnt.toNat = payloadLen := by rw [hcnt]; rfl
  obtain ⟨u, d, hgo, hblock, htrace, -, -, -, -, hlooks⟩ :=
    runMicros_over (s := startCycle { s with host := hostAfterWait s }) [.poll] hu (cycleToPoll_waits s.cfg s.txbuf) ht
  rw [viewRun_cycleToPoll] at hblock
  rw [eventsRun_cycleToPoll, ← List.append_assoc] at htrace
  have hcfg : u.cfg = s.cfg := congrArg BlockView.cfg hblock
  refine ⟨{ sample (elapse u) with todo := pollProgram s.cfg }, d, ?step, ?block, rfl, (elapse_trace u).trans htrace⟩
  case step =>
    rw [step_startsCycle hw hn hs hb hd hrun hpc hfull, cycleProgram_eq, hgo, runMicros_jump [] (hlooks.trans hu) (micro_poll u),
      hcfg]
  case block =>
    refine (elapse_block u).trans (hblock.trans ?_)
    rw [startCycle_block, Nat.zero_add]
    rfl

/-! ## A poll -/

/-- The cycle's third part, after a poll that has found the send finished (R193). -/
def cycleAfterPoll (p : Params) : List Micro :=
  resetStatusBody p ++ (enterRxBody p ++ [.ce true, .setIrqEn true, .setNlpc .check, .clearPolls])

theorem pollProgram_eq (p : Params) :
    pollProgram p = (statusFrame p ++ [.storeTmp]) ++ .pollTest :: cycleAfterPoll p := by
  simp only [pollProgram, cycleAfterPoll, List.append_assoc, List.cons_append, List.nil_append]

/-- From the label `poll:` the step makes a status frame and comes to the test (R192). -/
theorem step_polls {s : State} (hw : s.cfg.wellFormed = true) (hn : NoRst s) (hs : s.seq = .op) (htodo : s.todo = pollProgram s.cfg)
    (hu : Unwatched s) (ht : TransfersComplete 1 s) :
    ∃ (u : State) (d0 : Byte), step s = .next (runMicros (.pollTest :: cycleAfterPoll s.cfg) u)
      ∧ u.block = { s.block with upc := s.upc + 7, tmp := d0, rx := d0, csn := true }
      ∧ u.trace = s.trace ++ shortFrame s.cfg s.cfg.opcNop d0 ∧ Unwatched u ∧ u.answers = s.answers.drop 1 := by
  obtain ⟨u, d, hgo, hblock, htrace, -, hans, -, -, hlooks⟩ :=
    runMicros_over (ms := statusFrame s.cfg ++ [.storeTmp]) (s := { s with host := hostAfterWait s })
      (n := 1) (.pollTest :: cycleAfterPoll s.cfg) hu ⟨rfl, rfl, rfl⟩ ht
  refine ⟨u, d 0, ?_, hblock.trans (viewRun_statusFrame ..), ?_, hlooks.trans hu, hans⟩
  · rw [step_goes_on hw hn hs htodo, pollProgram_eq, hgo]
  · exact htrace.trans (congrArg _ ((eventsRun_statusFrame ..).trans (List.append_nil _)))

/-- Settles O37: a poll's test that finds the send going on jumps, and from `timeout:` the four writes end the cycle. -/
theorem pollStillSendingCountsOrTimesOut : Obligations.PollStillSendingCountsOrTimesOut := by
  constructor
  · intro s hw hn hs htodo hu ht
    obtain ⟨u, d0, hx, hblock, htrace, hlooks, -⟩ := step_polls hw hn hs htodo hu ht
    refine ⟨_, d0, hx, htrace ▸ runMicros_trace .., fun hd => ?_⟩
    have hcfg : u.cfg = s.cfg := congrArg BlockView.cfg hblock
    have htmp : u.tmp = d0 := congrArg BlockView.tmp hblock
    have hpolls : u.pollcnt = s.pollcnt := congrArg BlockView.pollcnt hblock
    have hupc : u.upc = s.upc + 7 := congrArg BlockView.upc hblock
    have htest := micro_pollTest u
    rw [hcfg, htmp, if_pos (stillSending_iff.mpr hd), hpolls, hupc] at htest
    rw [runMicros_jump _ hlooks htest]
    refine ⟨(elapse_trace u).trans htrace, ?_, if_congr pollLimitReached_iff rfl rfl⟩
    show { (elapse u).block with pollcnt := s.pollcnt + 1, upc := s.upc + 7 + 1 } = _
    rw [elapse_block, hblock]
  · intro s hw hn hs htodo hu
    obtain ⟨d, hblock, htrace⟩ := runMicros_completes (ms := timeoutProgram) (n := 0) (s := { s with host := hostAfterWait s }) hu
      ⟨rfl, rfl, rfl⟩ rfl
    exact ⟨_, step_goes_on hw hn hs htodo, htrace.trans (List.append_nil _), hblock⟩

/-! ## After the last poll -/

/-- It makes RESET_STATUS's two transfers and ENTER_RX's eleven (R272). -/
theorem cycleAfterPoll_waits (p : Params) :
    (cycleAfterPoll p).all goesOn = true ∧ (cycleAfterPoll p).countP transfersByte = 13
      ∧ (cycleAfterPoll p).countP echoesByte = 0 := by
  obtain ⟨hrx, hrxn, hrxe⟩ := enterRxBody_waits p
  obtain ⟨hreset, hresetn, hresete⟩ := regWrite_waits p p.regStatus (mStAll p)
  simp [cycleAfterPoll, resetStatusBody, clearFlags, hrx, hrxn, hrxe, hreset, hresetn, hresete, goesOn, transfersByte, echoesByte]

theorem range_13_map (d : Nat → Byte) :
    (List.range 13).map d = [d 0, d 1, d 2, d 3, d 4, d 5, d 6, d 7, d 8, d 9, d 10, d 11, d 12] := rfl

theorem viewRun_cycleAfterPoll (p : Params) (d : Nat → Byte) (v : BlockView) :
    viewRun (cycleAfterPoll p) ((List.range 13).map d) v =
      { v with
        upc := v.upc + 64, nlpc := .check, pollcnt := 0, tmp := d 10, rx := d 12, csn := true, ce := true, irqEn := true
        mode := .listening } := by
  rw [cycleAfterPoll, range_13_map, resetStatusBody, clearFlags, viewRun_regWrite, viewRun_enterRxBody]
  simp [viewRun, viewMicro, viewEffect, microSteps, transfersByte]

theorem eventsRun_cycleAfterPoll (p : Params) (d : Nat → Byte) (v : BlockView) :
    eventsRun (cycleAfterPoll p) ((List.range 13).map d) v =
      writeFrame p p.regStatus (mStAll p) (d 0) (d 1) ++ enterRxEvents p d 2 ++ [.ce true] := by
  rw [cycleAfterPoll, range_13_map, resetStatusBody, clearFlags, eventsRun_regWrite, eventsRun_enterRxBody p _ _ d 2]
  exact (List.append_assoc ..).symm

/-- The bytes received, `r` before those of `d`. -/
def bytesFrom (r : Byte) (d : Nat → Byte) : Nat → Byte
  | 0 => r
  | k + 1 => d k

theorem enterRxEvents_bytesFrom (p : Params) (r : Byte) (d : Nat → Byte) (n : Nat) :
    enterRxEvents p (bytesFrom r d) (n + 1) = enterRxEvents p d n := rfl

/-- Settles O38: after a poll's test that finds the send finished, the third part's law. -/
theorem pollFinishedReturnsToListening : Obligations.PollFinishedReturnsToListening := by
  intro s hw hn hs htodo hu ht
  obtain ⟨hpoll, hlater⟩ := (completes_add (m := 1) (n := 13)).mp ht
  obtain ⟨u, d0, hx, hblock, htrace, hlooks, hans⟩ := step_polls hw hn hs htodo hu hpoll
  cases hsend : stillSending s.cfg d0
  case true =>
    exact ⟨_, fun _ => d0, hx, htrace ▸ runMicros_trace .., fun h => absurd (stillSending_iff.mp hsend) h⟩
  case false =>
    have hcfg : u.cfg = s.cfg := congrArg BlockView.cfg hblock
    have htmp : u.tmp = d0 := congrArg BlockView.tmp hblock
    have htest := micro_pollTest u
    rw [hcfg, htmp, hsend] at htest
    rw [runMicros_more _ hlooks htest] at hx
    obtain ⟨d, hend, hevents⟩ := runMicros_completes (ms := cycleAfterPoll s.cfg) (s := sample (elapse u))
      ((elapse_looks u).trans hlooks) (cycleAfterPoll_waits s.cfg) (completes_congr hlater ((elapse_answers u).trans hans))
    rw [viewRun_cycleAfterPoll, sample_block, elapse_block, hblock] at hend
    rw [eventsRun_cycleAfterPoll, sample_trace, elapse_trace, htrace] at hevents
    refine ⟨_, bytesFrom d0 d, hx, ?_, fun _ => ⟨hend, ?_⟩⟩
    · exact hevents ▸ List.prefix_append _ _
    · simp only [hevents, bytesFrom, enterRxEvents_bytesFrom, List.append_assoc]

end Sys2Proof.Machine
end

section
/-! PROOFS of the statement about the edge detector (R211, R212): nothing but a sample, handler entry and RST writes IRQ_PEND and IRQ_PREV,
and between two samples nothing but the environment and a transfer moves the line. -/

namespace Sys2Proof.Machine

/-! ## Between two samples -/

/-- What a step's parts between two samples leave of IRQ_N and its detector: IRQ_PEND and IRQ_PREV stand still; a reference peer sets no
flag; a peer that is or becomes unconstrained leaves the line where it was (R212; log entry 14). -/
structure BetweenSamples (s t : State) : Prop where
  pend : t.irqPend = s.irqPend
  prev : t.irqPrev = s.irqPrev
  env : t.env = s.env
  cfg : t.cfg = s.cfg
  line : t.peer.kind = .oracle → irqLine t = irqLine s
  flags : t.peer.kind = .reference → s.peer.kind = .reference ∧ ∀ flag, s.peer.st &&& flag = 0 → t.peer.st &&& flag = 0

/-- Where neither the peer nor the detector is touched, the line is where it was. -/
theorem betweenSamples_of_eq {s t : State} (hpend : t.irqPend = s.irqPend) (hprev : t.irqPrev = s.irqPrev) (henv : t.env = s.env)
    (hcfg : t.cfg = s.cfg) (hpeer : t.peer = s.peer) (hline : t.irqN = s.irqN) : BetweenSamples s t where
  pend := hpend
  prev := hprev
  env := henv
  cfg := hcfg
  line _ := by simp only [irqLine, hpeer, hcfg, hline]
  flags hk := ⟨hpeer ▸ hk, fun _ h => hpeer ▸ h⟩

/-- A peer that sets no flag, and whose predecessor's line the pin keeps (log entry 14). -/
theorem betweenSamples_setPeer {q : Peer} {s : State}
    (h : q.kind = .reference → s.peer.kind = .reference ∧ q.st = s.peer.st) : BetweenSamples s (setPeer q s) where
  pend := rfl
  prev := rfl
  env := rfl
  cfg := rfl
  line hk := by rw [irqLine, show (setPeer q s).peer.kind = .oracle from hk]; rfl
  flags hk := ⟨(h hk).1, fun _ hst => (h hk).2 ▸ hst⟩

/-- An edge of CSN sets no flag (R57, R60). -/
theorem onCsn_flags {level : Bool} {q : Peer} (h : (q.onCsn level).kind = .reference) :
    q.kind = .reference ∧ (q.onCsn level).st = q.st := by
  revert h
  unfold Peer.onCsn
  split
  · next hk => exact fun h => absurd (hk.symm.trans h) (by decide)
  · next hk =>
    refine fun _ => ⟨hk, ?_⟩
    split
    · rfl
    · split
      · split
        · split <;> rfl
        · rfl
      all_goals rfl

/-- An edge of CE neither (R61). -/
theorem onCe_flags (p : Params) (level : Bool) (q : Peer) : (q.onCe p level).kind = q.kind ∧ (q.onCe p level).st = q.st := by
  unfold Peer.onCe
  split
  · exact ⟨rfl, rfl⟩
  · split <;> exact ⟨rfl, rfl⟩

/-- A transfer clears flags at most (R45, R57 to R60). -/
theorem transfer_flags (p : Params) (csn : Bool) (b : Byte) (q : Peer) :
    (q.transfer p csn b).2.kind = q.kind ∧ ∀ flag, q.st &&& flag = 0 → (q.transfer p csn b).2.st &&& flag = 0 := by
  unfold Peer.transfer
  split
  · exact ⟨rfl, fun _ h => h⟩
  · split
    · exact ⟨rfl, fun _ h => h⟩
    · split
      · unfold Peer.command
        simp only
        split <;> exact ⟨rfl, fun _ h => h⟩
      · refine ⟨?_, fun flag h => ?_⟩ <;> simp only [Peer.dataEffect]
        · split <;> try rfl
          split <;> [skip; split] <;> rfl
        · split <;> try exact h
          split
          · rw [BitVec.and_assoc, BitVec.and_comm (~~~ _), ← BitVec.and_assoc, h]
            exact BitVec.zero_and
          · split <;> exact h

/-- A transfer, completed or held, is between two samples (R101). -/
theorem betweenSamples_xfer (b : Byte) (s : State) : BetweenSamples s (xfer b s).state := by
  have exchanged : ∀ (d : Byte) (u : State), u.irqPend = s.irqPend → u.irqPrev = s.irqPrev → u.env = s.env → u.cfg = s.cfg →
      u.peer = s.peer → u.irqN = s.irqN → BetweenSamples s (exchange b d u).state := by
    intro d u hpend hprev henv hcfg hpeer hline
    obtain ⟨hkind, hflags⟩ := transfer_flags u.cfg u.csn b u.peer
    refine ⟨hpend, hprev, henv, hcfg, fun hk => ?_, fun hk => ⟨?_, fun flag h => hflags flag (hpeer ▸ h)⟩⟩
    · have hs : s.peer.kind = .oracle := by rw [← hpeer, ← hkind]; exact hk
      rw [irqLine, irqLine, hk, hs]
      exact hline
    · rw [← hpeer, ← hkind]
      exact hk
  unfold xfer
  split
  · exact exchanged _ _ rfl rfl rfl rfl rfl rfl
  · exact betweenSamples_of_eq rfl rfl rfl rfl rfl rfl
  · exact betweenSamples_of_eq rfl rfl rfl rfl rfl rfl
  · exact exchanged _ _ rfl rfl rfl rfl rfl rfl

theorem transfer_state (b : Byte) (s : State) : (transfer b s).state = (xfer b s).state := by
  unfold transfer
  split <;> rename_i h <;> rw [h] <;> rfl

/-- What a micro-operation does once time has passed is between two samples. -/
theorem betweenSamples_effect (m : Micro) (s : State) : BetweenSamples s (effect m s).state := by
  have untouched : BetweenSamples s s := betweenSamples_of_eq rfl rfl rfl rfl rfl rfl
  cases m
  case send b => exact transfer_state b s ▸ betweenSamples_xfer b s
  case sendRmw keep set => exact transfer_state (rmwByte s.tmp keep set) s ▸ betweenSamples_xfer _ s
  case csn level =>
    obtain ⟨hpend, hprev, henv, hcfg, hline, hflags⟩ := betweenSamples_setPeer (s := s) (onCsn_flags (level := level))
    exact ⟨hpend, hprev, henv, hcfg, hline, hflags⟩
  case ce level =>
    obtain ⟨hkind, hst⟩ := onCe_flags s.cfg level s.peer
    refine ⟨rfl, rfl, rfl, rfl, fun hk => ?_, fun hk => ⟨hkind.symm.trans hk, fun flag h => ?_⟩⟩
    · rw [irqLine, irqLine, hk, ← hkind, show (s.peer.onCe s.cfg level).kind = .oracle from hk]
      rfl
    · exact hst ▸ h
  case echo =>
    show BetweenSamples s (dbgOut s.tmp s).state
    unfold dbgOut
    split <;> exact betweenSamples_of_eq rfl rfl rfl rfl rfl rfl
  case count =>
    show BetweenSamples s (if _ then _ else _)
    unfold countUp
    split <;> [split; skip] <;> exact betweenSamples_of_eq rfl rfl rfl rfl rfl rfl
  case pollTest =>
    show BetweenSamples s (pollTest s).state
    unfold pollTest
    split <;> exact betweenSamples_of_eq rfl rfl rfl rfl rfl rfl
  all_goals exact betweenSamples_of_eq rfl rfl rfl rfl rfl rfl

/-- So is the end of a sequence (R263; log entries 14 and 28). -/
theorem betweenSamples_toIdle (s : State) : BetweenSamples s (toIdle s) := by
  obtain ⟨hpend, hprev, henv, hcfg, hline, hflags⟩ := betweenSamples_setPeer (q := s.peer.leftWithCe s.cfg s.ce)
    (s := { s with seq := .idle, upc := 0, todo := [] }) fun hk => by
      revert hk
      unfold Peer.leftWithCe
      split
      · exact fun hk => absurd hk (by simp [Peer.unconstrained])
      · exact fun hk => ⟨hk, rfl⟩
  exact ⟨hpend, hprev, henv, hcfg, hline, hflags⟩

/-- A micro-operation: time passes, its effect, a sample (R212). -/
theorem micro_sampled (m : Micro) (s : State) :
    ∃ n, (micro m s).state = sample { (effect m (elapse s)).state with upc := n } := by
  unfold micro
  cases effect m (elapse s) <;> exact ⟨_, rfl⟩

/-! ## A new level at the oracle -/

/-- After a sample IRQ_PREV is the line's level (R212). -/
theorem elapse_samples (s : State) : (elapse s).irqPrev = irqLine (elapse s) := by
  unfold elapse
  split <;> rfl

/-- A second sample with the line where it was changes nothing of the detector (R212). -/
theorem sample_unmoved {s : State} (h : irqLine s = s.irqPrev) : (sample s).irqPend = s.irqPend ∧ (sample s).irqPrev = s.irqPrev := by
  refine ⟨?_, h⟩
  simp [pendAfterSample, h]

/-- IRQ_PEND after a sample: it was set, or the level fell while edges count (R212). -/
theorem pendAfterSample_iff {pend prev level en latch : Bool} :
    pendAfterSample pend prev level en latch = true ↔
      pend = true ∨ (prev = true ∧ level = false ∧ (en = true ∨ latch = true)) := by
  simp [pendAfterSample, and_assoc]

/-- The oracle peer has driven IRQ_N to `level`, which the block has sampled: `rest` is what the environment does after that (R212). -/
def LevelSampled (level : Bool) (rest : List EnvMove) (s t : State) : Prop :=
  t.irqPrev = level ∧ t.env = rest
    ∧ (t.irqPend = true ↔ s.irqPend = true ∨ (s.irqPrev = true ∧ level = false ∧ (s.irqEn = true ∨ s.cfg.irqLatch = true)))

/-- While time passes the oracle's new level is sampled. -/
theorem elapse_levelSampled {s : State} {level : Bool} {rest : List EnvMove} (hk : s.peer.kind = .oracle)
    (he : s.env = .irq level :: rest) : LevelSampled level rest s (elapse s) := by
  have hline : irqLine (applyEnv (.irq level) { s with env := rest }) = level := by
    simp only [irqLine, applyEnv, hk]
  rw [elapse_move he]
  refine ⟨hline, rfl, ?_⟩
  rw [sample_irqPend, hline]
  exact pendAfterSample_iff

/-- A whole micro-operation samples the new level: after its effect the oracle's line is where it was. -/
theorem micro_levelSampled {s : State} {level : Bool} {rest : List EnvMove} (m : Micro) (hk : s.peer.kind = .oracle)
    (he : s.env = .irq level :: rest) : LevelSampled level rest s (micro m s).state := by
  obtain ⟨hprev, henv, hpend⟩ := elapse_levelSampled hk he
  obtain ⟨n, hm⟩ := micro_sampled m s
  have hb := betweenSamples_effect m (elapse s)
  have horacle : (effect m (elapse s)).state.peer.kind = .oracle := by
    cases hkind : (effect m (elapse s)).state.peer.kind
    · rfl
    · exact absurd ((elapse_peer s).1.symm.trans (hb.flags hkind).1) (by simp [hk])
  have hline : irqLine { (effect m (elapse s)).state with upc := n } = (effect m (elapse s)).state.irqPrev :=
    (hb.line horacle).trans ((elapse_samples s).symm.trans hb.prev.symm)
  obtain ⟨hpend', hprev'⟩ := sample_unmoved hline
  rw [hm]
  refine ⟨hprev'.trans (hb.prev.trans hprev), hb.env.trans henv, ?_⟩
  rw [hpend']
  exact hb.pend ▸ hpend

/-- The host's look after a micro-operation ends the run there, whatever that micro-operation is and whether or not it waits. -/
theorem resume_levelSampled {s : State} {m : Micro} {ms : List Micro} {level : Bool} {rest : List EnvMove} {looks : List Nat}
    (htodo : s.todo = m :: ms) (hl : s.looks = 1 :: looks) (hk : s.peer.kind = .oracle) (he : s.env = .irq level :: rest) :
    LevelSampled level rest s (resume s) := by
  have hnot : lookDue s = false := by simp [lookDue, hl]
  have hlooks := (micro_looks m (towardsLook s)).1
  have hsampled := micro_levelSampled m (s := towardsLook s) hk he
  rw [resume, htodo, runMicros_cons, hnot]
  cases hm : micro m (towardsLook s) with rw [hm] at hlooks hsampled
  | hold t => exact hsampled
  | jump t target => exact hsampled
  | more t =>
    cases ms with
    | nil => exact hsampled
    | cons m' ms =>
      have hdue : lookDue t = true := by
        rw [lookDue, show t.looks = (towardsLook s).looks from hlooks]
        simp [towardsLook, hl]
      show LevelSampled level rest s (runMicros (m' :: ms) t)
      rw [runMicros_look ms hdue]
      exact hsampled

/-! ## IRQ_PEND stays set -/

/-- No instruction clears a pending interrupt (R211). -/
theorem exec_keeps_pending {i : Instr} {s t : State} (h : s.irqPend = true) (hx : exec i s = .next t) : t.irqPend = true :=
  exec_keeps (P := fun s => s.irqPend = true) ⟨fun _ _ h => h, fun _ _ h => h, fun _ _ h => h⟩ (fun _ _ _ _ h => h) (fun _ h => h)
    (fun _ h => elapse_keeps_pending h) (fun _ h => sample_keeps_pending h) (fun _ _ h => micro_keeps_pending h)
    (fun b s h => (betweenSamples_xfer b s).pend.trans h) h hx

/-- Neither does the exchange of a byte that is no wire command. -/
theorem exchangeByte_keeps_pending {b : Byte} {s t : State} (h : s.irqPend = true) (hx : exchangeByte b s = .next t) :
    t.irqPend = true :=
  exchangeByte_keeps (P := fun s => s.irqPend = true) (fun _ h => elapse_keeps_pending h) (fun _ h => sample_keeps_pending h)
    (fun s h => (betweenSamples_xfer b s).pend.trans h) h hx

/-- Of the parts of an idle step only the handler's entry clears a pending interrupt (R211, R215). -/
theorem idleStep_keeps_pending {w : Option CmdWord} {s t : State} (h : s.irqPend = true) (hen : s.busOut = none → s.irqEn = false)
    (hx : idleStep w s = .next t) : t.irqPend = true := by
  unfold idleStep at hx
  split at hx
  · unfold acceptWire at hx
    split at hx
    · exact exec_keeps_pending h hx
    · exact exchangeByte_keeps_pending h hx
  · next hbus =>
    have hdue : s.irqDue = false := by simp [State.irqDue, hen hbus]
    rw [hdue] at hx
    simp only [Bool.false_eq_true, if_false] at hx
    split at hx
    · injection hx with hx
      subst hx
      unfold nodeLoopStep
      split
      · split
        · exact runMicros_keeps_pending (s := startCycle s) h
        · exact elapse_keeps_pending h
      · exact runMicros_keeps_pending (s := startCycle s) h
    · split at hx
      · unfold acceptWord at hx
        split at hx
        · exact exec_keeps_pending (s := { s with host := hostAfterAccept s }) h hx
        · unfold execReserved command at hx
          split at hx <;> injection hx with hx <;> subst hx
          · exact runMicros_keeps_pending (s := accept _ _ _ { s with host := hostAfterAccept s }) h
          · exact h
      · injection hx with hx
        exact hx ▸ elapse_keeps_pending h

/-- With SEQ idle the block's step is the idle step (R190, R213). -/
theorem stepBlock_idle {w : Option CmdWord} {s : State} (hs : s.seq = .idle) : stepBlock w s = idleStep w s := by
  unfold stepBlock
  rw [hs]

/-- Only a well-formed configuration has a next state (R6, U11). -/
theorem wellFormed_of_step {s t : State} (hx : step s = .next t) : s.cfg.wellFormed = true := by
  cases hw : s.cfg.wellFormed
  · rw [step_refuses_illFormed hw] at hx
    cases hx
  · rfl

/-- Over a step IRQ_PEND falls only at RST and at handler entry (R211). -/
theorem step_clears_pending {s t : State} (hx : step s = .next t) (hp : s.irqPend = true) (hc : t.irqPend = false) :
    rstDue s = true ∨ (s.seq = .idle ∧ s.busOut = none ∧ s.irqEn = true) := by
  by_contra hno
  rw [not_or, Bool.not_eq_true] at hno
  obtain ⟨hn, hno⟩ := hno
  rw [step_without_rst (wellFormed_of_step hx) hn] at hx
  refine Bool.false_ne_true (hc.symm.trans ?_)
  by_cases hs : s.seq = .idle
  · rw [stepBlock_idle (s := { s with host := hostAfterWait s }) hs] at hx
    exact idleStep_keeps_pending (s := { s with host := hostAfterWait s }) hp
      (fun hb => Bool.eq_false_of_not_eq_true fun hen => hno ⟨hs, hb, hen⟩) hx
  · rw [stepBlock_resumes (s := { s with host := hostAfterWait s }) hs] at hx
    injection hx with hx
    exact hx ▸ runMicros_keeps_pending (s := { s with host := hostAfterWait s }) hp

/-! ## No falling edge -/

/-- No interrupt is pending and no falling edge comes (R212). -/
def Calm (s : State) : Prop := s.irqPend = false ∧ NoFallComing s

/-- A sample sets nothing, and its level is not above the line's. -/
theorem calm_sample {s : State} (h : Calm s) : Calm (sample s) := by
  obtain ⟨hpend, henv, hlevel⟩ := h
  refine ⟨?_, henv, fun h => h⟩
  cases hprev : s.irqPrev
  · simp [pendAfterSample, hpend, hprev]
  · simp [pendAfterSample, hpend, hlevel hprev]

/-- What is between two samples and does not lower the line. -/
theorem calm_between {s t : State} (h : Calm s) (hb : BetweenSamples s t) (hl : irqLine s = true → irqLine t = true) : Calm t := by
  obtain ⟨hpend, henv, hlevel⟩ := h
  exact ⟨hb.pend.trans hpend, hb.env ▸ henv, fun hprev => hl (hlevel (hb.prev ▸ hprev))⟩

/-- A reference peer whose flags are only cleared does not lower the line where no flag was set or the masks are as they were (R62). -/
theorem line_stays_high {p : Params} {q u : Peer} (hf : ∀ flag, q.st &&& flag = 0 → u.st &&& flag = 0)
    (hc : q.st = 0 ∨ u.config p = q.config p) (h : q.line p = true) : u.line p = true := by
  have pulls : ∀ flag mask, pullsLine q.st flag (q.config p) mask = false → pullsLine u.st flag (u.config p) mask = false := by
    intro flag mask hq
    rw [← Bool.not_eq_true, pullsLine_iff, not_and_or, not_not] at hq ⊢
    rcases hc with hst | hc
    · exact .inl (hf flag (by simp [hst]))
    · rw [hc]
      exact hq.imp_left (hf flag)
  simp only [Peer.line, Bool.not_eq_true', Bool.or_eq_false_iff] at h ⊢
  obtain ⟨⟨hrx, htx⟩, hmax⟩ := h
  exact ⟨⟨pulls _ _ hrx, pulls _ _ htx⟩, pulls _ _ hmax⟩

/-- So neither does what is between two samples. -/
theorem betweenSamples_high {s t : State} (hb : BetweenSamples s t)
    (hc : s.peer.kind = .reference → s.peer.st = 0 ∨ t.peer.config s.cfg = s.peer.config s.cfg) (h : irqLine s = true) :
    irqLine t = true := by
  cases hk : t.peer.kind
  · exact (hb.line hk).trans h
  · obtain ⟨hks, hflags⟩ := hb.flags hk
    have hs : s.peer.line s.cfg = true := by rw [irqLine, hks] at h; exact h
    rw [irqLine, hk, hb.cfg]
    exact line_stays_high hflags (hc hks) hs

/-- No move of a calm environment touches the peer, and none lowers the line. -/
theorem elapse_calm {s : State} (h : Calm s) : Calm (elapse s) ∧ (elapse s).peer = s.peer := by
  unfold elapse
  split
  · exact ⟨calm_sample h, rfl⟩
  · next m rest he =>
    obtain ⟨hpend, henv, hlevel⟩ := h
    rw [he, List.all_cons, Bool.and_eq_true] at henv
    obtain ⟨hm, hrest⟩ := henv
    cases m with
    | quiet => exact ⟨calm_sample (s := { s with env := rest }) ⟨hpend, hrest, hlevel⟩, rfl⟩
    | irq level =>
      obtain rfl : level = true := hm
      refine ⟨calm_sample (s := { s with env := rest, irqN := true }) ⟨hpend, hrest, fun hprev => ?_⟩, rfl⟩
      have := hlevel hprev
      cases hk : s.peer.kind <;> simp_all [irqLine]
    | deliver pl => exact absurd hm Bool.false_ne_true
    | sendDone ok => exact absurd hm Bool.false_ne_true

/-- A micro-operation sets no interrupt pending where the reference peer has no flag set, or keeps its configuration (R62). -/
theorem calm_micro {m : Micro} {s : State} (h : Calm s)
    (hc : s.peer.kind = .reference → s.peer.st = 0 ∨ (micro m s).state.peer.config s.cfg = s.peer.config s.cfg) :
    Calm (micro m s).state := by
  obtain ⟨hcalm, hpeer⟩ := elapse_calm h
  obtain ⟨n, hm⟩ := micro_sampled m s
  rw [hm] at hc ⊢
  have hb := betweenSamples_effect m (elapse s)
  refine calm_sample (s := { (effect m (elapse s)).state with upc := n }) ?_
  refine calm_between (t := (effect m (elapse s)).state) hcalm hb (betweenSamples_high hb ?_)
  rw [hpeer, elapse_cfg]
  exact hc

theorem calm_toIdle {s : State} (h : Calm s) : Calm (toIdle s) :=
  calm_between h (betweenSamples_toIdle s) (betweenSamples_high (betweenSamples_toIdle s) fun _ =>
    .inr (congrArg (Memory.read · _) (toIdle_mem s)))

/-! ## No falling edge, and no flag set -/

/-- Calm, and the reference peer has no flag set. -/
def CalmClear (s : State) : Prop := Calm s ∧ (s.peer.kind = .reference → s.peer.st = 0)

theorem calmClear_between {s t : State} (h : CalmClear s) (hb : BetweenSamples s t) : CalmClear t := by
  obtain ⟨hcalm, hst⟩ := h
  refine ⟨calm_between hcalm hb (betweenSamples_high hb fun hk => .inl (hst hk)), fun hk => ?_⟩
  obtain ⟨hks, hflags⟩ := hb.flags hk
  have hall := hflags (BitVec.allOnes 8) (by simp [hst hks])
  rwa [BitVec.and_allOnes] at hall

theorem calmClear_sample {s : State} (h : CalmClear s) : CalmClear (sample s) := ⟨calm_sample h.1, h.2⟩

theorem calmClear_elapse {s : State} (h : CalmClear s) : CalmClear (elapse s) := by
  obtain ⟨hcalm, hpeer⟩ := elapse_calm h.1
  exact ⟨hcalm, hpeer ▸ h.2⟩

theorem calmClear_micro (m : Micro) {s : State} (h : CalmClear s) : CalmClear (micro m s).state := by
  obtain ⟨n, hm⟩ := micro_sampled m s
  rw [hm]
  exact calmClear_sample (calmClear_between (t := (effect m (elapse s)).state) (calmClear_elapse h) (betweenSamples_effect m _))

/-- RST clears IRQ_PEND and takes the line's level; the peer is as it was or unconstrained (R33). -/
theorem calmClear_resetBlock {s : State} (h : CalmClear s) : CalmClear (resetBlock s) := by
  obtain ⟨⟨-, henv, -⟩, hst⟩ := h
  refine ⟨⟨rfl, henv, fun hprev => (resetBlock_irqPrev s).symm.trans hprev⟩, ?_⟩
  show (if s.csn then s.peer else s.peer.unconstrained).kind = .reference → (if s.csn then s.peer else s.peer.unconstrained).st = 0
  split
  · exact hst
  · exact nofun

/-- No step from a calm state with no flag set sets IRQ_PEND (R211, R212). -/
theorem step_keeps_calmClear {s t : State} (h : CalmClear s) (hx : step s = .next t) : CalmClear t := by
  have overlooks : Overlooks CalmClear := ⟨fun _ _ h => h, fun _ _ h => h, fun _ _ h => h⟩
  refine step_keeps overlooks ?rst ?accept ?idle ?handler ?cycle ?elapse ?sample ?micro ?xfer h hx
  case rst => exact fun _ => calmClear_resetBlock (overlooks.host _ _ h)
  case accept => exact fun _ _ _ _ h => h
  case idle => exact fun u h => calmClear_between h (betweenSamples_toIdle u)
  case handler => exact fun _ h => ⟨⟨rfl, h.1.2⟩, h.2⟩
  case cycle => exact fun _ h => h
  case elapse => exact fun _ h => calmClear_elapse h
  case sample => exact fun _ h => calmClear_sample h
  case micro => exact fun m _ h => calmClear_micro m h
  case xfer => exact fun b u h => calmClear_between h (betweenSamples_xfer b u)

/-- Settles O32: an idle step and the coming micro-operation each sample the new level; only handler entry and RST clear IRQ_PEND, and
without a falling edge nothing sets it. -/
theorem fallingEdgeSetsPending : Obligations.FallingEdgeSetsPending := by
  refine ⟨?idle, ?inside, fun _ _ => step_clears_pending, ?calm⟩
  case idle =>
    intro s level rest hw hn hs hb hd hrun hidle hk he
    obtain ⟨hprev, -, hpend⟩ := elapse_levelSampled (s := { s with host := hostAfterWait s }) hk he
    exact ⟨_, (step_without_rst hw hn).trans (stepBlock_elapses (s := { s with host := hostAfterWait s }) hs hb hd hrun hidle),
      elapse_block _, elapse_trace _, hprev, hpend⟩
  case inside =>
    intro s m ms looks level rest hw hn hs htodo hl hk he
    exact ⟨_, (step_without_rst hw hn).trans (stepBlock_resumes (s := { s with host := hostAfterWait s }) hs),
      resume_levelSampled (s := { s with host := hostAfterWait s }) htodo hl hk he⟩
  case calm =>
    intro s t hcalm hst hx hpend
    exact (step_keeps_calmClear ⟨⟨hpend, hcalm⟩, hst⟩ hx).1.1

end Sys2Proof.Machine
end

section
/-! PROOFS of the statements about the handler (R213 to R218, R224): when the step enters it, what a whole capture does to the block, and
what it leaves in the reference peer. -/

namespace Sys2Proof.Machine

/-! ## Entry -/

/-- Settles O33: a due interrupt has the idle step. -/
theorem dueInterruptGoesFirst : Obligations.DueInterruptGoesFirst := fun _ hw hn hs hb hen hp =>
  step_captures hw hn hs hb (by simp [State.irqDue, hen, hp])

/-! ## The captured bytes -/

/-- The block's view `v` inside the handler's frame, up to what the captured bytes change: TMP, the byte received, RXBUF, the pair of RXCNT
and FAULT, and upc. -/
def capturing (v : BlockView) (tmp rx : Byte) (buf : Payload) (counts : Counter × BitVec 4) (n : Nat) : BlockView :=
  { v with tmp := tmp, rx := rx, rxbuf := buf, rxcnt := counts.1, fault := counts.2, upc := n }

section
variable (p : Params) (ms : List Micro) (v : BlockView) (tmp rx : Byte) (buf : Payload) (counts : Counter × BitVec 4) (n : Nat)
  (i : Fin payloadLen) (r : Byte) (rs : List Byte)

theorem viewRun_capturing :
    viewRun (captureByte p i ++ ms) (r :: rs) (capturing v tmp rx buf counts n) =
      viewRun ms rs (capturing v r r (buf.set i r) (countStep counts r) (n + (5 + if r = Config.sentinel then 1 else 0))) :=
  viewRun_captureByte p ms _ i r rs

theorem eventsRun_capturing :
    eventsRun (captureByte p i ++ ms) (r :: rs) (capturing v tmp rx buf counts n) =
      [.x p.opcNop r, .w p.tSettle, .d r] ++ eventsRun ms rs
        (capturing v r r (buf.set i r) (countStep counts r) (n + (5 + if r = Config.sentinel then 1 else 0))) :=
  eventsRun_captureByte p ms _ i r rs

end

/-- Eight bytes stored in order are the whole of RXBUF (R19, R216). -/
theorem set_all_eight (buf : Payload) (b0 b1 b2 b3 b4 b5 b6 b7 : Byte) :
    ((((((((buf.set 0 b0).set 1 b1).set 2 b2).set 3 b3).set 4 b4).set 5 b5).set 6 b6).set 7 b7) =
      #v[b0, b1, b2, b3, b4, b5, b6, b7] := by
  rcases buf with ⟨⟨l⟩, hl⟩
  match l, hl with
  | [_, _, _, _, _, _, _, _], _ => rfl

/-! ## The whole capture -/

theorem range_11_map (d : Nat → Byte) :
    (List.range 11).map d = [d 0, d 1, d 2, d 3, d 4, d 5, d 6, d 7, d 8, d 9, d 10] := rfl

/-- The handler's micro-sequence, part by part (R214). -/
theorem captureProgram_eq (p : Params) :
    captureProgram p =
      .ce false :: (frameBegin p ++ (frameByte p p.opcRRxPayload ++ (captureByte p 0 ++ (captureByte p 1 ++ (captureByte p 2
        ++ (captureByte p 3 ++ (captureByte p 4 ++ (captureByte p 5 ++ (captureByte p 6 ++ (captureByte p 7
        ++ (frameEnd ++ (clearFlags p p.mRxDr ++ [])))))))))))) := by
  simp only [captureProgram, rxPayloadFrame, List.append_assoc, List.cons_append, List.nil_append, List.append_nil]

/-- The work on one byte makes a transfer and an echo (R216). -/
theorem captureByte_waits (p : Params) (i : Fin payloadLen) :
    (captureByte p i).all goesOn = true ∧ (captureByte p i).countP transfersByte = 1 ∧ (captureByte p i).countP echoesByte = 1 :=
  ⟨rfl, rfl, rfl⟩

/-- The handler makes eleven transfers and eight echoes (R272). -/
theorem captureProgram_waits (p : Params) :
    (captureProgram p).all goesOn = true ∧ (captureProgram p).countP transfersByte = 11
      ∧ (captureProgram p).countP echoesByte = 8 := by
  obtain ⟨hclear, hclearn, hcleare⟩ := regWrite_waits p p.regStatus p.mRxDr
  simp [captureProgram_eq, clearFlags, captureByte_waits, hclear, hclearn, hcleare, frameBegin, frameByte, frameEnd, List.countP_cons,
    goesOn, transfersByte, echoesByte]

/-- The handler's micro-sequence up to its frame's command byte (R214, R216). -/
theorem viewRun_captureOpening (p : Params) (ms : List Micro) (r : Byte) (rs : List Byte) (v : BlockView) :
    viewRun (.ce false :: (frameBegin p ++ (frameByte p p.opcRRxPayload ++ ms))) (r :: rs) v =
      viewRun ms rs (capturing { v with ce := false, csn := false } v.tmp r v.rxbuf (v.rxcnt, v.fault) (v.upc + 6)) := by
  simp [frameBegin, frameByte, viewRun, viewMicro, viewEffect, microSteps, transfersByte, capturing]

theorem eventsRun_captureOpening (p : Params) (ms : List Micro) (r : Byte) (rs : List Byte) (v : BlockView) :
    eventsRun (.ce false :: (frameBegin p ++ (frameByte p p.opcRRxPayload ++ ms))) (r :: rs) v =
      [.ce false, .w p.tSettle, .csn false, .w p.tSettle, .x p.opcRRxPayload r, .w p.tSettle] ++ eventsRun ms rs
        (capturing { v with ce := false, csn := false } v.tmp r v.rxbuf (v.rxcnt, v.fault) (v.upc + 6)) := by
  simp [frameBegin, frameByte, eventsRun, eventsMicro, viewMicro, viewEffect, microSteps, transfersByte, capturing]

theorem viewRun_frameEnd (ms : List Micro) (rs : List Byte) (v : BlockView) :
    viewRun (frameEnd ++ ms) rs v = viewRun ms rs { v with csn := true, upc := v.upc + 1 } := rfl

theorem eventsRun_frameEnd (ms : List Micro) (rs : List Byte) (v : BlockView) :
    eventsRun (frameEnd ++ ms) rs v = [.csn true] ++ eventsRun ms rs { v with csn := true, upc := v.upc + 1 } := rfl

/-- The handler's micro-sequence leaves CE low, the eight bytes in RXBUF, and RXCNT raised by the sentinels among them, up to its bound
(R214 to R217, R224). -/
theorem viewRun_captureProgram (p : Params) (d : Nat → Byte) (v : BlockView) (hc : v.rxcnt.toNat ≤ 8) :
    ∃ n, viewRun (captureProgram p) ((List.range 11).map d) v =
      { v with
        upc := n, ce := false, csn := true, tmp := d 8, rx := d 10
        rxbuf := #v[d 1, d 2, d 3, d 4, d 5, d 6, d 7, d 8]
        rxcnt := BitVec.ofNat cntW (min 8 (v.rxcnt.toNat + sentinels d))
        fault := if 8 < v.rxcnt.toNat + sentinels d then v.fault ||| 4 else v.fault } := by
  have hcounts := countStep_fold [d 1, d 2, d 3, d 4, d 5, d 6, d 7, d 8] v.rxcnt v.fault hc
  simp only [List.foldl_cons, List.foldl_nil] at hcounts
  rw [captureProgram_eq, range_11_map, viewRun_captureOpening]
  simp only [viewRun_capturing, viewRun_frameEnd, clearFlags, viewRun_regWrite, hcounts]
  rw [← set_all_eight v.rxbuf]
  exact ⟨_, rfl⟩

/-- The handler's micro-sequence as the pins show it (R214, R216, R217, R222). -/
theorem eventsRun_captureProgram (p : Params) (d : Nat → Byte) (v : BlockView) :
    eventsRun (captureProgram p) ((List.range 11).map d) v = captureEvents p d := by
  rw [captureProgram_eq, range_11_map, eventsRun_captureOpening]
  simp only [eventsRun_capturing, eventsRun_frameEnd, clearFlags, eventsRun_regWrite, eventsRun]
  simp only [captureEvents, List.cons_append, List.nil_append, List.append_nil]

/-- The handler's return is the end of its sequence (R218). -/
theorem capture_of_finished {s t : State} (h : runList (captureProgram s.cfg) (enterHandler s) = .finished t) :
    capture s = toIdle t := by
  simp only [capture, runMicros, h]

/-- A capture whose waits complete: its end state and its events (R214 to R218, R222, R224). -/
theorem capture_completes {s : State} (hs : s.seq = .idle) (hu : Unwatched s) (hc : s.rxcnt.toNat ≤ 8)
    (ht : TransfersComplete 11 s) (hd : EchoesComplete 8 s) :
    ∃ d : Nat → Byte,
      (capture s).block =
          { s.block with
            upc := 0, irqEn := false, ce := false, csn := true, tmp := d 8, rx := d 10
            rxbuf := #v[d 1, d 2, d 3, d 4, d 5, d 6, d 7, d 8]
            rxcnt := BitVec.ofNat cntW (min 8 (s.rxcnt.toNat + sentinels d))
            fault := if 8 < s.rxcnt.toNat + sentinels d then s.fault ||| 0b0100 else s.fault }
        ∧ (capture s).trace = s.trace ++ captureEvents s.cfg d
        ∧ (capture s).host = s.host ∧ (capture s).answers = s.answers.drop 11 ∧ (capture s).dbg = s.dbg.drop 8 := by
  obtain ⟨hg, hn, hecho⟩ := captureProgram_waits s.cfg
  obtain ⟨t, rs, hrun, hlen, hblock, htrace, hhost, hans, hdbg, -⟩ :=
    runList_completes (captureProgram s.cfg) (enterHandler s) hu hg (hn ▸ ht) (hecho ▸ hd)
  rw [hn] at hlen hans
  rw [hecho] at hdbg
  obtain ⟨d, rfl⟩ := list_as_bytes hlen
  obtain ⟨n, hview⟩ := viewRun_captureProgram s.cfg d (enterHandler s).block hc
  rw [hview] at hblock
  rw [eventsRun_captureProgram] at htrace
  rw [capture_of_finished hrun]
  refine ⟨d, ?_, htrace, hhost, hans, hdbg⟩
  rw [toIdle_block, hblock, ← hs]
  rfl

/-! ## A capture with no falling edge -/

/-- A micro-operation that goes on keeps the parameters (R5). -/
theorem micro_more_cfg {m : Micro} {s t : State} (hm : micro m s = .more t) : t.cfg = s.cfg := by
  rcases micro_cases m s with ⟨-, r, u, he, hb, -⟩ | ⟨-, u, he, -⟩ | ⟨-, u, he, -⟩ | ⟨-, -, u, -, -, he⟩ <;>
    rw [hm] at he <;> cases he
  exact (congrArg BlockView.cfg hb).trans (viewMicro_cfg m r s.block)

/-- A run that does not store in the configuration register sets no interrupt pending without a falling edge (R62, R212). -/
theorem runList_calm {ms : List Micro} {s : State} {fr : Option (Option WireCmd × Nat)}
    (hcell : regCell s.cfg.regConfig 0 ∉ storedCells s.cfg fr ms) (hp : InPlace fr s) (h : Calm s) : Calm (runList ms s).state := by
  induction ms generalizing s fr with
  | nil => exact h
  | cons m ms ih =>
    obtain ⟨fr', hcells, hreads, hplace⟩ := micro_stores s.cfg m (towardsLook s) fr ms rfl hp
    have hcalm : Calm (micro m (towardsLook s)).state := calm_micro h fun _ => .inr (hreads _ hcell)
    simp only [runList]
    split
    · exact h
    · cases hm : micro m (towardsLook s) with rw [hm] at hcalm
      | hold t => exact hcalm
      | jump t target => exact hcalm
      | more t =>
        have hcfg : t.cfg = s.cfg := micro_more_cfg (s := towardsLook s) hm
        exact ih (hcfg ▸ fun hmem => hcell (hcells _ hmem)) (hplace t hm) hcalm

/-- The handler's frame stores in no register (R60). -/
theorem storesOnly_rxPayloadFrame {p : Params} (hw : p.wellFormed = true) : StoresOnly p [] (rxPayloadFrame p) := by
  obtain ⟨hcmd, -⟩ := decodeWireCmd_fixed hw
  intro rest x hx
  have hframe : storedCells p none (rxPayloadFrame p ++ rest) =
      let cells := cellsOf p (decodeWireCmd p p.opcRRxPayload)
      cells 1 ++ (cells 2 ++ (cells 3 ++ (cells 4 ++ (cells 5 ++ (cells 6 ++ (cells 7 ++ (cells 8 ++ storedCells p none rest))))))) := rfl
  rw [hframe, hcmd] at hx
  exact .inr hx

/-- Nor does the rest of the handler (R217). -/
theorem storesOnly_captureProgram {p : Params} (hw : p.wellFormed = true) : StoresOnly p [] (captureProgram p) :=
  storesOnly_append (storesOnly_append (storesOnly_ce false) (storesOnly_rxPayloadFrame hw)) (storesOnly_clearFlags hw _)

/-- A capture during which no falling edge comes ends, or waits, with nothing pending (R211, R215). -/
theorem capture_calm {s : State} (hw : s.cfg.wellFormed = true) (h : NoFallComing s) : Calm (capture s) := by
  have hcell : regCell s.cfg.regConfig 0 ∉ storedCells s.cfg none (captureProgram s.cfg) := by
    intro hmem
    rw [← List.append_nil (captureProgram s.cfg)] at hmem
    exact (storesOnly_captureProgram hw [] _ hmem).elim List.not_mem_nil List.not_mem_nil
  have hrun : Calm (runList (captureProgram s.cfg) (enterHandler s)).state :=
    runList_calm (s := enterHandler s) hcell (none_place _) ⟨rfl, h⟩
  unfold capture runMicros
  split <;> rename_i hx <;> rw [hx] at hrun
  · exact calm_toIdle hrun
  · exact hrun

/-- Settles O34: the handler's micro-sequence over the bytes received, and its entry clears IRQ_PEND, which nothing sets after it. -/
theorem captureReadsEightBytes : Obligations.CaptureReadsEightBytes := fun _ hs hu hc ht hd =>
  ⟨capture_completes hs hu hc ht hd, fun hw h => (capture_calm hw h).1⟩

/-! ## A capture at the reference peer -/

/-- Writing M_RX_DR clears receive-data-ready alone (R45, R217). -/
theorem cleared_rxDr_st (p : Params) (q : Peer) : (q.cleared p p.mRxDr).st = q.st &&& ~~~p.mRxDr := by
  have hmask : p.mRxDr &&& mStAll p = p.mRxDr := by
    ext i hi
    simp only [mStAll, BitVec.getElem_and, BitVec.getElem_or]
    cases p.mRxDr[i] <;> simp
  rw [cleared_st, hmask]

/-- The handler's micro-sequence at the reference peer with a payload waiting (R214, R216, R217, R60). -/
theorem quietRun_captureProgram {p : Params} {v : BlockView} {q : Peer} {pl : Payload} {rest : List Payload} (d : Nat → Byte)
    (hw : p.wellFormed = true) (hc : NoCollision p) (hp : v.cfg = p) (hk : q.kind = .reference) (hx : q.rxf = pl :: rest) :
    ∃ w : BlockView, w.rxbuf = pl
      ∧ quietRun (captureProgram p) ((List.range 11).map d) v q = (w, (q.withRxf rest).cleared p p.mRxDr) := by
  obtain ⟨hcmd, -⟩ := decodeWireCmd_fixed hw
  obtain ⟨w, hcfg, hbuf, -, hframe⟩ := quietRun_rxPayloadFrame (ms := clearFlags p p.mRxDr ++ []) (rs := [d 9, d 10])
    (v := { v with ce := false, upc := v.upc + 1 }) (r0 := d 0) (r1 := d 1) (r2 := d 2) (r3 := d 3) (r4 := d 4) (r5 := d 5)
    (r6 := d 6) (r7 := d 7) (r8 := d 8) hp hk hcmd hx
  refine ⟨afterFrame (d 10) 8 w, hbuf, ?_⟩
  rw [captureProgram, range_11_map, List.append_assoc, List.cons_append, List.nil_append, quietRun_ce, onCe_fall hk,
    ← List.append_nil (clearFlags p p.mRxDr), hframe, clearFlags,
    quietRun_statusWrite (q := q.withRxf rest) (hcfg.trans hp) hk (decodeWireCmd_write hw hc p.regStatus)]
  rfl

/-- Settles O56: the handler's frame takes the oldest payload and its second one clears the flag; the end of the handler changes none of
the peer's contents. -/
theorem captureTakesTheOldestPayload : Obligations.CaptureTakesTheOldestPayload := by
  intro s pl rest hw hc hk he hs hu hx ht hd
  obtain ⟨hg, hn, hecho⟩ := captureProgram_waits s.cfg
  obtain ⟨t, rs, hrun, hlen, hend, -⟩ :=
    runList_quiet (captureProgram s.cfg) (enterHandler s) hu hg (hn ▸ ht) (hecho ▸ hd) he
  obtain ⟨d, rfl⟩ := list_as_bytes (hlen.trans hn)
  obtain ⟨w, hbuf, hquiet⟩ := quietRun_captureProgram (v := (enterHandler s).block) d hw hc rfl hk hx
  obtain ⟨hblock, hpeer⟩ := Prod.mk.inj (hend.trans hquiet)
  have hrxbuf : t.rxbuf = pl := (congrArg BlockView.rxbuf hblock).trans hbuf
  rw [capture_of_finished hrun]
  refine ⟨hrxbuf, ?_, ?_, ?_, fun a _ => ?_⟩
  · simp [hpeer]
  · rw [toIdle_peer, leftWithCe_st, hpeer, cleared_rxDr_st]
    rfl
  · simp [hpeer]
  · rw [toIdle_mem, hpeer]
    rfl

end Sys2Proof.Machine
end

section
/-! PROOFS of the statement about CE left high over a radio in transmit configuration (R263, U12). -/

namespace Sys2Proof.Machine

/-- A rise or fall of CE leaves the radio in its configuration, which is in a register (R28, R61). -/
theorem onCe_transmits (p : Params) (level : Bool) (q : Peer) : (q.onCe p level).transmits p = q.transmits p := by
  simp only [Peer.transmits, Peer.config, onCe_keeps]

/-- A rise of CE does nothing to a reference peer that does not transmit (R61). -/
theorem onCe_rise_eq_self {p : Params} {q : Peer} (hk : q.kind = .reference) (hq : q.transmits p = false) : q.onCe p true = q := by
  rw [onCe_rise hk, hq, Bool.false_and, Bool.or_false]

/-- CE_SET, undisturbed, is a rise of CE at the peer, and CE is high at the operation's end (R181). -/
theorem ceSet_peer {s : State} {addr : Addr} {val : Byte} (hr : s.ready = true) (hu : Unwatched s) (he : s.env = []) :
    ∃ t, exec (.ceSet addr val) s = .next t ∧ t.peer = (s.peer.onCe s.cfg true).leftWithCe s.cfg true := by
  obtain ⟨t, d, hx, hend, -⟩ := command_quiet (op := codeCeSet) (addr := addr) (val := val) (prog := ceSetProgram) (n := 0)
    hr hu rfl rfl rfl rfl he
  obtain ⟨hblock, hpeer⟩ := Prod.mk.inj (hend.trans (quietRun_ce ..))
  have hcfg : t.cfg = s.cfg := congrArg BlockView.cfg hblock
  have hce : t.ce = true := congrArg BlockView.ce hblock
  refine ⟨toIdle t, hx, ?_⟩
  rw [toIdle_peer, hcfg, hce, hpeer]
  rfl

/-- Settles O54: the rise keeps the radio's configuration, by which the end of the operation then frees the peer or not. -/
theorem ceLeftHighInTransmitFreesThePeer : Obligations.CeLeftHighInTransmitFreesThePeer := by
  intro s addr val hk he hr hu
  obtain ⟨t, hx, hpeer⟩ := ceSet_peer (addr := addr) (val := val) hr hu he
  refine ⟨t, hx, fun ⟨hup, htx⟩ => ?transmits, fun h => ?silent⟩
  case transmits =>
    have hq : s.peer.transmits s.cfg = true :=
      Bool.eq_true_of_not_eq_false fun h => (transmits_eq_false_iff.mp h).elim hup (absurd htx)
    rw [hpeer, Peer.leftWithCe, onCe_transmits, hq]
    rfl
  case silent =>
    have hq := transmits_eq_false_iff.mpr h
    rw [hpeer, onCe_rise_eq_self hk hq, leftWithCe_eq_self fun _ => hq]

end Sys2Proof.Machine
end

section
/-! PROOFS of the statement about R272's counts: each count of a trace is a sum over its events, so a micro-sequence that completes
fixes it, whatever bytes it receives. -/

namespace Sys2Proof.Machine

/-! ## What R272 counts -/

/-- The counts of R272's table for a trace: frames, transfers, events, minimum microseconds. -/
def tally (tr : List Event) : Nat × Nat × Nat × Nat :=
  (tr.countP (fun e => e = .csn false), transferCount tr, tr.length, minMicros tr)

theorem minMicros_append (a b : List Event) : minMicros (a ++ b) = minMicros a + minMicros b := by
  induction a with
  | nil => exact (Nat.zero_add _).symm
  | cons e a ih => cases e <;> simp only [List.cons_append, minMicros, ih, Nat.add_assoc]

theorem tally_append (a b : List Event) : tally (a ++ b) = tally a + tally b := by
  simp only [tally, transferCount, List.countP_append, List.length_append, minMicros_append, Prod.mk_add_mk]

/-- What a micro-operation that goes on adds to the counts. -/
def microTally : Micro → Nat × Nat × Nat × Nat
  | .wait t => (0, 0, 1, t)
  | .csn false => (1, 0, 1, 0)
  | .csn true => (0, 0, 1, 0)
  | .ce _ => (0, 0, 1, 0)
  | .send _ => (0, 1, 1, 0)
  | .sendRmw _ _ => (0, 1, 1, 0)
  | .echo => (0, 0, 1, 0)
  | .storeTmp => 0
  | .resultTmp => 0
  | .resultSending => 0
  | .setMode _ => 0
  | .setIrqEn _ => 0
  | .clearCount => 0
  | .setAbuf _ _ => 0
  | .setTxbuf _ _ => 0
  | .raise _ => 0
  | .storeRx _ => 0
  | .count => 0
  | .setRunning _ => 0
  | .setNlpc _ => 0
  | .clearPolls => 0
  | .poll => 0
  | .pollTest => 0

/-- What a micro-sequence that completes adds to the counts. -/
def programTally (ms : List Micro) : Nat × Nat × Nat × Nat := (ms.map microTally).sum

@[simp] theorem programTally_cons (m : Micro) (ms : List Micro) : programTally (m :: ms) = microTally m + programTally ms := List.sum_cons

@[simp] theorem programTally_nil : programTally [] = 0 := rfl

theorem tally_eventsMicro (m : Micro) (r : Byte) (v : BlockView) : tally (eventsMicro m r v) = microTally m := by
  cases m
  case csn level => cases level <;> rfl
  all_goals rfl

/-- The counts of a micro-sequence's events depend neither on the bytes received nor on the block. -/
theorem tally_eventsRun (ms : List Micro) (rs : List Byte) (v : BlockView) : tally (eventsRun ms rs v) = programTally ms := by
  induction ms generalizing rs v with
  | nil => rfl
  | cons m ms ih =>
    unfold eventsRun
    split <;> rw [tally_append, tally_eventsMicro, ih, programTally_cons]

/-- A micro-sequence whose waits all complete leaves the counts of its own events in an empty trace. -/
theorem runMicros_tally {ms : List Micro} {s : State} (hg : ms.all goesOn = true) (hu : Unwatched s) (ha : s.answers = [])
    (hd : s.dbg = []) (htr : s.trace = []) : tally (runMicros ms s).trace = programTally ms := by
  obtain ⟨t, rs, hrun, -, -, htrace, -⟩ := runList_completes ms s hu hg (by simp [TransfersComplete, ha]) (by simp [EchoesComplete, hd])
  have hend : (runMicros ms s).trace = eventsRun ms rs s.block := by
    rw [runMicros, hrun, toIdle_trace, htrace, htr, List.nil_append]
  rw [hend, tally_eventsRun]

/-! ## Frames and sequences -/

@[simp] theorem programTally_append (a b : List Micro) : programTally (a ++ b) = programTally a + programTally b := by
  rw [programTally, List.map_append, List.sum_append]
  rfl

section
variable (p : Params)

@[simp] theorem programTally_frameByte (b : Byte) : programTally (frameByte p b) = (0, 1, 2, p.tSettle) := by
  simp [frameByte, microTally]

theorem programTally_frameBytes (bs : List Byte) :
    programTally (frameBytes p bs) = (0, bs.length, 2 * bs.length, bs.length * p.tSettle) := by
  induction bs with
  | nil => simp [frameBytes, Prod.ext_iff]
  | cons b bs ih =>
    have hcons : frameBytes p (b :: bs) = frameByte p b ++ frameBytes p bs := rfl
    simp only [hcons, programTally_append, ih, programTally_frameByte, List.length_cons, Prod.mk_add_mk, Prod.mk.injEq]
    refine ⟨trivial, ?_, ?_, ?_⟩ <;> ring

/-- The counts of a frame of n transfers (R105, R109). -/
def frameTally (n : Nat) : Nat × Nat × Nat × Nat := (1, n, 4 + 2 * n, (2 + n) * p.tSettle)

/-- A frame is its opening, its bytes and its end (R106 to R108). -/
theorem programTally_frame (bs : List Byte) : programTally (frameBegin p ++ frameBytes p bs ++ frameEnd) = frameTally p bs.length := by
  simp only [programTally_append, programTally_frameBytes, frameBegin, frameEnd, programTally_cons, programTally_nil, microTally,
    frameTally, add_zero, Prod.mk_add_mk, Prod.mk.injEq]
  refine ⟨trivial, ?_, ?_, ?_⟩ <;> ring

@[simp] theorem programTally_regRead (a : Addr) : programTally (regRead p a) = frameTally p 2 :=
  programTally_frame p [readCommand p a, p.opcNop]

@[simp] theorem programTally_regWrite (a : Addr) (v : Byte) : programTally (regWrite p a v) = frameTally p 2 :=
  programTally_frame p [writeCommand p a, v]

/-- The byte written back counts as any byte. -/
@[simp] theorem programTally_regWriteRmw (a : Addr) (keep set : Byte) : programTally (regWriteRmw p a keep set) = frameTally p 2 :=
  programTally_regWrite p a 0

@[simp] theorem programTally_flushFrame (opc : Byte) : programTally (flushFrame p opc) = frameTally p 1 := programTally_frame p [opc]

@[simp] theorem programTally_addrWrite (a : Addr) (b : DeviceAddress) : programTally (addrWrite p a b) = frameTally p 6 := by
  rw [addrWrite, deviceAddress_toList]
  exact programTally_frame p [writeCommand p a, b[0], b[1], b[2], b[3], b[4]]

@[simp] theorem programTally_txPayloadFrame (pl : Payload) : programTally (txPayloadFrame p pl) = frameTally p 9 := by
  rw [txPayloadFrame, payload_toList]
  exact programTally_frame p [p.opcWTxPayload, pl[0], pl[1], pl[2], pl[3], pl[4], pl[5], pl[6], pl[7]]

@[simp] theorem programTally_cfgRmw (keep set : Byte) : programTally (cfgRmw p keep set) = (2, 4, 16, 8 * p.tSettle) := by
  simp [cfgRmw, microTally, frameTally]
  omega

/-- ENTER_TX's row, for any times (R146, R272). -/
theorem programTally_enterTxBody : programTally (enterTxBody p) = (8, 15, 64, 31 * p.tSettle + p.tCfg) := by
  simp [enterTxBody, clearFlags, maskTxIrqOn, microTally, frameTally]
  omega

/-- ENTER_RX's row, for any times (R149, R272). -/
@[simp] theorem programTally_enterRxBody : programTally (enterRxBody p) = (6, 11, 49, 23 * p.tSettle + p.tCfg) := by
  simp [enterRxBody, clearFlags, maskTxIrqOn, microTally, frameTally]
  omega

/-- SEND's row, for any times (R152, R272). -/
theorem programTally_sendBody (pl : Payload) :
    programTally (sendBody p pl) = (2, 10, 32, 14 * p.tSettle + p.tPrePulse + p.tCePulse) := by
  simp [sendBody, microTally, frameTally]
  omega

/-- CONFIGURE's row, for any times: six register writes, two address writes and ENTER_RX (R156, R272). -/
theorem programTally_configureProgram (s : State) :
    programTally (configureProgram s) = (14, 35, 129, 63 * s.cfg.tSettle + s.cfg.tCfg) := by
  simp [configureProgram, frameTally]
  omega

/-- The handler's work on one byte is a transfer, a settle wait and an echo (R216). -/
@[simp] theorem programTally_captureByte (i : Fin payloadLen) : programTally (captureByte p i) = (0, 1, 3, p.tSettle) := by
  simp [captureByte, microTally]

/-- CAPTURE's row, for any times (R214, R272). -/
theorem programTally_captureProgram : programTally (captureProgram p) = (2, 11, 39, 15 * p.tSettle) := by
  simp [captureProgram, rxPayloadFrame, frameBegin, frameEnd, clearFlags, microTally, frameTally]
  omega

end

/-! ## The rows of the table -/

/-- The instruction is an operation whose micro-sequence, as it stands at acceptance, waits for nothing but transfers and has the
counts. -/
def Counted (s : State) (i : Instr) (counts : Nat × Nat × Nat × Nat) : Prop :=
  ∃ op addr val prog, exec i s = command op addr val prog s ∧ (prog (accept op addr val s)).all goesOn = true
    ∧ programTally (prog (accept op addr val s)) = counts

/-- Each row of the table is its operation's (R272). -/
theorem operationCounts_counted (s : State) (addr : Addr) (val : Byte) :
    ∀ row ∈ operationCounts s.mode addr val, Counted { s with cfg := Params.default } row.1 row.2 := by
  simp only [operationCounts, List.forall_mem_append, List.forall_mem_cons, List.not_mem_nil, false_imp_iff, implies_true, and_true]
  refine ⟨⟨?rdreg, ?wrreg, ?resetStatus, ?wraddr, ?getStatus, ?isSending, ?flushTx, ?flushRx, ?enterTx, ?enterRx, ?configure, ?ceSet,
    ?ceClr, ?irqOn, ?irqOff, ?cntClr, ?abufWr, ?txbufWr, ?run⟩, ?send⟩
  case wraddr => exact ⟨_, _, _, wraddrProgram, rfl, (addrWrite_waits ..).1, programTally_addrWrite ..⟩
  case enterTx => exact ⟨_, _, _, enterTxProgram, rfl, rfl, programTally_enterTxBody _⟩
  case enterRx => exact ⟨_, _, _, enterRxProgram, rfl, rfl, programTally_enterRxBody _⟩
  case configure => exact ⟨_, _, _, configureProgram, rfl, (configureProgram_waits _).1, programTally_configureProgram _⟩
  case abufWr =>
    refine ⟨_, _, _, abufWrProgram, rfl, ?_⟩
    unfold abufWrProgram
    split <;> exact ⟨rfl, rfl⟩
  case txbufWr =>
    refine ⟨_, _, _, txbufWrProgram, rfl, ?_⟩
    unfold txbufWrProgram
    split <;> exact ⟨rfl, rfl⟩
  case send =>
    split
    · next hmode =>
      rw [List.forall_mem_singleton]
      have hprog : sendProgram (accept codeSend addr val { s with cfg := Params.default }) = sendBody Params.default s.txbuf :=
        sendProgram_transmitting hmode
      refine ⟨_, _, _, sendProgram, rfl, ?_⟩
      rw [hprog]
      exact ⟨(sendBody_waits ..).1, programTally_sendBody ..⟩
    · exact fun _ h => absurd h List.not_mem_nil
  all_goals exact ⟨_, _, _, _, rfl, rfl, rfl⟩

/-- An operation of the table, accepted with every wait completing, leaves its row's counts in an empty trace. -/
theorem exec_tally {s t : State} {i : Instr} {counts : Nat × Nat × Nat × Nat} (hc : Counted s i counts) (hr : s.ready = true)
    (hu : Unwatched s) (ha : s.answers = []) (hd : s.dbg = []) (htr : s.trace = []) (hx : exec i s = .next t) :
    tally t.trace = counts := by
  obtain ⟨op, addr, val, prog, he, hg, rfl⟩ := hc
  have hrun : command op addr val prog s = .next (runMicros (prog (accept op addr val s)) (accept op addr val s)) := if_pos hr
  obtain rfl := Host.Outcome.next.inj (hx.symm.trans (he.trans hrun))
  exact runMicros_tally (s := accept op addr val s) hg hu ha hd htr

/-- Settles O60: an operation's counts are its row's by `operationCounts_counted`, and the handler's are those of its sequence. -/
theorem eventCountsAreThoseOfTheTable : Obligations.EventCountsAreThoseOfTheTable := by
  intro s t addr val i frames transfers events micros hcfg ha hd htr hu h
  suffices hcounts : tally t.trace = (frames, transfers, events, micros) by
    simpa only [tally, Prod.mk.injEq] using hcounts
  rcases h with ⟨hr, hx, hrow⟩ | ⟨rfl, hrow⟩
  case inl =>
    have hc := operationCounts_counted s addr val _ hrow
    rw [← hcfg] at hc
    exact exec_tally hc hr hu ha hd htr hx
  case inr =>
    have hrun : tally (capture s).trace = programTally (captureProgram s.cfg) :=
      runMicros_tally (s := enterHandler s) (captureProgram_waits s.cfg).1 hu ha hd htr
    rw [hrun, hrow, hcfg]
    exact programTally_captureProgram _

end Sys2Proof.Machine
end
